-- ==== Sys2Proof/Word.lean ====
section
/-! DEFINITION. The two sizes of datum the machine moves (00_scope.md R10, 20_memory.md R51). -/

namespace Sys2Proof

/-- A 16-bit word: a register's content, an address, an instruction word. -/
abbrev Word := BitVec 16

/-- An 8-bit byte. -/
abbrev Byte := BitVec 8

/-- The operand width an instruction works at, `n` of 00_scope.md R10. -/
inductive Width where
  | byte
  | word
  deriving DecidableEq, Repr

/-- `n`: 8 for a byte instruction, 16 for a word instruction. -/
abbrev Width.bits : Width → Nat
  | .byte => 8
  | .word => 16

end Sys2Proof
end

