-- ==== Sys2Proof/Syntax.lean ====
section
/-! DEFINITION. The instruction set as syntax: one constructor per row of opcode_table.json. An
instruction is its first word; index words, immediates and absolute addresses are fetched through PC
while the operands are evaluated (30_encoding.md R80, 10_state.md R26) and stand in no constructor. -/

namespace Sys2Proof

/-- The general registers, 10_state.md R20. R6 is the stack pointer (R23), R7 the program counter (R22). -/
inductive Reg where
  | r0 | r1 | r2 | r3 | r4 | r5 | r6 | r7
  deriving DecidableEq, Repr

/-- The eight addressing modes, 40_addressing_modes.md R110. -/
inductive Mode where
  | register
  | deferred
  | autoInc
  | autoIncDeferred
  | autoDec
  | autoDecDeferred
  | indexed
  | indexDeferred
  deriving DecidableEq, Repr

/-- A 6-bit operand field SS or DD, 30_encoding.md R81. -/
structure Operand where
  mode : Mode
  reg : Reg
  deriving DecidableEq, Repr

/-- The rows of opcode_table.json. Each comment gives the row's mnemonic, its bits and its rule. -/
inductive Instr where
  /-- MOV, 0001ssssssdddddd, R141. -/
  | mov (src dst : Operand)
  /-- MOVB, 1001ssssssdddddd, R142. -/
  | movb (src dst : Operand)
  /-- CMP, 0010ssssssdddddd, R143. -/
  | cmp (src dst : Operand)
  /-- CMPB, 1010ssssssdddddd, R144. -/
  | cmpb (src dst : Operand)
  /-- BIT, 0011ssssssdddddd, R145. -/
  | bit (src dst : Operand)
  /-- BITB, 1011ssssssdddddd, R146. -/
  | bitb (src dst : Operand)
  /-- BIC, 0100ssssssdddddd, R147. -/
  | bic (src dst : Operand)
  /-- BICB, 1100ssssssdddddd, R148. -/
  | bicb (src dst : Operand)
  /-- BIS, 0101ssssssdddddd, R149. -/
  | bis (src dst : Operand)
  /-- BISB, 1101ssssssdddddd, R150. -/
  | bisb (src dst : Operand)
  /-- ADD, 0110ssssssdddddd, R151. -/
  | add (src dst : Operand)
  /-- SUB, 1110ssssssdddddd, R152. -/
  | sub (src dst : Operand)
  /-- JSR__dst_mode_0__illegal, 0000100rrr000ddd, R101. -/
  | jsrIllegal (r d : Reg)
  /-- JSR, 0000100rrrdddddd, R160. -/
  | jsr (r : Reg) (dst : Operand)
  /-- RTS, 0000000010000rrr, R161. -/
  | rts (r : Reg)
  /-- HALT, 0000000000000000, R171. -/
  | halt
  /-- WAIT, 0000000000000001, R172. -/
  | wait
  /-- RTI, 0000000000000010, R174. -/
  | rti
  /-- BPT, 0000000000000011, R175. -/
  | bpt
  /-- IOT, 0000000000000100, R176. -/
  | iot
  /-- RESET, 0000000000000101, R177. -/
  | reset
  /-- EMT, 10001000xxxxxxxx, R178. -/
  | emt (code : BitVec 8)
  /-- TRAP, 10001001xxxxxxxx, R179. -/
  | trap (code : BitVec 8)
  /-- CLR, 0000101000dddddd, R191. -/
  | clr (dst : Operand)
  /-- CLRB, 1000101000dddddd, R192. -/
  | clrb (dst : Operand)
  /-- COM, 0000101001dddddd, R193. -/
  | com (dst : Operand)
  /-- COMB, 1000101001dddddd, R194. -/
  | comb (dst : Operand)
  /-- INC, 0000101010dddddd, R195. -/
  | inc (dst : Operand)
  /-- INCB, 1000101010dddddd, R196. -/
  | incb (dst : Operand)
  /-- DEC, 0000101011dddddd, R197. -/
  | dec (dst : Operand)
  /-- DECB, 1000101011dddddd, R198. -/
  | decb (dst : Operand)
  /-- NEG, 0000101100dddddd, R199. -/
  | neg (dst : Operand)
  /-- NEGB, 1000101100dddddd, R200. -/
  | negb (dst : Operand)
  /-- ADC, 0000101101dddddd, R201. -/
  | adc (dst : Operand)
  /-- ADCB, 1000101101dddddd, R202. -/
  | adcb (dst : Operand)
  /-- SBC, 0000101110dddddd, R203. -/
  | sbc (dst : Operand)
  /-- SBCB, 1000101110dddddd, R204. -/
  | sbcb (dst : Operand)
  /-- TST, 0000101111dddddd, R205. -/
  | tst (dst : Operand)
  /-- TSTB, 1000101111dddddd, R206. -/
  | tstb (dst : Operand)
  /-- ROR, 0000110000dddddd, R207. -/
  | ror (dst : Operand)
  /-- RORB, 1000110000dddddd, R208. -/
  | rorb (dst : Operand)
  /-- ROL, 0000110001dddddd, R209. -/
  | rol (dst : Operand)
  /-- ROLB, 1000110001dddddd, R210. -/
  | rolb (dst : Operand)
  /-- ASR, 0000110010dddddd, R211. -/
  | asr (dst : Operand)
  /-- ASRB, 1000110010dddddd, R212. -/
  | asrb (dst : Operand)
  /-- ASL, 0000110011dddddd, R213. -/
  | asl (dst : Operand)
  /-- ASLB, 1000110011dddddd, R214. -/
  | aslb (dst : Operand)
  /-- JMP__dst_mode_0__illegal, 0000000001000ddd, R101. -/
  | jmpIllegal (d : Reg)
  /-- JMP, 0000000001dddddd, R215. -/
  | jmp (dst : Operand)
  /-- SWAB, 0000000011dddddd, R216. -/
  | swab (dst : Operand)
  /-- CCO__any_condition-code_operator, 00000000101snzvc, R221. -/
  | cco (s n z v c : Bool)
  /-- NOP, 0000000010100000, R219. Another name of the general row. -/
  | nop
  /-- CLC, 0000000010100001, R222. Another name of the general row. -/
  | clc
  /-- CLV, 0000000010100010, R223. Another name of the general row. -/
  | clv
  /-- CLZ, 0000000010100100, R224. Another name of the general row. -/
  | clz
  /-- CLN, 0000000010101000, R225. Another name of the general row. -/
  | cln
  /-- CCC, 0000000010101111, R221. Another name of the general row. -/
  | ccc
  /-- NOP__second_code, 0000000010110000, R219. Another name of the general row. -/
  | nop260
  /-- SEC, 0000000010110001, R226. Another name of the general row. -/
  | sec
  /-- SEV, 0000000010110010, R227. Another name of the general row. -/
  | sev
  /-- SEZ, 0000000010110100, R228. Another name of the general row. -/
  | sez
  /-- SEN, 0000000010111000, R229. Another name of the general row. -/
  | sen
  /-- SCC, 0000000010111111, R221. Another name of the general row. -/
  | scc
  /-- BR, 00000001xxxxxxxx, R233. -/
  | br (off : BitVec 8)
  /-- BNE, 00000010xxxxxxxx, R234. -/
  | bne (off : BitVec 8)
  /-- BEQ, 00000011xxxxxxxx, R235. -/
  | beq (off : BitVec 8)
  /-- BGE, 00000100xxxxxxxx, R236. -/
  | bge (off : BitVec 8)
  /-- BLT, 00000101xxxxxxxx, R237. -/
  | blt (off : BitVec 8)
  /-- BGT, 00000110xxxxxxxx, R238. -/
  | bgt (off : BitVec 8)
  /-- BLE, 00000111xxxxxxxx, R239. -/
  | ble (off : BitVec 8)
  /-- BPL, 10000000xxxxxxxx, R240. -/
  | bpl (off : BitVec 8)
  /-- BMI, 10000001xxxxxxxx, R241. -/
  | bmi (off : BitVec 8)
  /-- BHI, 10000010xxxxxxxx, R242. -/
  | bhi (off : BitVec 8)
  /-- BLOS, 10000011xxxxxxxx, R243. -/
  | blos (off : BitVec 8)
  /-- BVC, 10000100xxxxxxxx, R244. -/
  | bvc (off : BitVec 8)
  /-- BVS, 10000101xxxxxxxx, R245. -/
  | bvs (off : BitVec 8)
  /-- BCC, 10000110xxxxxxxx, R246. -/
  | bcc (off : BitVec 8)
  /-- BCS, 10000111xxxxxxxx, R247. -/
  | bcs (off : BitVec 8)
  /-- BHIS, 10000110xxxxxxxx, R246. Another name of BCC. -/
  | bhis (off : BitVec 8)
  /-- BLO, 10000111xxxxxxxx, R247. Another name of BCS. -/
  | blo (off : BitVec 8)
  /-- unlisted_000006-000007, 000000000000011-, R100. -/
  | unlisted_000006_000007 (x : BitVec 1)
  /-- unlisted_000010-000017, 0000000000001---, R100. -/
  | unlisted_000010_000017 (x : BitVec 3)
  /-- unlisted_000020-000037, 000000000001----, R100. -/
  | unlisted_000020_000037 (x : BitVec 4)
  /-- unlisted_000040-000077, 00000000001-----, R100. -/
  | unlisted_000040_000077 (x : BitVec 5)
  /-- unlisted_000210-000217, 0000000010001---, R100. -/
  | unlisted_000210_000217 (x : BitVec 3)
  /-- unlisted_000220-000237, 000000001001----, R100. -/
  | unlisted_000220_000237 (x : BitVec 4)
  /-- unlisted_006400-006777, 00001101--------, R100. -/
  | unlisted_006400_006777 (x : BitVec 8)
  /-- unlisted_007000-007777, 0000111---------, R100. -/
  | unlisted_007000_007777 (x : BitVec 9)
  /-- unlisted_070000-077777, 0111------------, R100. -/
  | unlisted_070000_077777 (x : BitVec 12)
  /-- unlisted_106400-106777, 10001101--------, R100. -/
  | unlisted_106400_106777 (x : BitVec 8)
  /-- unlisted_107000-107777, 1000111---------, R100. -/
  | unlisted_107000_107777 (x : BitVec 9)
  /-- unlisted_170000-177777, 1111------------, R100. -/
  | unlisted_170000_177777 (x : BitVec 12)
  deriving DecidableEq, Repr

end Sys2Proof
end

