-- ==== Sys2Proof/WellFormed.lean ====
section
/-! DEFINITION. Which terms of `Instr` stand for a word of their own row (30_encoding.md R92, R93): a jump
with mode 0 is another row's, and so is a condition-code operator that has a name. -/

namespace Sys2Proof

/-- A jump's destination names an address: its mode is not 0, 30_encoding.md R101. -/
def Operand.namesAddress (o : Operand) : Bool :=
  o.mode ≠ .register

/-- The selectors N, Z, V, C of a condition-code operator that has no row of its own: two or three of
the four. The codes with none, one or all four selectors are the named rows (R219, R222 to R229, R106). -/
def ccoUnnamed (n z v c : Bool) : Bool :=
  let k := n.toNat + z.toNat + v.toNat + c.toNat
  k = 2 || k = 3

/-- A term is well formed if its word belongs to its own row. Every other constructor's fields are of
the width of the encoding's, so no term of theirs is ill formed. -/
def Instr.wellFormed : Instr → Bool
  | .jsr _ dst => dst.namesAddress
  | .jmp dst => dst.namesAddress
  | .cco _ n z v c => ccoUnnamed n z v c
  | _ => true

end Sys2Proof
end

