-- ==== Sys2Proof/Decode.lean ====
section
/-! DEFINITION. The decoder and the encoder, each written from the codes of 30_encoding.md R82 to R92.
A word's fields are octal digits (R93), so both work on the word as a number: `n / 64 % 64` is SS. -/

namespace Sys2Proof

/-! ## Fields -/

/-- A register's number, 0 to 7. -/
def Reg.code : Reg → Nat
  | .r0 => 0 | .r1 => 1 | .r2 => 2 | .r3 => 3 | .r4 => 4 | .r5 => 5 | .r6 => 6 | .r7 => 7

/-- The register a 3-bit field names. -/
def Reg.ofCode (n : Nat) : Reg :=
  match n % 8 with
  | 0 => .r0 | 1 => .r1 | 2 => .r2 | 3 => .r3 | 4 => .r4 | 5 => .r5 | 6 => .r6 | _ => .r7

/-- A mode's number, 0 to 7. -/
def Mode.code : Mode → Nat
  | .register => 0 | .deferred => 1 | .autoInc => 2 | .autoIncDeferred => 3
  | .autoDec => 4 | .autoDecDeferred => 5 | .indexed => 6 | .indexDeferred => 7

/-- The mode a 3-bit field names. -/
def Mode.ofCode (n : Nat) : Mode :=
  match n % 8 with
  | 0 => .register | 1 => .deferred | 2 => .autoInc | 3 => .autoIncDeferred
  | 4 => .autoDec | 5 => .autoDecDeferred | 6 => .indexed | _ => .indexDeferred

/-- The 6 bits of an operand field: mode above, register below, 30_encoding.md R81. -/
def Operand.code (o : Operand) : Nat :=
  o.mode.code * 8 + o.reg.code

/-- The operand a 6-bit field names. -/
def Operand.ofCode (n : Nat) : Operand :=
  { mode := Mode.ofCode (n / 8), reg := Reg.ofCode n }

/-! ## Decoding -/

/-- 000000 to 000077: the operate group and the unlisted codes after it, R86, R92. -/
def decodeOperate (n : Nat) : Instr :=
  match n / 8 % 8 with
  | 0 =>
    match n % 8 with
    | 0 => .halt | 1 => .wait | 2 => .rti | 3 => .bpt | 4 => .iot | 5 => .reset
    | _ => .unlisted_000006_000007 (BitVec.ofNat 1 n)
  | 1 => .unlisted_000010_000017 (BitVec.ofNat 3 n)
  | 2 | 3 => .unlisted_000020_000037 (BitVec.ofNat 4 n)
  | _ => .unlisted_000040_000077 (BitVec.ofNat 5 n)

/-- 000240 to 000277: the named condition-code operators, and the general row for the others, R89. -/
def decodeCco (n : Nat) : Instr :=
  match n % 32 with
  | 0o00 => .nop | 0o01 => .clc | 0o02 => .clv | 0o04 => .clz | 0o10 => .cln | 0o17 => .ccc
  | 0o20 => .nop260 | 0o21 => .sec | 0o22 => .sev | 0o24 => .sez | 0o30 => .sen | 0o37 => .scc
  | _ =>
    .cco (n / 16 % 2 == 1) (n / 8 % 2 == 1) (n / 4 % 2 == 1) (n / 2 % 2 == 1) (n % 2 == 1)

/-- 000200 to 000277: RTS, unlisted codes, condition-code operators, R84, R92. -/
def decodeReturn (n : Nat) : Instr :=
  match n / 8 % 8 with
  | 0 => .rts (Reg.ofCode n)
  | 1 => .unlisted_000210_000217 (BitVec.ofNat 3 n)
  | 2 | 3 => .unlisted_000220_000237 (BitVec.ofNat 4 n)
  | _ => decodeCco n

/-- 000100 to 000177: JMP, with mode 0 apart, R85, R101. -/
def decodeJmp (n : Nat) : Instr :=
  match n / 8 % 8 with
  | 0 => .jmpIllegal (Reg.ofCode n)
  | _ => .jmp (Operand.ofCode n)

/-- 004000 to 004777: JSR, with mode 0 apart, R83, R101. -/
def decodeJsr (n : Nat) : Instr :=
  match n / 8 % 8 with
  | 0 => .jsrIllegal (Reg.ofCode (n / 64)) (Reg.ofCode n)
  | _ => .jsr (Reg.ofCode (n / 64)) (Operand.ofCode n)

/-- 000000 to 007777, R92. -/
def decodeLow (n : Nat) : Instr :=
  match n / 256 % 16 with
  | 0 =>
    match n / 64 % 4 with
    | 0 => decodeOperate n
    | 1 => decodeJmp n
    | 2 => decodeReturn n
    | _ => .swab (Operand.ofCode n)
  | 1 => .br (BitVec.ofNat 8 n)
  | 2 => .bne (BitVec.ofNat 8 n)
  | 3 => .beq (BitVec.ofNat 8 n)
  | 4 => .bge (BitVec.ofNat 8 n)
  | 5 => .blt (BitVec.ofNat 8 n)
  | 6 => .bgt (BitVec.ofNat 8 n)
  | 7 => .ble (BitVec.ofNat 8 n)
  | 8 | 9 => decodeJsr n
  | 10 =>
    match n / 64 % 4 with
    | 0 => .clr (Operand.ofCode n) | 1 => .com (Operand.ofCode n)
    | 2 => .inc (Operand.ofCode n) | _ => .dec (Operand.ofCode n)
  | 11 =>
    match n / 64 % 4 with
    | 0 => .neg (Operand.ofCode n) | 1 => .adc (Operand.ofCode n)
    | 2 => .sbc (Operand.ofCode n) | _ => .tst (Operand.ofCode n)
  | 12 =>
    match n / 64 % 4 with
    | 0 => .ror (Operand.ofCode n) | 1 => .rol (Operand.ofCode n)
    | 2 => .asr (Operand.ofCode n) | _ => .asl (Operand.ofCode n)
  | 13 => .unlisted_006400_006777 (BitVec.ofNat 8 n)
  | _ => .unlisted_007000_007777 (BitVec.ofNat 9 n)

/-- 100000 to 107777, R92. -/
def decodeHigh (n : Nat) : Instr :=
  match n / 256 % 16 with
  | 0 => .bpl (BitVec.ofNat 8 n)
  | 1 => .bmi (BitVec.ofNat 8 n)
  | 2 => .bhi (BitVec.ofNat 8 n)
  | 3 => .blos (BitVec.ofNat 8 n)
  | 4 => .bvc (BitVec.ofNat 8 n)
  | 5 => .bvs (BitVec.ofNat 8 n)
  | 6 => .bcc (BitVec.ofNat 8 n)
  | 7 => .bcs (BitVec.ofNat 8 n)
  | 8 => .emt (BitVec.ofNat 8 n)
  | 9 => .trap (BitVec.ofNat 8 n)
  | 10 =>
    match n / 64 % 4 with
    | 0 => .clrb (Operand.ofCode n) | 1 => .comb (Operand.ofCode n)
    | 2 => .incb (Operand.ofCode n) | _ => .decb (Operand.ofCode n)
  | 11 =>
    match n / 64 % 4 with
    | 0 => .negb (Operand.ofCode n) | 1 => .adcb (Operand.ofCode n)
    | 2 => .sbcb (Operand.ofCode n) | _ => .tstb (Operand.ofCode n)
  | 12 =>
    match n / 64 % 4 with
    | 0 => .rorb (Operand.ofCode n) | 1 => .rolb (Operand.ofCode n)
    | 2 => .asrb (Operand.ofCode n) | _ => .aslb (Operand.ofCode n)
  | 13 => .unlisted_106400_106777 (BitVec.ofNat 8 n)
  | _ => .unlisted_107000_107777 (BitVec.ofNat 9 n)

/-- The partition of R92 by the word's top four bits. SS is `n / 64`, DD is `n` (each taken modulo 64). -/
def decodeCode (n : Nat) : Instr :=
  match n / 4096 % 16 with
  | 0o00 => decodeLow n
  | 0o01 => .mov (Operand.ofCode (n / 64)) (Operand.ofCode n)
  | 0o02 => .cmp (Operand.ofCode (n / 64)) (Operand.ofCode n)
  | 0o03 => .bit (Operand.ofCode (n / 64)) (Operand.ofCode n)
  | 0o04 => .bic (Operand.ofCode (n / 64)) (Operand.ofCode n)
  | 0o05 => .bis (Operand.ofCode (n / 64)) (Operand.ofCode n)
  | 0o06 => .add (Operand.ofCode (n / 64)) (Operand.ofCode n)
  | 0o07 => .unlisted_070000_077777 (BitVec.ofNat 12 n)
  | 0o10 => decodeHigh n
  | 0o11 => .movb (Operand.ofCode (n / 64)) (Operand.ofCode n)
  | 0o12 => .cmpb (Operand.ofCode (n / 64)) (Operand.ofCode n)
  | 0o13 => .bitb (Operand.ofCode (n / 64)) (Operand.ofCode n)
  | 0o14 => .bicb (Operand.ofCode (n / 64)) (Operand.ofCode n)
  | 0o15 => .bisb (Operand.ofCode (n / 64)) (Operand.ofCode n)
  | 0o16 => .sub (Operand.ofCode (n / 64)) (Operand.ofCode n)
  | _ => .unlisted_170000_177777 (BitVec.ofNat 12 n)

/-- The instruction of a first word. No word is refused: the rows cover 000000 to 177777, R92. -/
def decodeWord (w : Word) : Instr :=
  decodeCode w.toNat

/-- Why a list of bytes is no instruction. -/
inductive DecodeError where
  /-- Fewer than the two bytes of a word are left. -/
  | truncated
  deriving DecidableEq, Repr

/-- The word of two bytes in memory order, the low byte first, 20_memory.md R52. -/
def wordOfBytes (lo hi : Byte) : Word :=
  hi ++ lo

/-- The low byte of a word, bits 7 to 0. -/
def lowByte (w : Word) : Byte :=
  w.extractLsb' 0 8

/-- The high byte of a word, bits 15 to 8. -/
def highByte (w : Word) : Byte :=
  w.extractLsb' 8 8

/-- Decodes the instruction whose first word the bytes begin with, and gives the bytes after that word. -/
def decode : List Byte → Except DecodeError (Instr × List Byte)
  | lo :: hi :: rest => .ok (decodeWord (wordOfBytes lo hi), rest)
  | _ => .error .truncated

/-- The first `k` words of the number `w` as bytes in memory order, the word of bits 15 to 0 first. -/
def bytesOfWords (w : Nat) : Nat → List Byte
  | 0 => []
  | k + 1 => BitVec.ofNat 8 w :: BitVec.ofNat 8 (w / 256) :: bytesOfWords (w / 65536) k

/-- The words of an instruction whose bits are `w`, the bits above `nbits` being 0, up to the longest
instruction's three words (30_encoding.md R80), as they lie in memory. -/
def tableBytes (nbits w : Nat) : List Byte :=
  bytesOfWords (w % 2 ^ nbits) 3

/-- What the decoder reads from a row's word. -/
def decodeTableWord (nbits w : Nat) : Option Instr :=
  match decode (tableBytes nbits w) with
  | .ok (i, _) => some i
  | .error _ => none

/-! ## Length -/

/-- `extra(f)` of 30_encoding.md R91: whether an operand field is followed by a word of its own. -/
def Operand.extra (o : Operand) : Nat :=
  match o.mode, o.reg with
  | .indexed, _ | .indexDeferred, _ => 1
  | .autoInc, .r7 | .autoIncDeferred, .r7 => 1
  | _, _ => 0

/-- How many words an instruction occupies, 30_encoding.md R91. -/
def Instr.words : Instr → Nat
  | .mov s d | .movb s d | .cmp s d | .cmpb s d | .bit s d | .bitb s d | .bic s d | .bicb s d
  | .bis s d | .bisb s d | .add s d | .sub s d => 1 + s.extra + d.extra
  | .clr d | .clrb d | .com d | .comb d | .inc d | .incb d | .dec d | .decb d | .neg d | .negb d
  | .adc d | .adcb d | .sbc d | .sbcb d | .tst d | .tstb d | .ror d | .rorb d | .rol d | .rolb d
  | .asr d | .asrb d | .asl d | .aslb d | .jmp d | .swab d | .jsr _ d => 1 + d.extra
  | _ => 1

/-! ## Encoding -/

/-- The first word of an instruction as a number, from the codes of 30_encoding.md R82 to R89. -/
def Instr.code : Instr → Nat
  | .mov s d => 0o010000 + s.code * 64 + d.code
  | .movb s d => 0o110000 + s.code * 64 + d.code
  | .cmp s d => 0o020000 + s.code * 64 + d.code
  | .cmpb s d => 0o120000 + s.code * 64 + d.code
  | .bit s d => 0o030000 + s.code * 64 + d.code
  | .bitb s d => 0o130000 + s.code * 64 + d.code
  | .bic s d => 0o040000 + s.code * 64 + d.code
  | .bicb s d => 0o140000 + s.code * 64 + d.code
  | .bis s d => 0o050000 + s.code * 64 + d.code
  | .bisb s d => 0o150000 + s.code * 64 + d.code
  | .add s d => 0o060000 + s.code * 64 + d.code
  | .sub s d => 0o160000 + s.code * 64 + d.code
  | .jsrIllegal r d => 0o004000 + r.code * 64 + d.code
  | .jsr r d => 0o004000 + r.code * 64 + d.code
  | .rts r => 0o000200 + r.code
  | .halt => 0o000000
  | .wait => 0o000001
  | .rti => 0o000002
  | .bpt => 0o000003
  | .iot => 0o000004
  | .reset => 0o000005
  | .emt x => 0o104000 + x.toNat
  | .trap x => 0o104400 + x.toNat
  | .clr d => 0o005000 + d.code
  | .clrb d => 0o105000 + d.code
  | .com d => 0o005100 + d.code
  | .comb d => 0o105100 + d.code
  | .inc d => 0o005200 + d.code
  | .incb d => 0o105200 + d.code
  | .dec d => 0o005300 + d.code
  | .decb d => 0o105300 + d.code
  | .neg d => 0o005400 + d.code
  | .negb d => 0o105400 + d.code
  | .adc d => 0o005500 + d.code
  | .adcb d => 0o105500 + d.code
  | .sbc d => 0o005600 + d.code
  | .sbcb d => 0o105600 + d.code
  | .tst d => 0o005700 + d.code
  | .tstb d => 0o105700 + d.code
  | .ror d => 0o006000 + d.code
  | .rorb d => 0o106000 + d.code
  | .rol d => 0o006100 + d.code
  | .rolb d => 0o106100 + d.code
  | .asr d => 0o006200 + d.code
  | .asrb d => 0o106200 + d.code
  | .asl d => 0o006300 + d.code
  | .aslb d => 0o106300 + d.code
  | .jmpIllegal d => 0o000100 + d.code
  | .jmp d => 0o000100 + d.code
  | .swab d => 0o000300 + d.code
  | .cco s n z v c => 0o000240 + s.toNat * 16 + n.toNat * 8 + z.toNat * 4 + v.toNat * 2 + c.toNat
  | .nop => 0o000240
  | .clc => 0o000241
  | .clv => 0o000242
  | .clz => 0o000244
  | .cln => 0o000250
  | .ccc => 0o000257
  | .nop260 => 0o000260
  | .sec => 0o000261
  | .sev => 0o000262
  | .sez => 0o000264
  | .sen => 0o000270
  | .scc => 0o000277
  | .br x => 0o000400 + x.toNat
  | .bne x => 0o001000 + x.toNat
  | .beq x => 0o001400 + x.toNat
  | .bge x => 0o002000 + x.toNat
  | .blt x => 0o002400 + x.toNat
  | .bgt x => 0o003000 + x.toNat
  | .ble x => 0o003400 + x.toNat
  | .bpl x => 0o100000 + x.toNat
  | .bmi x => 0o100400 + x.toNat
  | .bhi x => 0o101000 + x.toNat
  | .blos x => 0o101400 + x.toNat
  | .bvc x => 0o102000 + x.toNat
  | .bvs x => 0o102400 + x.toNat
  | .bcc x => 0o103000 + x.toNat
  | .bcs x => 0o103400 + x.toNat
  | .bhis x => 0o103000 + x.toNat
  | .blo x => 0o103400 + x.toNat
  | .unlisted_000006_000007 x => 0o000006 + x.toNat
  | .unlisted_000010_000017 x => 0o000010 + x.toNat
  | .unlisted_000020_000037 x => 0o000020 + x.toNat
  | .unlisted_000040_000077 x => 0o000040 + x.toNat
  | .unlisted_000210_000217 x => 0o000210 + x.toNat
  | .unlisted_000220_000237 x => 0o000220 + x.toNat
  | .unlisted_006400_006777 x => 0o006400 + x.toNat
  | .unlisted_007000_007777 x => 0o007000 + x.toNat
  | .unlisted_070000_077777 x => 0o070000 + x.toNat
  | .unlisted_106400_106777 x => 0o106400 + x.toNat
  | .unlisted_107000_107777 x => 0o107000 + x.toNat
  | .unlisted_170000_177777 x => 0o170000 + x.toNat

/-- The first word of an instruction. -/
def encode (i : Instr) : Word :=
  BitVec.ofNat 16 i.code

/-- The constructor the decoder answers for an instruction's word: BHIS and BLO are second names of
BCC and BCS (30_encoding.md R106), every other well-formed term is its own. -/
def Instr.canonical : Instr → Instr
  | .bhis x => .bcc x
  | .blo x => .bcs x
  | i => i

end Sys2Proof
end

