-- ==== Sys2Proof/Machine/Memory.lean ====
section
/-! DEFINITION. Read-write memory as a list of (address, byte) pairs in one canonical form: addresses
strictly rising, no entry equal to what an unlisted address reads as. -/

namespace Sys2Proof.Machine

/-- The bytes that differ from `background`, by rising address. -/
abbrev Memory := List Host.Cell

/-- What a byte nothing has written reads as. DESIGN CHOICE (unsafe, log 2): zero, as 43_operate.md R171
says of memory never loaded and of cleared core; 10_state.md R40 leaves it unspecified. -/
def background : Byte := 0

/-- The byte at an address. -/
def readCell : Memory → Nat → Byte
  | [], _ => background
  | (a, b) :: m, k => if k = a then b else readCell m k

/-- Memory after one byte is written; writing `background` removes the entry. -/
def writeCell : Memory → Nat → Byte → Memory
  | [], k, v => if v = background then [] else [(k, v)]
  | (a, b) :: m, k, v =>
    if k < a then (if v = background then (a, b) :: m else (k, v) :: (a, b) :: m)
    else if k = a then (if v = background then m else (k, v) :: m)
    else (a, b) :: writeCell m k v

/-- The canonical form of a list whose addresses start at `lo` or above. -/
def wfFrom : Nat → Memory → Bool
  | _, [] => true
  | lo, (a, b) :: m => decide (lo ≤ a) && decide (b ≠ background) && wfFrom (a + 1) m

/-- The canonical form. -/
def Memory.wf (m : Memory) : Bool :=
  wfFrom 0 m

/-- The word at an even address: the low byte at the address, the high byte after it, 20_memory.md R52. -/
def readCells (m : Memory) (a : Nat) : Word :=
  wordOfBytes (readCell m a) (readCell m (a + 1))

/-- Memory after a word is written at an even address, 20_memory.md R57. -/
def writeCells (m : Memory) (a : Nat) (v : Word) : Memory :=
  writeCell (writeCell m a (lowByte v)) (a + 1) (highByte v)

/-- Memory after bytes are written one after the other from an address up. -/
def writeBytes (m : Memory) (a : Nat) : List Byte → Memory
  | [] => m
  | b :: bs => writeBytes (writeCell m a b) (a + 1) bs

end Sys2Proof.Machine
end

