-- ==== Sys2Proof/Config.lean ====
section
/-! DEFINITION. The model's parameters (00_scope.md R7, 10_state.md R41) as plain data, and the free
values: opaque constants of which nothing can be proved but their types. -/

namespace Sys2Proof

/-- The memory sizes of the card's MEM SIZE table, 70_reset_and_hazards.md R327 (`MEM_WORDS`). -/
inductive MemSize where
  | k4 | k8 | k12 | k16 | k20 | k24 | k28
  deriving DecidableEq, Repr

/-- The devices of the card's register table, 60_exceptions.md R299. -/
inductive Device where
  | keyboard
  | printer
  | reader
  | punch
  | lineClock
  | linePrinter
  /-- TC11/TU56 -/
  | dectape
  /-- RC11/RS64 -/
  | diskRC
  /-- RF11/RS11 -/
  | diskRF
  deriving DecidableEq, Repr

/-- `BOOT_DEVICE`: the content of the bootstrap's word *776, 70_reset_and_hazards.md R327. -/
inductive BootDevice where
  /-- TK, 0o177560 -/
  | keyboard
  /-- PR, 0o177550 -/
  | reader
  deriving DecidableEq, Repr

/-- The parameters a model takes, 00_scope.md R7. `devices` lists the devices present in their order
on the bus, the one nearest the processor first (60_exceptions.md R294; log 20). -/
structure Config where
  memSize : MemSize
  hasKe11a : Bool
  devices : List Device
  bootDevice : BootDevice
  entryPc : Word
  psReset : Word
  srcRegLate : Bool
  jmpAutoincPost : Bool
  tWritableByStore : Bool
  deriving DecidableEq, Repr

/-- The KE11-A's registers, 47_ke11a_multiply_divide.md R251. -/
structure KeRegs where
  ac : Word
  mq : Word
  sc : Byte
  sr : Byte
  deriving DecidableEq, Repr, Inhabited

/-- FREE VALUE (log 16): the switch setting a program finds at its `k`-th draw, 10_state.md R37. -/
opaque Config.switchDraw (k : Nat) : Word

/-- FREE VALUE (log 15): what a device register at an address answers at the `k`-th draw,
60_exceptions.md R300. -/
opaque Config.deviceDraw (k : Nat) (a : Word) : Word

/-- FREE VALUE (log 11): `ke_div` of 47_ke11a_multiply_divide.md R260, of the registers and the divisor. -/
opaque Config.keDiv (r : KeRegs) (v : Word) : KeRegs

/-- FREE VALUE (log 11): `ke_mul` of R260, of the registers and the multiplicand. -/
opaque Config.keMul (r : KeRegs) (v : Word) : KeRegs

/-- FREE VALUE (log 11): `ke_nor` of R260; the value written is not used (R257). -/
opaque Config.keNor (r : KeRegs) : KeRegs

/-- FREE VALUE (log 11): `ke_lsh` of R260, of the registers (SC loaded) and the value written. -/
opaque Config.keLsh (r : KeRegs) (v : Word) : KeRegs

/-- FREE VALUE (log 11): `ke_ash` of R260, of the registers (SC loaded) and the value written. -/
opaque Config.keAsh (r : KeRegs) (v : Word) : KeRegs

/-- FREE VALUE (log 42): what SR shows once AC, MQ or SC has been loaded, of the registers as loaded; the card
determines none of its bits (R260). -/
opaque Config.keStatus (r : KeRegs) : Byte

/-- FREE VALUE (log 12): what a byte write to one half of a KE11-A register other than SC and SR does;
the card gives word actions only (20_memory.md R63). -/
opaque Config.keByteWrite (r : KeRegs) (a : Word) (b : Byte) : KeRegs

/-- FREE VALUE (log 14): the high byte of a read of NOR, of which the card says only that it returns SC,
47_ke11a_multiply_divide.md R257. -/
opaque Config.keNorHigh (r : KeRegs) : Byte

/-- FREE VALUE (log 13): what the RESET instruction leaves in the KE11-A, 43_operate.md R177. -/
opaque Config.keReset (r : KeRegs) : KeRegs

end Sys2Proof
end

