-- ==== Sys2Proof/Machine/Platform.lean ====
section
/-! DEFINITION. The address space's fixed points (20_memory.md R53), the devices' addresses, vectors and
levels (60_exceptions.md R290, R299), and which agent answers at an address. -/

namespace Sys2Proof.Machine

/-! ## Fixed parameters -/

/-- `STACK_LIMIT`, 60_exceptions.md R283. -/
def stackLimit : Word := 0o400

/-- `ILLEGAL_JMP_VECTOR`, 00_scope.md R7. -/
def illegalJmpVector : Word := 0o4

/-- The vector of bus errors and of stack overflow, 60_exceptions.md R271. -/
def busErrorVector : Word := 0o4

/-- The vector of unlisted codes, 60_exceptions.md R271. -/
def reservedVector : Word := 0o10

/-- The vector of the breakpoint trap and of the trace trap, 60_exceptions.md R271. -/
def traceVector : Word := 0o14

/-- The vector of IOT, 60_exceptions.md R271. -/
def iotVector : Word := 0o20

/-- The vector of EMT, 60_exceptions.md R271. -/
def emtVector : Word := 0o30

/-- The vector of TRAP, 60_exceptions.md R271. -/
def trapVector : Word := 0o34

/-- The address of PS, 10_state.md R30. -/
def psAddress : Word := 0o177776

/-- The address of the switch register, 10_state.md R37. -/
def swrAddress : Word := 0o177570

/-- The KE11-A's first address, 47_ke11a_multiply_divide.md R250. -/
def keBase : Word := 0o177300

/-- The KE11-A's last address. -/
def keLast : Word := 0o177317

/-- `MEM_TOP`: the first byte address above memory, 00_scope.md R7. -/
def memSizeTop : MemSize → Nat
  | .k4 => 0o020000
  | .k8 => 0o040000
  | .k12 => 0o060000
  | .k16 => 0o100000
  | .k20 => 0o120000
  | .k24 => 0o140000
  | .k28 => 0o160000

/-- `MEM_TOP` of a configuration. -/
def memTop (c : Config) : Nat :=
  memSizeTop c.memSize

/-! ## Devices -/

/-- A device's register addresses, 60_exceptions.md R299. -/
def deviceRegisters : Device → List Word
  | .keyboard => [0o177560, 0o177562]
  | .printer => [0o177564, 0o177566]
  | .reader => [0o177550, 0o177552]
  | .punch => [0o177554, 0o177556]
  | .lineClock => [0o177546]
  | .linePrinter => [0o177514, 0o177516]
  | .dectape => [0o177340, 0o177342, 0o177344, 0o177346, 0o177350]
  | .diskRC =>
    [0o177440, 0o177442, 0o177444, 0o177446, 0o177450, 0o177452, 0o177454, 0o177456]
  | .diskRF =>
    [0o177460, 0o177462, 0o177464, 0o177466, 0o177470, 0o177472, 0o177474, 0o177476]

/-- A device's interrupt vector, 60_exceptions.md R290. -/
def deviceVector : Device → Word
  | .keyboard => 0o60
  | .printer => 0o64
  | .reader => 0o70
  | .punch => 0o74
  | .lineClock => 0o100
  | .linePrinter => 0o200
  | .diskRF => 0o204
  | .diskRC => 0o210
  | .dectape => 0o214

/-- A device's bus-request level, 60_exceptions.md R290. -/
def deviceLevel : Device → Nat
  | .keyboard => 4
  | .printer => 4
  | .reader => 4
  | .punch => 4
  | .lineClock => 6
  | .linePrinter => 4
  | .diskRF => 5
  | .diskRC => 5
  | .dectape => 5

/-- Whether a device moves data to and from memory by itself: those with Word Count and Current Address
registers, 20_memory.md R67. -/
def deviceHasDma : Device → Bool
  | .dectape | .diskRC | .diskRF => true
  | _ => false

/-- Every device, in the order a set of devices is listed in. -/
def allDevices : List Device :=
  [.keyboard, .printer, .reader, .punch, .lineClock, .linePrinter, .dectape, .diskRC, .diskRF]

/-- A set of devices with one more. -/
def addDevice (d : Device) (l : List Device) : List Device :=
  allDevices.filter fun x => x = d || l.contains x

/-- A set of devices without one. -/
def removeDevice (d : Device) (l : List Device) : List Device :=
  l.filter fun x => x ≠ d

/-- What a device does by itself between two accesses of the processor, 60_exceptions.md R300. -/
inductive BusEvent where
  /-- It asserts its request, R291. -/
  | request (d : Device)
  /-- It withdraws its request, R291. -/
  | withdraw (d : Device)
  /-- It writes a byte of memory, 20_memory.md R67. -/
  | storeByte (d : Device) (a : Word) (b : Byte)
  /-- It writes a word of memory, 20_memory.md R67. -/
  | storeWord (d : Device) (a : Word) (v : Word)
  deriving DecidableEq, Repr

/-! ## The address map -/

/-- Whether an address is that of an odd byte. -/
def isOdd (a : Word) : Bool :=
  a.getLsbD 0

/-- The even address of an address's word. -/
def evenAddress (a : Word) : Word :=
  a &&& 0o177776

/-- Whether a device owns an address: either byte of one of its registers. -/
def deviceOwns (a : Word) (d : Device) : Bool :=
  (deviceRegisters d).contains (evenAddress a)

/-- Who answers at an address, 20_memory.md R53, R56. -/
inductive Place where
  /-- Below `MEM_TOP`. -/
  | memory
  /-- PS and its unused high byte, 10_state.md R30, R31. -/
  | ps
  /-- The switch register, 10_state.md R37. -/
  | swr
  /-- The KE11-A, 47_ke11a_multiply_divide.md R250. -/
  | ke11a
  /-- A configured device, 60_exceptions.md R299. -/
  | device (d : Device)
  /-- Nobody: `Exists` is false, 20_memory.md R62. -/
  | nothing
  deriving DecidableEq, Repr

/-- Who answers at an address under a configuration. -/
def place (c : Config) (a : Word) : Place :=
  if a.toNat < memTop c then .memory
  else if evenAddress a = psAddress then .ps
  else if evenAddress a = swrAddress then .swr
  else if c.hasKe11a && decide (keBase.toNat ≤ a.toNat) && decide (a.toNat ≤ keLast.toNat) then .ke11a
  else
    match c.devices.find? (deviceOwns a) with
    | some d => .device d
    | none => .nothing

/-- `Exists(addr)` of 20_memory.md R56. -/
def existsAt (c : Config) (a : Word) : Bool :=
  place c a ≠ .nothing

end Sys2Proof.Machine
end

