-- ==== Sys2Proof/Machine/Registers.lean ====
section
/-! DEFINITION. The processor's own registers (10_state.md sections 1, 3 and 5) and how each is read and
written. -/

namespace Sys2Proof.Machine

/-- The eight general registers, 10_state.md R20: `r6` is SP (R23), `r7` is PC (R22). -/
structure Regs where
  r0 : Word
  r1 : Word
  r2 : Word
  r3 : Word
  r4 : Word
  r5 : Word
  r6 : Word
  r7 : Word
  deriving DecidableEq, Repr

/-- `R[i]`, 00_scope.md R12. -/
def Regs.get (g : Regs) : Reg → Word
  | .r0 => g.r0 | .r1 => g.r1 | .r2 => g.r2 | .r3 => g.r3
  | .r4 => g.r4 | .r5 => g.r5 | .r6 => g.r6 | .r7 => g.r7

/-- `R[i] <- v`, 00_scope.md R12. -/
def Regs.set (g : Regs) (i : Reg) (v : Word) : Regs :=
  match i with
  | .r0 => { g with r0 := v } | .r1 => { g with r1 := v }
  | .r2 => { g with r2 := v } | .r3 => { g with r3 := v }
  | .r4 => { g with r4 := v } | .r5 => { g with r5 := v }
  | .r6 => { g with r6 := v } | .r7 => { g with r7 := v }

/-- The processor status word's fields, 10_state.md R30. Bits 15:8 are no state: they read as 0 (R35). -/
structure Psw where
  pri : BitVec 3
  t : Bool
  n : Bool
  z : Bool
  v : Bool
  c : Bool
  deriving DecidableEq, Repr

/-- PS as the byte at 0o177776: `PRI ++ T ++ N ++ Z ++ V ++ C`, 10_state.md R30. -/
def Psw.toByte (p : Psw) : Byte :=
  p.pri ++ BitVec.ofBool p.t ++ BitVec.ofBool p.n ++ BitVec.ofBool p.z ++ BitVec.ofBool p.v
    ++ BitVec.ofBool p.c

/-- PS as a word, its high byte 0, 10_state.md R30, R35. -/
def Psw.toWord (p : Psw) : Word :=
  (0 : Byte) ++ p.toByte

/-- The fields in a byte, 20_memory.md R57. -/
def Psw.ofByte (b : Byte) : Psw where
  pri := b.extractLsb' 5 3
  t := b.getLsbD 4
  n := b.getLsbD 3
  z := b.getLsbD 2
  v := b.getLsbD 1
  c := b.getLsbD 0

/-- The fields in a word; bits 15:8 are discarded, 10_state.md R35. -/
def Psw.ofWord (w : Word) : Psw :=
  Psw.ofByte (lowByte w)

/-- PS after a store of `b` to 0o177776, 10_state.md R36: T changes only if `tWritable`
(`T_WRITABLE_BY_STORE`, 00_scope.md R7). -/
def Psw.store (p : Psw) (tWritable : Bool) (b : Byte) : Psw :=
  { Psw.ofByte b with t := if tWritable then b.getLsbD 4 else p.t }

/-- `run` of 10_state.md R39. -/
inductive RunState where
  | running
  /-- After WAIT, until an interrupt is granted. -/
  | waiting
  /-- After HALT or a double bus error. -/
  | halted
  deriving DecidableEq, Repr

end Sys2Proof.Machine
end

