-- ==== Sys2Proof/Machine/Start.lean ====
section
/-! DEFINITION. The values the model starts with where the spec leaves them open. -/

namespace Sys2Proof.Machine

/-- The address of the bootstrap loader's first word, *744 = `MEM_TOP - 0o34`, 00_scope.md R7,
70_reset_and_hazards.md R327. -/
def bootstrapStart (m : MemSize) : Word :=
  BitVec.ofNat 16 (memSizeTop m - 0o34)

/-- The configuration of the reset state. DESIGN CHOICE (unsafe, log 3 to 8): the largest memory, no
option and no device (00_scope.md R7, 60_exceptions.md R300), the bootstrap's start address, PS_RESET as
suggested, and the KA11's values of the two hazards' parameters. Statements about every state do not
rest on it. -/
def startConfig : Config where
  memSize := .k28
  hasKe11a := false
  devices := []
  bootDevice := .reader
  entryPc := bootstrapStart .k28
  psReset := 0
  srcRegLate := true
  jmpAutoincPost := true
  tWritableByStore := true

/-- R0 to R6 at the start. DESIGN CHOICE (unsafe, log 1): zero; 10_state.md R40 says unspecified. -/
def startRegister : Word := 0

/-- The KE11-A at the start. DESIGN CHOICE (unsafe, log 10): zero; 10_state.md R40 says unspecified. -/
def startKe : KeRegs where
  ac := 0
  mq := 0
  sc := 0
  sr := 0

end Sys2Proof.Machine
end

