-- ==== Sys2Proof/Machine/State.lean ====
section
/-! DEFINITION. The machine's state, its reasons to stop, and the state after reset. -/

namespace Sys2Proof.Machine

/-- Everything the spec gives the machine, 10_state.md, as plain data. -/
structure State where
  /-- R0 to R7, 10_state.md R20. -/
  regs : Regs
  /-- PS, 10_state.md R30. -/
  psw : Psw
  /-- Memory below `MEM_TOP`, 20_memory.md R53. -/
  mem : Memory
  /-- 10_state.md R39. -/
  run : RunState
  /-- Set at the start of an instruction when T = 1, consumed at its end, 10_state.md R39. -/
  tracePending : Bool
  /-- Set by a push below `STACK_LIMIT`, consumed at the end of the instruction, 10_state.md R39. -/
  stackOverflowPending : Bool
  /-- The devices that request an interrupt; `irq[L]` is its part at level L, 10_state.md R39. -/
  irq : List Device
  /-- The KE11-A's registers, 47_ke11a_multiply_divide.md R251; no program reaches them when absent. -/
  ke : KeRegs
  /-- The MODEL's own: how many draws have been made (log 17). -/
  draws : Nat
  /-- The MODEL's own: what the devices do before each coming access of the processor and each coming
  interrupt check, one entry for each (log 18). -/
  busEvents : List (List BusEvent)
  /-- The configuration, 10_state.md R41; no step changes it (log 3). -/
  cfg : Config
  deriving DecidableEq, Repr

/-- Why the machine stops. -/
inductive Fault where
  /-- `step` of a machine whose `run` is Halted raises it: no instruction is fetched and no interrupt
  granted until the console restarts the processor, which is outside the model (43_operate.md R171,
  92_eei_decisions.md D13). Safe: the model stops where the hardware stands still. -/
  | halted
  deriving DecidableEq, Repr

/-- Why the model gives no meaning. -/
inductive Refusal where
  /-- `exec` raises it for an instruction that has no meaning yet. Safe: nothing is claimed of it. No arm
  raises it in this model. -/
  | notModelled (mnemonic : String)
  deriving DecidableEq, Repr

/-- The state in which a configured machine starts, 10_state.md R40, 70_reset_and_hazards.md R321. -/
def State.start (c : Config) : State where
  regs :=
    { r0 := startRegister, r1 := startRegister, r2 := startRegister, r3 := startRegister,
      r4 := startRegister, r5 := startRegister, r6 := startRegister, r7 := c.entryPc }
  psw := Psw.ofWord c.psReset
  mem := []
  run := .running
  tracePending := false
  stackOverflowPending := false
  irq := []
  ke := startKe
  draws := 0
  busEvents := []
  cfg := c

/-- The machine right after reset: started with `startConfig`, nothing loaded. -/
def State.reset : State :=
  State.start startConfig

end Sys2Proof.Machine
end

