-- ==== Sys2Proof/Machine/Bus.lean ====
section
/-! DEFINITION. The bus: which accesses an address takes, a datum of memory, and the devices' own steps
(60_exceptions.md R300), one chance of them before every access of the processor (20_memory.md R67,
70_reset_and_hazards.md R341). -/

namespace Sys2Proof.Machine

/-! ## Accesses -/

/-- The datum of memory at an address. -/
def memDatum (w : Width) (m : Memory) (a : Word) : BitVec w.bits :=
  match w with
  | .word => readCells m a.toNat
  | .byte => readCell m a.toNat

/-- Memory after a datum is stored at an address. -/
def memStore (w : Width) (m : Memory) (a : Word) (v : BitVec w.bits) : Memory :=
  match w with
  | .word => writeCells m a.toNat v
  | .byte => writeCell m a.toNat v

/-- Whether an access of a width to an address raises `BusError`: a word at an odd address (20_memory.md
R60), or an address nothing answers (R62). -/
def accessFails (w : Width) (c : Config) (a : Word) : Bool :=
  (w = .word && isOdd a) || !existsAt c a

/-! ## The devices' steps -/

/-- Whether a device's store takes place: the device is configured and moves data by itself, 20_memory.md
R67, and the address is one of memory that takes the access; PS is the processor's alone, 10_state.md R31. -/
def dmaReaches (c : Config) (d : Device) (w : Width) (a : Word) : Bool :=
  c.devices.contains d && deviceHasDma d && !accessFails w c a && place c a = .memory

/-- Memory after one event; what a device that is not there would do is nothing. -/
def memoryAfter (c : Config) (m : Memory) : BusEvent → Memory
  | .storeByte d a b => if dmaReaches c d .byte a then memStore .byte m a b else m
  | .storeWord d a v => if dmaReaches c d .word a then memStore .word m a v else m
  | .request _ | .withdraw _ => m

/-- The requests after one event, 60_exceptions.md R291. -/
def requestsAfter (c : Config) (q : List Device) : BusEvent → List Device
  | .request d => if c.devices.contains d then addDevice d q else q
  | .withdraw d => removeDevice d q
  | .storeByte _ _ _ | .storeWord _ _ _ => q

/-- What the devices do now. -/
def State.eventsNow (s : State) : List BusEvent :=
  s.busEvents.headD []

/-- The devices' steps now, any number of them, 60_exceptions.md R300, 70_reset_and_hazards.md R341
(log 18). -/
def busStep (s : State) : State :=
  { s with
    mem := s.eventsNow.foldl (memoryAfter s.cfg) s.mem
    irq := s.eventsNow.foldl (requestsAfter s.cfg) s.irq
    busEvents := s.busEvents.tail }

end Sys2Proof.Machine
end

