-- ==== Sys2Proof/Machine/Ops.lean ====
section
/-! DEFINITION. The named operations over registers and memory (00_scope.md R12, 20_memory.md R56, R57),
and taking an exception and returning from one (60_exceptions.md R276, 43_operate.md R174). -/

namespace Sys2Proof.Machine

/-- The synchronous exceptions an instruction raises, 60_exceptions.md R271, with the information their
`raise` names (00_scope.md R12). -/
inductive Exception where
  | busError (a : Word)
  | illegalJump
  | reservedInstruction (w : Word)
  | breakpoint
  | ioTrap
  | emulatorTrap (w : Word)
  | trapInstr (w : Word)
  deriving DecidableEq, Repr

/-- An exception's vector, 60_exceptions.md R271. -/
def Exception.vector : Exception → Word
  | .busError _ => busErrorVector
  | .illegalJump => illegalJmpVector
  | .reservedInstruction _ => reservedVector
  | .breakpoint => traceVector
  | .ioTrap => iotVector
  | .emulatorTrap _ => emtVector
  | .trapInstr _ => trapVector

/-- A piece of an instruction: it answers a value and a state, or raises an exception in the state its
side effects have reached, which are not undone (60_exceptions.md R278). -/
abbrev Exec (α : Type) := EStateM Exception State α

/-! ## Registers -/

/-- `R[i]`. -/
def getReg (i : Reg) : Exec Word :=
  fun s => .ok (s.regs.get i) s

/-- The state with a register written. -/
def State.setReg (s : State) (i : Reg) (v : Word) : State :=
  { s with regs := s.regs.set i v }

/-- `R[i] <- v`. -/
def setReg (i : Reg) (v : Word) : Exec Unit :=
  fun s => .ok () (s.setReg i v)

/-- The state with PS replaced. -/
def State.setPsw (s : State) (p : Psw) : State :=
  { s with psw := p }

/-- Sets PS by a function of what it was: the condition codes of most instructions. -/
def modifyPsw (f : Psw → Psw) : Exec Unit :=
  fun s => .ok () (s.setPsw (f s.psw))

/-! ## Register words in the address space -/

/-- What a register answers of its word: all of it, or the byte at the address, the high byte if the
address is odd (20_memory.md R52). -/
def narrow (w : Width) (a : Word) (v : Word) : BitVec w.bits :=
  match w with
  | .word => v
  | .byte => if isOdd a then highByte v else lowByte v

/-- The word of a KE11-A register by its even address, the READ column of 47_ke11a_multiply_divide.md. A
read of NOR answers SC, with a free byte above it (log 14). -/
def keRead (k : KeRegs) (a : Word) : Word :=
  if a = 0o177302 then k.ac
  else if a = 0o177304 then k.mq
  else if a = 0o177310 then wordOfBytes k.sc k.sr
  else if a = 0o177312 then wordOfBytes k.sc (Config.keNorHigh k)
  else 0

/-- SR after a write: only bits 0, 6 and 7 load, 47_ke11a_multiply_divide.md R254. -/
def keLoadSr (old new : Byte) : Byte :=
  (new &&& 0o301) ||| (old &&& 0o076)

/-- The KE11-A's registers once AC, MQ or SC has been loaded: SR shows a free value, as R260 determines none of
its bits. DESIGN CHOICE (safe, log 42). -/
def keLoaded (k : KeRegs) : KeRegs :=
  { k with sr := Config.keStatus k }

/-- The KE11-A with SR's bits 0, 6 and 7 loaded, R254. -/
def keWithSr (k : KeRegs) (b : Byte) : KeRegs :=
  { k with sr := keLoadSr k.sr b }

/-- The KE11-A after a word write to an even address, the WRITE column, R252 to R259. -/
def keWriteWord (k : KeRegs) (a v : Word) : KeRegs :=
  if a = 0o177300 then Config.keDiv k v
  else if a = 0o177302 then keLoaded { k with ac := v }
  else if a = 0o177304 then keLoaded { k with mq := v, ac := if v.msb then 0o177777 else 0 }
  else if a = 0o177306 then Config.keMul k v
  else if a = 0o177310 then keWithSr (keLoaded { k with sc := lowByte v }) (highByte v)
  else if a = 0o177312 then Config.keNor k
  else if a = 0o177314 then Config.keLsh { k with sc := lowByte v } v
  else Config.keAsh { k with sc := lowByte v } v

/-- The KE11-A after a byte write: SC and SR are bytes with addresses of their own (R254); the other
registers' WRITE actions are stated for words only (log 12). -/
def keWriteByte (k : KeRegs) (a : Word) (b : Byte) : KeRegs :=
  if a = 0o177310 then keLoaded { k with sc := b }
  else if a = 0o177311 then keWithSr k b
  else Config.keByteWrite k a b

/-- The KE11-A after a write of either width. -/
def keWrite (w : Width) (k : KeRegs) (a : Word) (v : BitVec w.bits) : KeRegs :=
  match w with
  | .word => keWriteWord k a v
  | .byte => keWriteByte k a v

/-! ## MemRead and MemWrite -/

/-- PS after a store to one of its two byte addresses: the odd one is the unused high byte, which takes
nothing, 10_state.md R31, R36. -/
def pswStore (w : Width) (p : Psw) (tWritable : Bool) (a : Word) (v : BitVec w.bits) : Psw :=
  if isOdd a then p else p.store tWritable (v.setWidth 8)

/-- A read at this moment, 20_memory.md R56. -/
def readNow (w : Width) (a : Word) : Exec (BitVec w.bits) := fun s =>
  if accessFails w s.cfg a then .error (.busError a) s
  else
    match place s.cfg a with
    | .memory => .ok (memDatum w s.mem a) s
    | .ps => .ok (narrow w a s.psw.toWord) s
    | .swr => .ok (narrow w a (Config.switchDraw s.draws)) { s with draws := s.draws + 1 }
    | .ke11a => .ok (narrow w a (keRead s.ke (evenAddress a))) s
    | .device _ => .ok (narrow w a (Config.deviceDraw s.draws a)) { s with draws := s.draws + 1 }
    | .nothing => .error (.busError a) s

/-- `MemRead(addr, n)`, 20_memory.md R56: the devices may step first, so that their stores fall between any
two accesses of the processor (R67; log 19). -/
def memRead (w : Width) (a : Word) : Exec (BitVec w.bits) :=
  fun s => readNow w a (busStep s)

/-- The state after a store that some agent takes, 20_memory.md R57. The switch register ignores it
(10_state.md R37); what a device makes of it shows only in later draws and events (log 15). -/
def State.store (s : State) (w : Width) (a : Word) (v : BitVec w.bits) : State :=
  match place s.cfg a with
  | .memory => { s with mem := memStore w s.mem a v }
  | .ps => s.setPsw (pswStore w s.psw s.cfg.tWritableByStore a v)
  | .ke11a => { s with ke := keWrite w s.ke a v }
  | .swr | .device _ | .nothing => s

/-- A write at this moment, 20_memory.md R57. -/
def writeNow (w : Width) (a : Word) (v : BitVec w.bits) : Exec Unit := fun s =>
  if accessFails w s.cfg a then .error (.busError a) s else .ok () (s.store w a v)

/-- `MemWrite(addr, n, v)`, 20_memory.md R57: the devices may step first, also between an instruction's read
and its write (R67, R68; log 19). -/
def memWrite (w : Width) (a : Word) (v : BitVec w.bits) : Exec Unit :=
  fun s => writeNow w a v (busStep s)

/-! ## The instruction stream and the stack -/

/-- Reads the word at PC and moves PC past it, 10_state.md R26: the instruction word, and each index
word, immediate and absolute address. -/
def fetch : Exec Word := do
  let pc ← getReg .r7
  let w ← memRead .word pc
  setReg .r7 (pc + 2)
  pure w

/-- `StackCheck`, 60_exceptions.md R283, after SP has been decreased. -/
def stackCheck : Exec Unit :=
  fun s => .ok () (if s.regs.r6 < stackLimit then { s with stackOverflowPending := true } else s)

/-- `Push(v)`, 00_scope.md R12, 60_exceptions.md R283. -/
def push (v : Word) : Exec Unit := do
  let sp ← getReg .r6
  setReg .r6 (sp - 2)
  stackCheck
  memWrite .word (sp - 2) v

/-- `Pop()`, 00_scope.md R12. -/
def pop : Exec Word := do
  let sp ← getReg .r6
  let v ← memRead .word sp
  setReg .r6 (sp + 2)
  pure v

/-! ## Taking an exception, and returning from one -/

/-- The accesses of `TrapEntry(vec)`, 60_exceptions.md R276: PS and PC are pushed, then PC and PS are
loaded from the vector's two words. -/
def entryAccesses (vec : Word) : Exec Unit := fun s =>
  (do
    push s.psw.toWord
    push (s.regs.get .r7)
    let pc ← memRead .word vec
    setReg .r7 pc
    let ps ← memRead .word (vec + 2)
    modifyPsw fun _ => Psw.ofWord ps : Exec Unit) s

/-- `TrapEntry(vec)`. A bus error inside it halts the processor, the registers as that access found them,
60_exceptions.md R282. -/
def trapEntry (vec : Word) (s : State) : State :=
  match entryAccesses vec s with
  | .ok _ t => t
  | .error _ t => { t with run := .halted }

/-- A synchronous exception is taken: the pending trace is cancelled (60_exceptions.md R284, R285) and
its vector entered. -/
def takeException (e : Exception) (s : State) : State :=
  trapEntry e.vector { s with tracePending := false }

/-- RTI's accesses, 43_operate.md R174: PC, then PS, come off the stack. -/
def returnFromTrap : Exec Unit := do
  let pc ← pop
  setReg .r7 pc
  let ps ← pop
  modifyPsw fun _ => Psw.ofWord ps

/-- The outcome of an instruction's accesses: the state they end in, or, where they raise an exception,
the state after it is taken. -/
def perform (x : Exec Unit) (s : State) : Host.Outcome State Fault Refusal :=
  match x s with
  | .ok _ t => .next t
  | .error e t => .next (takeException e t)

/-- `raise X`, 00_scope.md R12. -/
def raise {α : Type} (e : Exception) : Exec α :=
  fun s => .error e s

end Sys2Proof.Machine
end

