-- ==== Sys2Proof/Machine/Flags.lean ====
section
/-! DEFINITION. What each instruction computes and how it sets the condition codes, for both widths `n`
at once (41_double_operand.md R141 to R153, 44_single_operand.md R191 to R217). -/

namespace Sys2Proof.Machine

/-- `SetNZ_n(r)`, 00_scope.md R12. -/
def setNZ {n : Nat} (r : BitVec n) (p : Psw) : Psw :=
  { p with n := r.msb, z := r == 0 }

/-- N and Z from the result, V cleared, C kept: MOV, BIT, BIC, BIS, card `**0-`. -/
def logicFlags {n : Nat} (r : BitVec n) (p : Psw) : Psw :=
  { setNZ r p with v := false }

/-- The flags of `a - b`, R143, R152: V is signed overflow, C the borrow. -/
def subFlags {n : Nat} (a b : BitVec n) (p : Psw) : Psw :=
  { setNZ (a - b) p with
    v := a.msb != b.msb && (a - b).msb == b.msb
    c := decide (a.toNat < b.toNat) }

/-- The flags of `s + d`, R151: V is signed overflow, C the carry out of the top bit. -/
def addFlags {n : Nat} (s d : BitVec n) (p : Psw) : Psw :=
  { setNZ (s + d) p with
    v := s.msb == d.msb && (s + d).msb != s.msb
    c := decide (2 ^ n ≤ s.toNat + d.toNat) }

/-- CLR's flags, card `0100`, R191. -/
def clrFlags (p : Psw) : Psw :=
  { p with n := false, z := true, v := false, c := false }

/-- COM's flags of its result, R193. -/
def comFlags {n : Nat} (r : BitVec n) (p : Psw) : Psw :=
  { setNZ r p with v := false, c := true }

/-- The greatest signed value, 0o077777 or 0o177. -/
def maxSigned (n : Nat) : BitVec n :=
  BitVec.ofNat n (2 ^ (n - 1) - 1)

/-- The least signed value, 0o100000 or 0o200. -/
def minSigned (n : Nat) : BitVec n :=
  BitVec.ofNat n (2 ^ (n - 1))

/-- INC's flags of its operand, R195. -/
def incFlags {n : Nat} (d : BitVec n) (p : Psw) : Psw :=
  { setNZ (d + 1) p with v := d == maxSigned n }

/-- DEC's flags of its operand, R197. -/
def decFlags {n : Nat} (d : BitVec n) (p : Psw) : Psw :=
  { setNZ (d - 1) p with v := d == minSigned n }

/-- NEG's flags of its operand, R199. -/
def negFlags {n : Nat} (d : BitVec n) (p : Psw) : Psw :=
  { setNZ (-d) p with v := -d == minSigned n, c := -d != 0 }

/-- C as a number of width `n`. -/
def carryIn (n : Nat) (p : Psw) : BitVec n :=
  if p.c then 1 else 0

/-- ADC's flags of its operand, R201. -/
def adcFlags {n : Nat} (d : BitVec n) (p : Psw) : Psw :=
  { setNZ (d + carryIn n p) p with
    v := d == maxSigned n && p.c
    c := d == BitVec.allOnes n && p.c }

/-- SBC's flags of its operand, R203. -/
def sbcFlags {n : Nat} (d : BitVec n) (p : Psw) : Psw :=
  { setNZ (d - carryIn n p) p with
    v := d == minSigned n && p.c
    c := d == 0 && p.c }

/-- TST's flags, card `**00`, R205. -/
def tstFlags {n : Nat} (d : BitVec n) (p : Psw) : Psw :=
  { setNZ d p with v := false, c := false }

/-- The flags of a one-place shift or rotate: C is the bit that fell out, V is N xor C with their new
values, R207 to R214. -/
def shiftFlags {n : Nat} (r : BitVec n) (out : Bool) (p : Psw) : Psw :=
  { setNZ r p with v := r.msb != out, c := out }

/-- ROR's result: C comes in at the top, R207. -/
def rorResult {n : Nat} (d : BitVec n) (c : Bool) : BitVec n :=
  (d >>> 1) ||| (if c then minSigned n else 0)

/-- ROL's result: C comes in at the bottom, R209. -/
def rolResult {n : Nat} (d : BitVec n) (c : Bool) : BitVec n :=
  (d <<< 1) ||| (if c then 1 else 0)

/-- ASR's result: the sign bit is kept and copied, R211. -/
def asrResult {n : Nat} (d : BitVec n) : BitVec n :=
  (d >>> 1) ||| (if d.msb then minSigned n else 0)

/-- ASL's result: 0 comes in at the bottom, R213. -/
def aslResult {n : Nat} (d : BitVec n) : BitVec n :=
  d <<< 1

/-- SWAB's result: the two bytes exchanged, R216. -/
def swabResult (d : Word) : Word :=
  lowByte d ++ highByte d

/-- SWAB's flags: N and Z of the result's low byte, V and C cleared, R216. -/
def swabFlags (d : Word) (p : Psw) : Psw :=
  tstFlags (lowByte (swabResult d)) p

/-- The condition codes after a condition-code operator, 45_condition_code_operators.md R221: each
selected flag becomes `s`. -/
def ccoFlags (s n z v c : Bool) (p : Psw) : Psw :=
  { p with
    n := if n then s else p.n
    z := if z then s else p.z
    v := if v then s else p.v
    c := if c then s else p.c }

end Sys2Proof.Machine
end

