-- ==== Sys2Proof/Machine/Operands.lean ====
section
/-! DEFINITION. Operand evaluation (40_addressing_modes.md R112 to R127) and the instruction templates over
it (41_double_operand.md R140, 44_single_operand.md R190). -/

namespace Sys2Proof.Machine

/-- What an operand field denotes, 00_scope.md R12. -/
inductive Loc where
  | reg (i : Reg)
  | mem (a : Word)
  deriving DecidableEq, Repr

/-- `Step(r, n)`: 1 for a byte through R0 to R5, otherwise 2, R113. -/
def stepSize (w : Width) (r : Reg) : Word :=
  match w, r with
  | .word, _ | _, .r6 | _, .r7 => 2
  | .byte, _ => 1

/-- Reads the register, then increases it: the address of modes 2 and 3, R116, R117. The register has been
stepped when the operand's access is made (R112, R116, R122), and stays stepped if that access fails (R112,
41_double_operand.md R140). DESIGN CHOICE (unsafe, log 41): so for PC too, whose extra word 10_state.md R26
writes as read before the step. -/
def autoIncrement (r : Reg) (d : Word) : Exec Word := do
  let a ← getReg r
  setReg r (a + d)
  pure a

/-- Decreases the register, checks the stack limit if it is SP, and answers its new value: the address
of modes 4 and 5, R118, R119, R123. -/
def autoDecrement (r : Reg) (d : Word) : Exec Word := do
  let a ← getReg r
  setReg r (a - d)
  if r = .r6 then stackCheck
  pure (a - d)

/-- The address of modes 6 and 7: the index word, fetched through PC, plus the register as it is after
that fetch, R120, R121. -/
def indexedAddress (r : Reg) : Exec Word := do
  let x ← fetch
  let b ← getReg r
  pure (x + b)

/-- `Loc(f, n)`, R112. -/
def loc (w : Width) (o : Operand) : Exec Loc :=
  match o.mode with
  | .register => pure (.reg o.reg)
  | .deferred => do
    let a ← getReg o.reg
    pure (.mem a)
  | .autoInc => do
    let a ← autoIncrement o.reg (stepSize w o.reg)
    pure (.mem a)
  | .autoIncDeferred => do
    let a ← autoIncrement o.reg 2
    let b ← memRead .word a
    pure (.mem b)
  | .autoDec => do
    let a ← autoDecrement o.reg (stepSize w o.reg)
    pure (.mem a)
  | .autoDecDeferred => do
    let a ← autoDecrement o.reg 2
    let b ← memRead .word a
    pure (.mem b)
  | .indexed => do
    let a ← indexedAddress o.reg
    pure (.mem a)
  | .indexDeferred => do
    let a ← indexedAddress o.reg
    let b ← memRead .word a
    pure (.mem b)

/-- A register's part of a width: all of it, or its low byte, R124. -/
def regPart (w : Width) (v : Word) : BitVec w.bits :=
  match w with
  | .word => v
  | .byte => lowByte v

/-- A register with its part of a width replaced; the high byte stays, R125. -/
def withRegPart (w : Width) (old : Word) (v : BitVec w.bits) : Word :=
  match w with
  | .word => v
  | .byte => highByte old ++ (v : Byte)

/-- `ReadLoc(loc, n)`, R124. -/
def readLoc (w : Width) : Loc → Exec (BitVec w.bits)
  | .reg i => do
    let v ← getReg i
    pure (regPart w v)
  | .mem a => memRead w a

/-- `WriteLoc(loc, n, v)`, R125. -/
def writeLoc (w : Width) (l : Loc) (v : BitVec w.bits) : Exec Unit :=
  match l with
  | .reg i => do
    let old ← getReg i
    setReg i (withRegPart w old v)
  | .mem a => memWrite w a v

/-- MOVB's write: a register takes the byte sign-extended, R125, 41_double_operand.md R142. -/
def writeLocMovb (l : Loc) (v : Byte) : Exec Unit :=
  match l with
  | .reg i => setReg i (v.signExtend 16)
  | .mem a => memWrite .byte a v

/-- Whether the source register is read after the destination is evaluated: `SRC_REG_LATE`, source mode 0,
destination mode not 0, R127. -/
def sourceIsLate (c : Config) (src dst : Operand) : Bool :=
  c.srcRegLate && src.mode = .register && dst.mode ≠ .register

/-- The source value and the destination's location, in the order of R126 and R127. -/
def sourceAndDest (w : Width) (src dst : Operand) : Exec (BitVec w.bits × Loc) := do
  let late := sourceIsLate (← get).cfg src dst
  if late then
    let d ← loc w dst
    let v ← readLoc w (.reg src.reg)
    pure (v, d)
  else
    let l ← loc w src
    let v ← readLoc w l
    let d ← loc w dst
    pure (v, d)

/-- CMP's and BIT's shape: source and destination are read, the flags set, nothing written. -/
def testBoth (w : Width) (src dst : Operand)
    (flags : BitVec w.bits → BitVec w.bits → Psw → Psw) : Exec Unit := do
  let (s, l) ← sourceAndDest w src dst
  let d ← readLoc w l
  modifyPsw (flags s d)

/-- The shape of BIC, BIS, ADD and SUB: the destination is read, the flags set, the result written. -/
def combine (w : Width) (src dst : Operand)
    (result : BitVec w.bits → BitVec w.bits → BitVec w.bits)
    (flags : BitVec w.bits → BitVec w.bits → Psw → Psw) : Exec Unit := do
  let (s, l) ← sourceAndDest w src dst
  let d ← readLoc w l
  modifyPsw (flags s d)
  writeLoc w l (result s d)

/-- The shape of the single-operand instructions that read and write: the result may use C as it was
before the instruction, R190. -/
def update (w : Width) (dst : Operand) (result : BitVec w.bits → Psw → BitVec w.bits)
    (flags : BitVec w.bits → Psw → Psw) : Exec Unit := do
  let l ← loc w dst
  let d ← readLoc w l
  let p := (← get).psw
  modifyPsw (flags d)
  writeLoc w l (result d p)

/-- TST's shape: the operand is read and the flags set. -/
def testOne (w : Width) (dst : Operand) (flags : BitVec w.bits → Psw → Psw) : Exec Unit := do
  let l ← loc w dst
  let d ← readLoc w l
  modifyPsw (flags d)

/-- CLR's shape: the operand is written without being read, 20_memory.md R59. -/
def clear (w : Width) (dst : Operand) : Exec Unit := do
  let l ← loc w dst
  modifyPsw clrFlags
  writeLoc w l 0

/-- The target of JMP and JSR: the address of the destination, or, for mode 2 with `JMP_AUTOINC_POST`, the
register after its increment; a register has no address, 42_subroutine.md R160, R162,
30_encoding.md R101. -/
def jumpTarget (dst : Operand) : Exec Word := do
  let l ← loc .word dst
  match l with
  | .reg _ => raise .illegalJump
  | .mem t =>
    if (← get).cfg.jmpAutoincPost && dst.mode = .autoInc then getReg dst.reg else pure t

/-- A branch's target: the updated PC plus twice the signed offset, 46_branches.md R232. -/
def branchTarget (pc : Word) (off : BitVec 8) : Word :=
  pc + 2 * off.signExtend 16

/-- A branch: PC moves if the condition of the flags holds, 46_branches.md R232. -/
def branchIf (cond : Psw → Bool) (off : BitVec 8) : Exec Unit := fun s =>
  .ok () (if cond s.psw then s.setReg .r7 (branchTarget (s.regs.get .r7) off) else s)

end Sys2Proof.Machine
end

