-- ==== Sys2Proof/Machine/Branches.lean ====
section
/-! DEFINITION. The branches, 46_branches.md. -/

namespace Sys2Proof.Machine

/-- BR, R233: branches always. -/
def execBr (off : BitVec 8) (s : State) : Host.Outcome State Fault Refusal :=
  perform (branchIf (fun _ => true) off) s

/-- BNE, R234: branches if Z = 0. -/
def execBne (off : BitVec 8) (s : State) : Host.Outcome State Fault Refusal :=
  perform (branchIf (fun p => !p.z) off) s

/-- BEQ, R235: branches if Z = 1. -/
def execBeq (off : BitVec 8) (s : State) : Host.Outcome State Fault Refusal :=
  perform (branchIf (fun p => p.z) off) s

/-- BGE, R236: branches if N xor V = 0. -/
def execBge (off : BitVec 8) (s : State) : Host.Outcome State Fault Refusal :=
  perform (branchIf (fun p => !(p.n ^^ p.v)) off) s

/-- BLT, R237: branches if N xor V = 1. -/
def execBlt (off : BitVec 8) (s : State) : Host.Outcome State Fault Refusal :=
  perform (branchIf (fun p => p.n ^^ p.v) off) s

/-- BGT, R238: branches if Z or (N xor V) = 0. -/
def execBgt (off : BitVec 8) (s : State) : Host.Outcome State Fault Refusal :=
  perform (branchIf (fun p => !(p.z || (p.n ^^ p.v))) off) s

/-- BLE, R239: branches if Z or (N xor V) = 1. -/
def execBle (off : BitVec 8) (s : State) : Host.Outcome State Fault Refusal :=
  perform (branchIf (fun p => p.z || (p.n ^^ p.v)) off) s

/-- BPL, R240: branches if N = 0. -/
def execBpl (off : BitVec 8) (s : State) : Host.Outcome State Fault Refusal :=
  perform (branchIf (fun p => !p.n) off) s

/-- BMI, R241: branches if N = 1. -/
def execBmi (off : BitVec 8) (s : State) : Host.Outcome State Fault Refusal :=
  perform (branchIf (fun p => p.n) off) s

/-- BHI, R242: branches if C or Z = 0. -/
def execBhi (off : BitVec 8) (s : State) : Host.Outcome State Fault Refusal :=
  perform (branchIf (fun p => !(p.c || p.z)) off) s

/-- BLOS, R243: branches if C or Z = 1. -/
def execBlos (off : BitVec 8) (s : State) : Host.Outcome State Fault Refusal :=
  perform (branchIf (fun p => p.c || p.z) off) s

/-- BVC, R244: branches if V = 0. -/
def execBvc (off : BitVec 8) (s : State) : Host.Outcome State Fault Refusal :=
  perform (branchIf (fun p => !p.v) off) s

/-- BVS, R245: branches if V = 1. -/
def execBvs (off : BitVec 8) (s : State) : Host.Outcome State Fault Refusal :=
  perform (branchIf (fun p => p.v) off) s

/-- BCC, R246: branches if C = 0. -/
def execBcc (off : BitVec 8) (s : State) : Host.Outcome State Fault Refusal :=
  perform (branchIf (fun p => !p.c) off) s

/-- BCS, R247: branches if C = 1. -/
def execBcs (off : BitVec 8) (s : State) : Host.Outcome State Fault Refusal :=
  perform (branchIf (fun p => p.c) off) s

/-- BHIS, R246: branches if C = 0; the other name of BCC. -/
def execBhis (off : BitVec 8) (s : State) : Host.Outcome State Fault Refusal :=
  perform (branchIf (fun p => !p.c) off) s

/-- BLO, R247: branches if C = 1; the other name of BCS. -/
def execBlo (off : BitVec 8) (s : State) : Host.Outcome State Fault Refusal :=
  perform (branchIf (fun p => p.c) off) s

end Sys2Proof.Machine
end

