-- ==== Sys2Proof/Machine/ConditionCodes.lean ====
section
/-! DEFINITION. The condition-code operators, 45_condition_code_operators.md. -/

namespace Sys2Proof.Machine

/-- A condition-code operator, R221: the selected flags become S. -/
def execCco (k n z v c : Bool) (s : State) : Host.Outcome State Fault Refusal :=
  perform (modifyPsw (ccoFlags k n z v c)) s

/-- No operation, code 000240, R219: no flag is selected. -/
def execNop (s : State) : Host.Outcome State Fault Refusal :=
  perform (modifyPsw (ccoFlags false false false false false)) s

/-- CLC, R222: C is cleared. -/
def execClc (s : State) : Host.Outcome State Fault Refusal :=
  perform (modifyPsw (ccoFlags false false false false true)) s

/-- CLV, R223: V is cleared. -/
def execClv (s : State) : Host.Outcome State Fault Refusal :=
  perform (modifyPsw (ccoFlags false false false true false)) s

/-- CLZ, R224: Z is cleared. -/
def execClz (s : State) : Host.Outcome State Fault Refusal :=
  perform (modifyPsw (ccoFlags false false true false false)) s

/-- CLN, R225: N is cleared. -/
def execCln (s : State) : Host.Outcome State Fault Refusal :=
  perform (modifyPsw (ccoFlags false true false false false)) s

/-- CCC, R221: all four are cleared. -/
def execCcc (s : State) : Host.Outcome State Fault Refusal :=
  perform (modifyPsw (ccoFlags false true true true true)) s

/-- No operation, code 000260, R219: no flag is selected. -/
def execNop260 (s : State) : Host.Outcome State Fault Refusal :=
  perform (modifyPsw (ccoFlags true false false false false)) s

/-- SEC, R226: C is set. -/
def execSec (s : State) : Host.Outcome State Fault Refusal :=
  perform (modifyPsw (ccoFlags true false false false true)) s

/-- SEV, R227: V is set. -/
def execSev (s : State) : Host.Outcome State Fault Refusal :=
  perform (modifyPsw (ccoFlags true false false true false)) s

/-- SEZ, R228: Z is set. -/
def execSez (s : State) : Host.Outcome State Fault Refusal :=
  perform (modifyPsw (ccoFlags true false true false false)) s

/-- SEN, R229: N is set. -/
def execSen (s : State) : Host.Outcome State Fault Refusal :=
  perform (modifyPsw (ccoFlags true true false false false)) s

/-- SCC, R221: all four are set. -/
def execScc (s : State) : Host.Outcome State Fault Refusal :=
  perform (modifyPsw (ccoFlags true true true true true)) s

end Sys2Proof.Machine
end

