-- ==== Sys2Proof/Machine/DoubleOperand.lean ====
section
/-! DEFINITION. The double operand group, 41_double_operand.md. -/

namespace Sys2Proof.Machine

/-- MOV, R141: the source word goes to the destination, which is not read. -/
def execMov (src dst : Operand) (s : State) : Host.Outcome State Fault Refusal :=
  perform (do
    let (v, l) ← sourceAndDest .word src dst
    modifyPsw (logicFlags v)
    writeLoc .word l v) s

/-- MOVB, R142: the source byte goes to the destination byte, or sign-extended to a register. -/
def execMovb (src dst : Operand) (s : State) : Host.Outcome State Fault Refusal :=
  perform (do
    let (v, l) ← sourceAndDest .byte src dst
    modifyPsw (logicFlags v)
    writeLocMovb l v) s

/-- CMP, R143: source minus destination sets the flags. -/
def execCmp (src dst : Operand) (s : State) : Host.Outcome State Fault Refusal :=
  perform (testBoth .word src dst subFlags) s

/-- CMPB, R144: as CMP on bytes. -/
def execCmpb (src dst : Operand) (s : State) : Host.Outcome State Fault Refusal :=
  perform (testBoth .byte src dst subFlags) s

/-- BIT, R145: source and destination set the flags. -/
def execBit (src dst : Operand) (s : State) : Host.Outcome State Fault Refusal :=
  perform (testBoth .word src dst fun a b => logicFlags (a &&& b)) s

/-- BITB, R146: as BIT on bytes. -/
def execBitb (src dst : Operand) (s : State) : Host.Outcome State Fault Refusal :=
  perform (testBoth .byte src dst fun a b => logicFlags (a &&& b)) s

/-- BIC, R147: the source's ones are cleared in the destination. -/
def execBic (src dst : Operand) (s : State) : Host.Outcome State Fault Refusal :=
  perform (combine .word src dst (fun a b => b &&& ~~~a)
    fun a b => logicFlags (b &&& ~~~a)) s

/-- BICB, R148: as BIC on bytes. -/
def execBicb (src dst : Operand) (s : State) : Host.Outcome State Fault Refusal :=
  perform (combine .byte src dst (fun a b => b &&& ~~~a)
    fun a b => logicFlags (b &&& ~~~a)) s

/-- BIS, R149: the source's ones are set in the destination. -/
def execBis (src dst : Operand) (s : State) : Host.Outcome State Fault Refusal :=
  perform (combine .word src dst (fun a b => b ||| a)
    fun a b => logicFlags (b ||| a)) s

/-- BISB, R150: as BIS on bytes. -/
def execBisb (src dst : Operand) (s : State) : Host.Outcome State Fault Refusal :=
  perform (combine .byte src dst (fun a b => b ||| a)
    fun a b => logicFlags (b ||| a)) s

/-- ADD, R151: source plus destination goes to the destination. -/
def execAdd (src dst : Operand) (s : State) : Host.Outcome State Fault Refusal :=
  perform (combine .word src dst (fun a b => a + b) addFlags) s

/-- SUB, R152: destination minus source goes to the destination. -/
def execSub (src dst : Operand) (s : State) : Host.Outcome State Fault Refusal :=
  perform (combine .word src dst (fun a b => b - a)
    fun a b => subFlags b a) s

end Sys2Proof.Machine
end

