-- ==== Sys2Proof/Machine/Jumps.lean ====
section
/-! DEFINITION. JMP (44_single_operand.md R215), JSR and RTS (42_subroutine.md). -/

namespace Sys2Proof.Machine

/-- JMP, 44_single_operand.md R215: PC takes the destination's address; the operand is not read. -/
def execJmp (dst : Operand) (s : State) : Host.Outcome State Fault Refusal :=
  perform (do
    let t ← jumpTarget dst
    setReg .r7 t) s

/-- JMP with destination mode 0, 30_encoding.md R101: the illegal-jump trap. -/
def execJmpIllegal (_d : Reg) (s : State) : Host.Outcome State Fault Refusal :=
  perform (raise .illegalJump) s

/-- JSR, R160: the link register is pushed and takes the return address; PC takes the destination's
address. -/
def execJsr (r : Reg) (dst : Operand) (s : State) : Host.Outcome State Fault Refusal :=
  perform (do
    let t ← jumpTarget dst
    let link ← getReg r
    push link
    let pc ← getReg .r7
    setReg r pc
    setReg .r7 t) s

/-- JSR with destination mode 0, 30_encoding.md R101: the illegal-jump trap, nothing pushed for the link. -/
def execJsrIllegal (_r _d : Reg) (s : State) : Host.Outcome State Fault Refusal :=
  perform (raise .illegalJump) s

/-- RTS, R161: PC takes the link register, which takes the popped word. -/
def execRts (r : Reg) (s : State) : Host.Outcome State Fault Refusal :=
  perform (do
    let link ← getReg r
    setReg .r7 link
    let v ← pop
    setReg r v) s

end Sys2Proof.Machine
end

