-- ==== Sys2Proof/Machine/Operate.lean ====
section
/-! DEFINITION. The operate group and the trap instructions, 43_operate.md. -/

namespace Sys2Proof.Machine

/-- Changes `run`. -/
def setRun (r : RunState) : Exec Unit :=
  fun s => .ok () { s with run := r }

/-- The state after every configured device has been reset, R177: requests are withdrawn, and the KE11-A,
if present, is left in a state the spec does not give (log 13). Processor and memory are unchanged. -/
def State.resetDevices (s : State) : State :=
  { s with irq := [], ke := if s.cfg.hasKe11a then Config.keReset s.ke else s.ke }

/-- HALT, R171: the processor stops, PC past the instruction. -/
def execHalt (s : State) : Host.Outcome State Fault Refusal :=
  perform (setRun .halted) s

/-- WAIT, R172: no instruction is fetched until an interrupt is granted. -/
def execWait (s : State) : Host.Outcome State Fault Refusal :=
  perform (setRun .waiting) s

/-- RTI, R174: PC and PS come off the stack. -/
def execRti (s : State) : Host.Outcome State Fault Refusal :=
  perform returnFromTrap s

/-- The breakpoint trap, R175: entry through 0o14. -/
def execBpt (s : State) : Host.Outcome State Fault Refusal :=
  perform (raise .breakpoint) s

/-- IOT, R176: entry through 0o20. -/
def execIot (s : State) : Host.Outcome State Fault Refusal :=
  perform (raise .ioTrap) s

/-- RESET, R177: every device is initialised. -/
def execReset (s : State) : Host.Outcome State Fault Refusal :=
  perform (fun s => .ok () s.resetDevices) s

/-- EMT, R178: entry through 0o30; the processor ignores the low byte. -/
def execEmt (code : BitVec 8) (s : State) : Host.Outcome State Fault Refusal :=
  perform (raise (.emulatorTrap (encode (.emt code)))) s

/-- TRAP, R179: entry through 0o34; the processor ignores the low byte. -/
def execTrap (code : BitVec 8) (s : State) : Host.Outcome State Fault Refusal :=
  perform (raise (.trapInstr (encode (.trap code)))) s

end Sys2Proof.Machine
end

