-- ==== Sys2Proof/Machine/Reserved.lean ====
section
/-! DEFINITION. The unlisted codes, 30_encoding.md R100. -/

namespace Sys2Proof.Machine

/-- Codes 000006 to 000007, R100, R280: the reserved-instruction trap through 0o10. -/
def execUnlisted_000006_000007 (x : BitVec 1) (s : State) : Host.Outcome State Fault Refusal :=
  perform (raise (.reservedInstruction (encode (.unlisted_000006_000007 x)))) s

/-- Codes 000010 to 000017, R100, R280: the reserved-instruction trap through 0o10. -/
def execUnlisted_000010_000017 (x : BitVec 3) (s : State) : Host.Outcome State Fault Refusal :=
  perform (raise (.reservedInstruction (encode (.unlisted_000010_000017 x)))) s

/-- Codes 000020 to 000037, R100, R280: the reserved-instruction trap through 0o10. -/
def execUnlisted_000020_000037 (x : BitVec 4) (s : State) : Host.Outcome State Fault Refusal :=
  perform (raise (.reservedInstruction (encode (.unlisted_000020_000037 x)))) s

/-- Codes 000040 to 000077, R100, R280: the reserved-instruction trap through 0o10. -/
def execUnlisted_000040_000077 (x : BitVec 5) (s : State) : Host.Outcome State Fault Refusal :=
  perform (raise (.reservedInstruction (encode (.unlisted_000040_000077 x)))) s

/-- Codes 000210 to 000217, R100, R280: the reserved-instruction trap through 0o10. -/
def execUnlisted_000210_000217 (x : BitVec 3) (s : State) : Host.Outcome State Fault Refusal :=
  perform (raise (.reservedInstruction (encode (.unlisted_000210_000217 x)))) s

/-- Codes 000220 to 000237, R100, R280: the reserved-instruction trap through 0o10. -/
def execUnlisted_000220_000237 (x : BitVec 4) (s : State) : Host.Outcome State Fault Refusal :=
  perform (raise (.reservedInstruction (encode (.unlisted_000220_000237 x)))) s

/-- Codes 006400 to 006777, R100, R280: the reserved-instruction trap through 0o10. -/
def execUnlisted_006400_006777 (x : BitVec 8) (s : State) : Host.Outcome State Fault Refusal :=
  perform (raise (.reservedInstruction (encode (.unlisted_006400_006777 x)))) s

/-- Codes 007000 to 007777, R100, R280: the reserved-instruction trap through 0o10. -/
def execUnlisted_007000_007777 (x : BitVec 9) (s : State) : Host.Outcome State Fault Refusal :=
  perform (raise (.reservedInstruction (encode (.unlisted_007000_007777 x)))) s

/-- Codes 070000 to 077777, R100, R280: the reserved-instruction trap through 0o10. -/
def execUnlisted_070000_077777 (x : BitVec 12) (s : State) : Host.Outcome State Fault Refusal :=
  perform (raise (.reservedInstruction (encode (.unlisted_070000_077777 x)))) s

/-- Codes 106400 to 106777, R100, R280: the reserved-instruction trap through 0o10. -/
def execUnlisted_106400_106777 (x : BitVec 8) (s : State) : Host.Outcome State Fault Refusal :=
  perform (raise (.reservedInstruction (encode (.unlisted_106400_106777 x)))) s

/-- Codes 107000 to 107777, R100, R280: the reserved-instruction trap through 0o10. -/
def execUnlisted_107000_107777 (x : BitVec 9) (s : State) : Host.Outcome State Fault Refusal :=
  perform (raise (.reservedInstruction (encode (.unlisted_107000_107777 x)))) s

/-- Codes 170000 to 177777, R100, R280: the reserved-instruction trap through 0o10. -/
def execUnlisted_170000_177777 (x : BitVec 12) (s : State) : Host.Outcome State Fault Refusal :=
  perform (raise (.reservedInstruction (encode (.unlisted_170000_177777 x)))) s

end Sys2Proof.Machine
end

