-- ==== Sys2Proof/Machine/SingleOperand.lean ====
section
/-! DEFINITION. The single operand group without JMP, 44_single_operand.md. -/

namespace Sys2Proof.Machine

/-- CLR, R191: zero goes to the destination, which is not read. -/
def execClr (dst : Operand) (s : State) : Host.Outcome State Fault Refusal :=
  perform (clear .word dst) s

/-- CLRB, R192: as CLR on a byte. -/
def execClrb (dst : Operand) (s : State) : Host.Outcome State Fault Refusal :=
  perform (clear .byte dst) s

/-- COM, R193: one's complement. -/
def execCom (dst : Operand) (s : State) : Host.Outcome State Fault Refusal :=
  perform (update .word dst (fun d _ => ~~~d) fun d => comFlags (~~~d)) s

/-- COMB, R194: as COM on a byte. -/
def execComb (dst : Operand) (s : State) : Host.Outcome State Fault Refusal :=
  perform (update .byte dst (fun d _ => ~~~d) fun d => comFlags (~~~d)) s

/-- INC, R195: one more. -/
def execInc (dst : Operand) (s : State) : Host.Outcome State Fault Refusal :=
  perform (update .word dst (fun d _ => d + 1) incFlags) s

/-- INCB, R196: as INC on a byte. -/
def execIncb (dst : Operand) (s : State) : Host.Outcome State Fault Refusal :=
  perform (update .byte dst (fun d _ => d + 1) incFlags) s

/-- DEC, R197: one less. -/
def execDec (dst : Operand) (s : State) : Host.Outcome State Fault Refusal :=
  perform (update .word dst (fun d _ => d - 1) decFlags) s

/-- DECB, R198: as DEC on a byte. -/
def execDecb (dst : Operand) (s : State) : Host.Outcome State Fault Refusal :=
  perform (update .byte dst (fun d _ => d - 1) decFlags) s

/-- NEG, R199: two's complement. -/
def execNeg (dst : Operand) (s : State) : Host.Outcome State Fault Refusal :=
  perform (update .word dst (fun d _ => -d) negFlags) s

/-- NEGB, R200: as NEG on a byte. -/
def execNegb (dst : Operand) (s : State) : Host.Outcome State Fault Refusal :=
  perform (update .byte dst (fun d _ => -d) negFlags) s

/-- ADC, R201: C is added. -/
def execAdc (dst : Operand) (s : State) : Host.Outcome State Fault Refusal :=
  perform (update .word dst (fun d p => d + carryIn (Width.bits .word) p) adcFlags) s

/-- ADCB, R202: as ADC on a byte. -/
def execAdcb (dst : Operand) (s : State) : Host.Outcome State Fault Refusal :=
  perform (update .byte dst (fun d p => d + carryIn (Width.bits .byte) p) adcFlags) s

/-- SBC, R203: C is subtracted. -/
def execSbc (dst : Operand) (s : State) : Host.Outcome State Fault Refusal :=
  perform (update .word dst (fun d p => d - carryIn (Width.bits .word) p) sbcFlags) s

/-- SBCB, R204: as SBC on a byte. -/
def execSbcb (dst : Operand) (s : State) : Host.Outcome State Fault Refusal :=
  perform (update .byte dst (fun d p => d - carryIn (Width.bits .byte) p) sbcFlags) s

/-- TST, R205: the operand sets the flags. -/
def execTst (dst : Operand) (s : State) : Host.Outcome State Fault Refusal :=
  perform (testOne .word dst tstFlags) s

/-- TSTB, R206: as TST on a byte. -/
def execTstb (dst : Operand) (s : State) : Host.Outcome State Fault Refusal :=
  perform (testOne .byte dst tstFlags) s

/-- ROR, R207: rotated right by one through C. -/
def execRor (dst : Operand) (s : State) : Host.Outcome State Fault Refusal :=
  perform (update .word dst (fun d p => rorResult d p.c)
    fun d p => shiftFlags (rorResult d p.c) (d.getLsbD 0) p) s

/-- RORB, R208: as ROR on a byte. -/
def execRorb (dst : Operand) (s : State) : Host.Outcome State Fault Refusal :=
  perform (update .byte dst (fun d p => rorResult d p.c)
    fun d p => shiftFlags (rorResult d p.c) (d.getLsbD 0) p) s

/-- ROL, R209: rotated left by one through C. -/
def execRol (dst : Operand) (s : State) : Host.Outcome State Fault Refusal :=
  perform (update .word dst (fun d p => rolResult d p.c)
    fun d p => shiftFlags (rolResult d p.c) d.msb p) s

/-- ROLB, R210: as ROL on a byte. -/
def execRolb (dst : Operand) (s : State) : Host.Outcome State Fault Refusal :=
  perform (update .byte dst (fun d p => rolResult d p.c)
    fun d p => shiftFlags (rolResult d p.c) d.msb p) s

/-- ASR, R211: shifted right by one, the sign kept. -/
def execAsr (dst : Operand) (s : State) : Host.Outcome State Fault Refusal :=
  perform (update .word dst (fun d _ => asrResult d)
    fun d p => shiftFlags (asrResult d) (d.getLsbD 0) p) s

/-- ASRB, R212: as ASR on a byte. -/
def execAsrb (dst : Operand) (s : State) : Host.Outcome State Fault Refusal :=
  perform (update .byte dst (fun d _ => asrResult d)
    fun d p => shiftFlags (asrResult d) (d.getLsbD 0) p) s

/-- ASL, R213: shifted left by one. -/
def execAsl (dst : Operand) (s : State) : Host.Outcome State Fault Refusal :=
  perform (update .word dst (fun d _ => aslResult d)
    fun d p => shiftFlags (aslResult d) d.msb p) s

/-- ASLB, R214: as ASL on a byte. -/
def execAslb (dst : Operand) (s : State) : Host.Outcome State Fault Refusal :=
  perform (update .byte dst (fun d _ => aslResult d)
    fun d p => shiftFlags (aslResult d) d.msb p) s

/-- SWAB, R216: the two bytes are exchanged. -/
def execSwab (dst : Operand) (s : State) : Host.Outcome State Fault Refusal :=
  perform (update .word dst (fun d _ => swabResult d) swabFlags) s

end Sys2Proof.Machine
end

