-- ==== Sys2Proof/Machine/Dispatch.lean ====
section
/-! DEFINITION. What each instruction does, one arm per row of opcode_table.json. The instruction word
has been fetched: PC is past it. -/

namespace Sys2Proof.Machine

def exec (i : Instr) (s : State) : Host.Outcome State Fault Refusal :=
  match i with
  | .mov src dst => Sys2Proof.Machine.execMov src dst s
  | .movb src dst => Sys2Proof.Machine.execMovb src dst s
  | .cmp src dst => Sys2Proof.Machine.execCmp src dst s
  | .cmpb src dst => Sys2Proof.Machine.execCmpb src dst s
  | .bit src dst => Sys2Proof.Machine.execBit src dst s
  | .bitb src dst => Sys2Proof.Machine.execBitb src dst s
  | .bic src dst => Sys2Proof.Machine.execBic src dst s
  | .bicb src dst => Sys2Proof.Machine.execBicb src dst s
  | .bis src dst => Sys2Proof.Machine.execBis src dst s
  | .bisb src dst => Sys2Proof.Machine.execBisb src dst s
  | .add src dst => Sys2Proof.Machine.execAdd src dst s
  | .sub src dst => Sys2Proof.Machine.execSub src dst s
  | .jsrIllegal r d => Sys2Proof.Machine.execJsrIllegal r d s
  | .jsr r dst => Sys2Proof.Machine.execJsr r dst s
  | .rts r => Sys2Proof.Machine.execRts r s
  | .halt => Sys2Proof.Machine.execHalt s
  | .wait => Sys2Proof.Machine.execWait s
  | .rti => Sys2Proof.Machine.execRti s
  | .bpt => Sys2Proof.Machine.execBpt s
  | .iot => Sys2Proof.Machine.execIot s
  | .reset => Sys2Proof.Machine.execReset s
  | .emt code => Sys2Proof.Machine.execEmt code s
  | .trap code => Sys2Proof.Machine.execTrap code s
  | .clr dst => Sys2Proof.Machine.execClr dst s
  | .clrb dst => Sys2Proof.Machine.execClrb dst s
  | .com dst => Sys2Proof.Machine.execCom dst s
  | .comb dst => Sys2Proof.Machine.execComb dst s
  | .inc dst => Sys2Proof.Machine.execInc dst s
  | .incb dst => Sys2Proof.Machine.execIncb dst s
  | .dec dst => Sys2Proof.Machine.execDec dst s
  | .decb dst => Sys2Proof.Machine.execDecb dst s
  | .neg dst => Sys2Proof.Machine.execNeg dst s
  | .negb dst => Sys2Proof.Machine.execNegb dst s
  | .adc dst => Sys2Proof.Machine.execAdc dst s
  | .adcb dst => Sys2Proof.Machine.execAdcb dst s
  | .sbc dst => Sys2Proof.Machine.execSbc dst s
  | .sbcb dst => Sys2Proof.Machine.execSbcb dst s
  | .tst dst => Sys2Proof.Machine.execTst dst s
  | .tstb dst => Sys2Proof.Machine.execTstb dst s
  | .ror dst => Sys2Proof.Machine.execRor dst s
  | .rorb dst => Sys2Proof.Machine.execRorb dst s
  | .rol dst => Sys2Proof.Machine.execRol dst s
  | .rolb dst => Sys2Proof.Machine.execRolb dst s
  | .asr dst => Sys2Proof.Machine.execAsr dst s
  | .asrb dst => Sys2Proof.Machine.execAsrb dst s
  | .asl dst => Sys2Proof.Machine.execAsl dst s
  | .aslb dst => Sys2Proof.Machine.execAslb dst s
  | .jmpIllegal d => Sys2Proof.Machine.execJmpIllegal d s
  | .jmp dst => Sys2Proof.Machine.execJmp dst s
  | .swab dst => Sys2Proof.Machine.execSwab dst s
  | .cco k n z v c => Sys2Proof.Machine.execCco k n z v c s
  | .nop => Sys2Proof.Machine.execNop s
  | .clc => Sys2Proof.Machine.execClc s
  | .clv => Sys2Proof.Machine.execClv s
  | .clz => Sys2Proof.Machine.execClz s
  | .cln => Sys2Proof.Machine.execCln s
  | .ccc => Sys2Proof.Machine.execCcc s
  | .nop260 => Sys2Proof.Machine.execNop260 s
  | .sec => Sys2Proof.Machine.execSec s
  | .sev => Sys2Proof.Machine.execSev s
  | .sez => Sys2Proof.Machine.execSez s
  | .sen => Sys2Proof.Machine.execSen s
  | .scc => Sys2Proof.Machine.execScc s
  | .br off => Sys2Proof.Machine.execBr off s
  | .bne off => Sys2Proof.Machine.execBne off s
  | .beq off => Sys2Proof.Machine.execBeq off s
  | .bge off => Sys2Proof.Machine.execBge off s
  | .blt off => Sys2Proof.Machine.execBlt off s
  | .bgt off => Sys2Proof.Machine.execBgt off s
  | .ble off => Sys2Proof.Machine.execBle off s
  | .bpl off => Sys2Proof.Machine.execBpl off s
  | .bmi off => Sys2Proof.Machine.execBmi off s
  | .bhi off => Sys2Proof.Machine.execBhi off s
  | .blos off => Sys2Proof.Machine.execBlos off s
  | .bvc off => Sys2Proof.Machine.execBvc off s
  | .bvs off => Sys2Proof.Machine.execBvs off s
  | .bcc off => Sys2Proof.Machine.execBcc off s
  | .bcs off => Sys2Proof.Machine.execBcs off s
  | .bhis off => Sys2Proof.Machine.execBhis off s
  | .blo off => Sys2Proof.Machine.execBlo off s
  | .unlisted_000006_000007 x => Sys2Proof.Machine.execUnlisted_000006_000007 x s
  | .unlisted_000010_000017 x => Sys2Proof.Machine.execUnlisted_000010_000017 x s
  | .unlisted_000020_000037 x => Sys2Proof.Machine.execUnlisted_000020_000037 x s
  | .unlisted_000040_000077 x => Sys2Proof.Machine.execUnlisted_000040_000077 x s
  | .unlisted_000210_000217 x => Sys2Proof.Machine.execUnlisted_000210_000217 x s
  | .unlisted_000220_000237 x => Sys2Proof.Machine.execUnlisted_000220_000237 x s
  | .unlisted_006400_006777 x => Sys2Proof.Machine.execUnlisted_006400_006777 x s
  | .unlisted_007000_007777 x => Sys2Proof.Machine.execUnlisted_007000_007777 x s
  | .unlisted_070000_077777 x => Sys2Proof.Machine.execUnlisted_070000_077777 x s
  | .unlisted_106400_106777 x => Sys2Proof.Machine.execUnlisted_106400_106777 x s
  | .unlisted_107000_107777 x => Sys2Proof.Machine.execUnlisted_107000_107777 x s
  | .unlisted_170000_177777 x => Sys2Proof.Machine.execUnlisted_170000_177777 x s

end Sys2Proof.Machine
end

