-- ==== Sys2Proof/Machine/Events.lean ====
section
/-! DEFINITION. What happens between two instructions: the pending events of an instruction's end
(60_exceptions.md R287) and the interrupt check (R292), which sees the devices' steps up to then. -/

namespace Sys2Proof.Machine

/-- Enters a vector with the processor running: a trace trap ends a WAIT at once (43_operate.md R172), and so
does a granted interrupt (60_exceptions.md R292). -/
def enter (vec : Word) (s : State) : State :=
  trapEntry vec { s with run := .running }

/-- Takes a pending `Trace`, R285, unless the processor has halted (43_operate.md R171). -/
def serveTrace (s : State) : State :=
  if s.tracePending && s.run ≠ .halted then enter traceVector { s with tracePending := false } else s

/-- Takes a pending `StackOverflow`, R283; the pushes of this entry do not set the flag again. -/
def serveOverflow (s : State) : State :=
  if s.stackOverflowPending && s.run ≠ .halted then
    { enter busErrorVector s with stackOverflowPending := false }
  else s

/-- The first configured device, in bus order, that requests at a level, R294 (log 20). -/
def requestAt (s : State) (level : Nat) : Option Device :=
  s.cfg.devices.find? fun d => s.irq.contains d && deviceLevel d == level

/-- The request of the highest level, R292. -/
def topRequest (s : State) : Option Device :=
  [7, 6, 5, 4].findSome? (requestAt s)

/-- The interrupt check, R292: the highest request is granted if its level is above PRI. -/
def grantInterrupt (s : State) : State :=
  match topRequest s with
  | some d =>
    if s.psw.pri.toNat < deviceLevel d ∧ s.run ≠ .halted then
      enter (deviceVector d) { s with irq := removeDevice d s.irq }
    else s
  | none => s

/-- The pending flags are consumed at an instruction's end, 10_state.md R39; a processor that has halted
makes no entry for them (log 22). -/
def consumePending (s : State) : State :=
  { s with tracePending := false, stackOverflowPending := false }

/-- The end of an instruction, R287: trace, stack overflow, then the devices' steps and one interrupt
check, and the overflow that the interrupt's own pushes may have caused (R283). -/
def endOfInstruction (s : State) : State :=
  consumePending (serveOverflow (grantInterrupt (busStep (serveOverflow (serveTrace s)))))

end Sys2Proof.Machine
end

