-- ==== Sys2Proof/Machine/Step.lean ====
section
/-! DEFINITION. One step of the machine, and the placing of an instruction where the step fetches it. -/

namespace Sys2Proof.Machine

/-- What follows an instruction's execution: a next state goes through the end of the instruction. -/
def finish : Host.Outcome State Fault Refusal → Host.Outcome State Fault Refusal
  | .next s => .next (endOfInstruction s)
  | .fault f => .fault f
  | .refused r => .refused r

/-- T is sampled at the start of an instruction, 60_exceptions.md R285. -/
def sampleTrace (s : State) : State :=
  { s with tracePending := s.psw.t }

/-- One instruction: fetch, execution, and the end of the instruction. A bus error of the fetch is taken
as any other (60_exceptions.md R279). -/
def runInstruction (s : State) : Host.Outcome State Fault Refusal :=
  match fetch (sampleTrace s) with
  | .ok w t => finish (exec (decodeWord w) t)
  | .error e t => finish (.next (takeException e t))

/-- One step. While Waiting nothing is fetched and only the devices and the interrupt check act
(43_operate.md R172); a halted processor is stuck (R171). -/
def step (s : State) : Host.Outcome State Fault Refusal :=
  match s.run with
  | .running => runInstruction s
  | .waiting => .next (endOfInstruction s)
  | .halted => .fault .halted

/-- The state with an instruction's words stored where PC points, the processor running and the devices still
before its fetch: the load of a program from outside (log 9). -/
def State.withFetchWord (s : State) (nbits w : Nat) : State :=
  { s with
    mem := writeBytes s.mem (s.regs.get .r7).toNat (tableBytes nbits w)
    run := .running
    busEvents := s.busEvents.modifyHead fun _ => [] }

end Sys2Proof.Machine
end

