-- ==== Sys2Proof/Machine/Console.lean ====
section
/-! DEFINITION. What the console operator does to a machine that is not running a program
(70_reset_and_hazards.md R321, R327), outside the step. -/

namespace Sys2Proof.Machine

/-- The general register at a console address, 0o177700 to 0o177707, 10_state.md R20, R21. -/
def consoleRegister (a : Word) : Option Reg :=
  if 0o177700 ≤ a.toNat ∧ a.toNat ≤ 0o177707 then some (Reg.ofCode a.toNat) else none

/-- The operator deposits a word: into a register by its console address, or into memory or PS at an even
address. DESIGN CHOICE (log 34): the spec states T_WRITABLE_BY_STORE of stores by instructions and is silent on
deposits; a deposit into PS always loads T. Elsewhere the model says nothing and changes nothing. -/
def consoleDeposit (s : State) (a v : Word) : State :=
  match consoleRegister a with
  | some r => s.setReg r v
  | none =>
    if isOdd a then s
    else
      match place s.cfg a with
      | .memory => { s with mem := writeCells s.mem a.toNat v }
      | .ps => s.setPsw (Psw.ofWord v)
      | _ => s

/-- The operator examines a register, a word of memory, or PS. -/
def consoleExamine (s : State) (a : Word) : Option Word :=
  match consoleRegister a with
  | some r => some (s.regs.get r)
  | none =>
    if isOdd a then none
    else
      match place s.cfg a with
      | .memory => some (readCells s.mem a.toNat)
      | .ps => some s.psw.toWord
      | _ => none

/-- The operator starts the machine, 70_reset_and_hazards.md R321: every device is reset, PC and PS take
their start values, nothing is pending. -/
def consoleStart (s : State) : State :=
  { s.resetDevices with
    regs := s.regs.set .r7 s.cfg.entryPc
    psw := Psw.ofWord s.cfg.psReset
    run := .running
    tracePending := false
    stackOverflowPending := false }

/-- The content of the bootstrap's last word, 00_scope.md R7. -/
def bootDeviceWord : BootDevice → Word
  | .keyboard => 0o177560
  | .reader => 0o177550

/-- The fourteen words of the bootstrap loader from *744 up, 70_reset_and_hazards.md R327; the word at
*766 is *400. -/
def bootstrapWords (c : Config) : List Word :=
  [0o016701, 0o000026, 0o012702, 0o000352, 0o005211, 0o105711, 0o100376, 0o116162, 0o000002,
    BitVec.ofNat 16 (memTop c - 0o400), 0o005267, 0o177756, 0o000765, bootDeviceWord c.bootDevice]

/-- Deposits words one after the other from an address up. -/
def depositWords (s : State) (a : Word) : List Word → State
  | [] => s
  | w :: ws => depositWords (consoleDeposit s a w) (a + 2) ws

/-- The operator toggles the bootstrap loader in. -/
def depositBootstrap (s : State) : State :=
  depositWords s (bootstrapStart s.cfg.memSize) (bootstrapWords s.cfg)

end Sys2Proof.Machine
end

