-- ==== Sys2Proof/Safety.lean ====
section
/-! DEFINITION. The terms claims are stated in: what counts as a sound state, which accesses succeed, what an
instruction may leave changed, and what an exception's entry leaves behind. -/

namespace Sys2Proof.Machine

/-! ## Sound states -/

/-- Every listed byte lies below `MEM_TOP`, 20_memory.md R53. -/
def memBelowTop (s : State) : Bool :=
  s.mem.all fun x => decide (x.1 < memTop s.cfg)

/-- The requesting devices are configured ones, each listed once, in the fixed order. -/
def irqSound (s : State) : Bool :=
  s.irq == allDevices.filter s.irq.contains && s.irq.all s.cfg.devices.contains

/-- What holds between two instructions: memory in canonical form and below `MEM_TOP`, requests of
configured devices only, nothing pending (10_state.md R39). -/
def State.sound (s : State) : Bool :=
  Memory.wf s.mem && memBelowTop s && irqSound s && !s.tracePending && !s.stackOverflowPending

/-! ## Accesses that succeed -/

/-- An access of a width to an address raises no `BusError`. -/
def accessible (w : Width) (s : State) (a : Word) : Prop :=
  accessFails w s.cfg a = false

/-- A location can be read and written: a register always, memory if the address is accessible. -/
def reachable (w : Width) (s : State) : Loc → Prop
  | .reg _ => True
  | .mem a => accessible w s a

/-- A word-aligned address whose word lies in memory. -/
def wordInMemory (s : State) (a : Word) : Prop :=
  isOdd a = false ∧ a.toNat < memTop s.cfg

/-- There is room on the stack, in memory, for the two words an entry pushes, and SP is even. -/
def stackReady (s : State) : Prop :=
  isOdd s.regs.r6 = false ∧ 4 ≤ s.regs.r6.toNat ∧ s.regs.r6.toNat ≤ memTop s.cfg

/-! ## What the devices leave alone -/

/-- The event stores to byte `k` of memory. -/
def BusEvent.storesTo (c : Config) (k : Nat) : BusEvent → Bool
  | .storeByte d a _ => dmaReaches c d .byte a && k == a.toNat
  | .storeWord d a _ => dmaReaches c d .word a && (k == a.toNat || k == a.toNat + 1)
  | .request _ | .withdraw _ => false

/-- The event changes no request. -/
def BusEvent.isStore : BusEvent → Bool
  | .storeByte _ _ _ | .storeWord _ _ _ => true
  | .request _ | .withdraw _ => false

/-- No coming step of a device stores to byte `k` of memory: so of every byte where no device with DMA is
configured, or none has steps to come. -/
def undisturbed (s : State) (k : Nat) : Prop :=
  ∀ slot ∈ s.busEvents, ∀ e ∈ slot, e.storesTo s.cfg k = false

/-- No coming step of a device stores to the word at `a`. -/
def wordUndisturbed (s : State) (a : Word) : Prop :=
  undisturbed s a.toNat ∧ undisturbed s (a.toNat + 1)

/-- No coming step of a device changes a request. -/
def requestsUndisturbed (s : State) : Prop :=
  ∀ slot ∈ s.busEvents, ∀ e ∈ slot, e.isStore = true

/-! ## Frames -/

/-- The number of bytes of a width. -/
def widthBytes : Width → Nat
  | .byte => 1
  | .word => 2

/-- Every byte of memory reads as before, but for the devices' own stores. -/
def sameMemory (s t : State) : Prop :=
  ∀ k, undisturbed s k → readCell t.mem k = readCell s.mem k

/-- Every byte of memory reads as before but those of a datum of width `w` at `a`, and but for the devices'
own stores. -/
def sameMemoryOutside (w : Width) (a : Word) (s t : State) : Prop :=
  ∀ k, (k < a.toNat ∨ a.toNat + widthBytes w ≤ k) → undisturbed s k →
    readCell t.mem k = readCell s.mem k

/-- The registers not listed are unchanged. -/
def sameRegsBut (rs : List Reg) (s t : State) : Prop :=
  ∀ r, r ∉ rs → t.regs.get r = s.regs.get r

/-- The priority and the trace bit are unchanged. -/
def samePriorityAndTrace (s t : State) : Prop :=
  t.psw.pri = s.psw.pri ∧ t.psw.t = s.psw.t

/-- The devices have made the first of their coming steps, no others, and the requests have changed by
those alone. -/
def devicesOnly (s t : State) : Prop :=
  t.busEvents <:+ s.busEvents ∧ (requestsUndisturbed s → t.irq = s.irq)

/-- What no operand access changes: the run state, the trace flag, the configuration; and the requests but
for the devices' own steps. -/
def sameControl (s t : State) : Prop :=
  t.run = s.run ∧ t.tracePending = s.tracePending ∧ t.cfg = s.cfg ∧ devicesOnly s t

/-- The registers an operand's evaluation may change: its own in modes 2 to 5, and PC where an extra word
is fetched (40_addressing_modes.md R112). -/
def operandRegs (o : Operand) : List Reg :=
  match o.mode with
  | .register | .deferred => []
  | .autoInc | .autoIncDeferred | .autoDec | .autoDecDeferred => [o.reg]
  | .indexed | .indexDeferred => [.r7]

/-- The register that is an operand, in mode 0. -/
def destRegs (o : Operand) : List Reg :=
  match o.mode with
  | .register => [o.reg]
  | _ => []

/-- An operand that pushes: mode 4 or 5 through SP, 40_addressing_modes.md R123. -/
def isPush (o : Operand) : Bool :=
  o.reg = .r6 && (o.mode = .autoDec || o.mode = .autoDecDeferred)

/-- What an instruction that evaluates `ops` and writes nothing leaves as it was. -/
def testFrame (ops : List Operand) (s t : State) : Prop :=
  sameRegsBut (ops.flatMap operandRegs) s t ∧ sameMemory s t ∧ samePriorityAndTrace s t ∧
    sameControl s t ∧ t.ke = s.ke ∧
    ((ops.all fun o => !isPush o) = true → t.stackOverflowPending = s.stackOverflowPending)

/-- What an instruction that evaluates `ops` and writes a datum of width `w` to the location `l`, that of
`dst`, leaves as it was: only the written bytes of memory, PS's priority and trace bit if PS was written,
and the KE11-A if it was, may differ beside the registers named. -/
def writeFrame (w : Width) (ops : List Operand) (dst : Operand) (l : Loc) (s t : State) : Prop :=
  sameRegsBut (ops.flatMap operandRegs ++ destRegs dst) s t ∧ sameControl s t ∧
    ((ops.all fun o => !isPush o) = true → t.stackOverflowPending = s.stackOverflowPending) ∧
    match l with
    | .reg _ => sameMemory s t ∧ samePriorityAndTrace s t ∧ t.ke = s.ke
    | .mem a =>
      (place s.cfg a = .memory → sameMemoryOutside w a s t) ∧
      (place s.cfg a ≠ .memory → sameMemory s t) ∧
      (place s.cfg a ≠ .ps → samePriorityAndTrace s t) ∧
      (place s.cfg a ≠ .ke11a → t.ke = s.ke)

/-! ## Shapes of instructions -/

/-- The width and the operand of the single-operand instructions that write it. -/
def singleWriting : Instr → Option (Width × Operand)
  | .clr d | .com d | .inc d | .dec d | .neg d | .adc d | .sbc d | .ror d | .rol d | .asr d | .asl d
  | .swab d => some (.word, d)
  | .clrb d | .comb d | .incb d | .decb d | .negb d | .adcb d | .sbcb d | .rorb d | .rolb d | .asrb d
  | .aslb d => some (.byte, d)
  | _ => none

/-- The width and the operands of the double-operand instructions that write the destination. -/
def doubleWriting : Instr → Option (Width × Operand × Operand)
  | .mov s d | .bic s d | .bis s d | .add s d | .sub s d => some (.word, s, d)
  | .movb s d | .bicb s d | .bisb s d => some (.byte, s, d)
  | _ => none

/-- The width and the operands of the instructions that compare or test two operands. -/
def doubleTesting : Instr → Option (Width × Operand × Operand)
  | .cmp s d | .bit s d => some (.word, s, d)
  | .cmpb s d | .bitb s d => some (.byte, s, d)
  | _ => none

/-- The width and the operand of TST and TSTB. -/
def singleTesting : Instr → Option (Width × Operand)
  | .tst d => some (.word, d)
  | .tstb d => some (.byte, d)
  | _ => none

/-- N and Z of a result as `SetNZ` sets them, 00_scope.md R12, and V and C as given. -/
def flagged {n : Nat} (r : BitVec n) (v c : Bool) (p : Psw) : Psw :=
  { p with n := r.getLsbD (n - 1), z := decide (r.toNat = 0), v := v, c := c }

/-- What follows the read of a word at `a`: with the word and the state after the read, `f`; if the read
raises, that exception, and nothing undone. -/
def throughWord (a : Word) (s : State) (f : Word → State → EStateM.Result Exception State Loc) :
    EStateM.Result Exception State Loc :=
  match memRead .word a s with
  | .ok b t => f b t
  | .error e t => .error e t

/-- Instruction `i` evaluates `dst` and reads it, sets PS to `flags` of the datum and PS, then writes
`result` of the datum and PS to the same place: its next state is the one that write ends in. -/
def readsSetsWrites (w : Width) (dst : Operand) (i : Instr)
    (result : BitVec w.bits → Psw → BitVec w.bits) (flags : BitVec w.bits → Psw → Psw) : Prop :=
  ∀ s l s1 d s2, loc w dst s = .ok l s1 → readLoc w l s1 = .ok d s2 →
    ∃ t, writeLoc w l (result d s2.psw) (s2.setPsw (flags d s2.psw)) = .ok () t ∧ exec i s = .next t

/-- Instruction `i` evaluates `dst`, reads it and sets PS; it writes nothing. -/
def readsSets (w : Width) (dst : Operand) (i : Instr) (flags : BitVec w.bits → Psw → Psw) : Prop :=
  ∀ s l s1 d s2, loc w dst s = .ok l s1 → readLoc w l s1 = .ok d s2 →
    exec i s = .next (s2.setPsw (flags d s2.psw))

/-- Instruction `i` evaluates `dst`, sets PS, then writes `v` without having read the operand. -/
def setsWrites (w : Width) (dst : Operand) (i : Instr) (v : BitVec w.bits) (flags : Psw → Psw) :
    Prop :=
  ∀ s l s1, loc w dst s = .ok l s1 → reachable w s1 l →
    ∃ t, writeLoc w l v (s1.setPsw (flags s1.psw)) = .ok () t ∧ exec i s = .next t

/-- Instruction `i` evaluates source and destination, reads both, sets PS, then writes the destination. -/
def combinesOperands (w : Width) (src dst : Operand) (i : Instr)
    (result : BitVec w.bits → BitVec w.bits → BitVec w.bits)
    (flags : BitVec w.bits → BitVec w.bits → Psw → Psw) : Prop :=
  ∀ s v l s1 d s2, sourceAndDest w src dst s = .ok (v, l) s1 → readLoc w l s1 = .ok d s2 →
    ∃ t, writeLoc w l (result v d) (s2.setPsw (flags v d s2.psw)) = .ok () t ∧ exec i s = .next t

/-- Instruction `i` evaluates source and destination, reads both and sets PS; it writes nothing. -/
def comparesOperands (w : Width) (src dst : Operand) (i : Instr)
    (flags : BitVec w.bits → BitVec w.bits → Psw → Psw) : Prop :=
  ∀ s v l s1 d s2, sourceAndDest w src dst s = .ok (v, l) s1 → readLoc w l s1 = .ok d s2 →
    exec i s = .next (s2.setPsw (flags v d s2.psw))

/-- Where a branch goes, 46_branches.md R232: PC, already past it, plus twice the signed offset. -/
def jumpBy (s : State) (off : BitVec 8) : State :=
  s.setReg .r7 (BitVec.ofInt 16 (s.regs.r7.toNat + 2 * off.toInt))

/-- Instruction `i` branches by `off` when the condition holds of PS, and otherwise changes nothing. -/
def branchesWhen (i : Instr) (off : BitVec 8) (cond : Psw → Bool) : Prop :=
  ∀ s, exec i s = .next (if cond s.psw then jumpBy s off else s)

/-- The rows of the condition-code operators: the general one and the twelve named codes. -/
def isConditionCodeOperator : Instr → Bool
  | .cco _ _ _ _ _ | .nop | .clc | .clv | .clz | .cln | .ccc | .nop260 | .sec | .sev | .sez | .sen
  | .scc => true
  | _ => false

/-- The rows of unlisted codes, 30_encoding.md R100. -/
def isUnlisted : Instr → Bool
  | .unlisted_000006_000007 _ | .unlisted_000010_000017 _ | .unlisted_000020_000037 _
  | .unlisted_000040_000077 _ | .unlisted_000210_000217 _ | .unlisted_000220_000237 _
  | .unlisted_006400_006777 _ | .unlisted_007000_007777 _ | .unlisted_070000_077777 _
  | .unlisted_106400_106777 _ | .unlisted_107000_107777 _ | .unlisted_170000_177777 _ => true
  | _ => false

/-- The codes 30_encoding.md R100 names. -/
def unlistedCode (w : Word) : Bool :=
  let n := w.toNat
  decide (0o000006 ≤ n ∧ n ≤ 0o000077) || decide (0o000210 ≤ n ∧ n ≤ 0o000237) ||
    decide (0o006400 ≤ n ∧ n ≤ 0o007777) || decide (0o070000 ≤ n ∧ n ≤ 0o077777) ||
    decide (0o106400 ≤ n ∧ n ≤ 0o107777) || decide (0o170000 ≤ n ∧ n ≤ 0o177777)

/-! ## Entries -/

/-- State `t` is state `s` after an entry through `vec` (60_exceptions.md R276): the old PC lies at the
new SP and the old PS above it, PC and PS are the vector's words, and all else but the pending flags and
those two words of memory is as it was. What is said of a byte of memory is said where no device stores to
it during the entry. -/
def enteredThrough (vec : Word) (s t : State) : Prop :=
  t.regs.r6 = s.regs.r6 - 4 ∧
  (wordUndisturbed s (s.regs.r6 - 4) → readCells t.mem (s.regs.r6 - 4).toNat = s.regs.r7) ∧
  (wordUndisturbed s (s.regs.r6 - 2) → readCells t.mem (s.regs.r6 - 2).toNat = s.psw.toWord) ∧
  (wordUndisturbed s vec → t.regs.r7 = readCells t.mem vec.toNat) ∧
  (wordUndisturbed s (vec + 2) → t.psw = Psw.ofWord (readCells t.mem (vec + 2).toNat)) ∧
  sameRegsBut [.r6, .r7] s t ∧
  (∀ k, (k < (s.regs.r6 - 4).toNat ∨ s.regs.r6.toNat ≤ k) → undisturbed s k →
    readCell t.mem k = readCell s.mem k) ∧
  t.run = s.run ∧ t.ke = s.ke ∧ t.draws = s.draws ∧ t.cfg = s.cfg ∧ devicesOnly s t

/-- Instruction `i` takes an exception through `vec`, and that is all it does: from every state with
memory in canonical form and room on the stack it enters the vector, the pending trace cancelled
(60_exceptions.md R284, R285), a stack overflow noted if SP falls below the limit (R283). -/
def trapsThrough (vec : Word) (i : Instr) : Prop :=
  ∀ s, Memory.wf s.mem = true → stackReady s →
    ∃ t, exec i s = .next t ∧ enteredThrough vec s t ∧ t.tracePending = false ∧
      t.stackOverflowPending = (s.stackOverflowPending || decide (s.regs.r6.toNat < 0o404))

/-- Nothing awaits the end of the instruction but what the processor itself has pending: no device makes a
step any more and none requests. -/
def busIdle (s : State) : Prop :=
  s.busEvents = [] ∧ s.irq = []

end Sys2Proof.Machine
end

