-- ==== Sys2Proof/Certificates/Slice0/Obligations.lean ====
section
/-! DEFINITION. The statements for the provers, from the numbered rules of spec/. -/

open Sys2Proof Sys2Proof.Machine

/-! ## Encoding -/

/-- Decoding an encoded well-formed instruction gives it back, whatever bytes follow its first word; BHIS
and BLO, second names of BCC and BCS (30_encoding.md R106), come back as those (log 25). -/
def Obligations.DecodeOfEncode : Prop :=
  ∀ (i : Instr) (rest : List Byte), i.wellFormed = true →
    decodeWord (encode i) = i.canonical ∧
    decode (lowByte (encode i) :: highByte (encode i) :: rest) = .ok (i.canonical, rest)

/-- Every word is an instruction's: decoding it gives a well-formed instruction whose code is that word
(30_encoding.md R92, R93), and no word is refused. -/
def Obligations.EncodeOfDecode : Prop :=
  ∀ w : Word, (decodeWord w).wellFormed = true ∧ encode (decodeWord w) = w

/-- Words written out from the spec's encodings, one of each format, decode to their instructions: the
bootstrap's words (70_reset_and_hazards.md R328) and examples of the instructions' rules. -/
def Obligations.SampleWordsDecode : Prop :=
  decodeWord 0b0001110111000001 = .mov ⟨.indexed, .r7⟩ ⟨.register, .r1⟩ ∧
  decodeWord 0b0001010111000010 = .mov ⟨.autoInc, .r7⟩ ⟨.register, .r2⟩ ∧
  decodeWord 0b0000101010001001 = .inc ⟨.deferred, .r1⟩ ∧
  decodeWord 0b1000101111001001 = .tstb ⟨.deferred, .r1⟩ ∧
  decodeWord 0b1000000011111110 = .bpl 0b11111110 ∧
  decodeWord 0b1001110001110010 = .movb ⟨.indexed, .r1⟩ ⟨.indexed, .r2⟩ ∧
  decodeWord 0b0000101010110111 = .inc ⟨.indexed, .r7⟩ ∧
  decodeWord 0b0000000111110101 = .br 0b11110101 ∧
  decodeWord 0b0000100111110111 = .jsr .r7 ⟨.indexed, .r7⟩ ∧
  decodeWord 0b0000000010000111 = .rts .r7 ∧
  decodeWord 0b1000100000001111 = .emt 0b00001111 ∧
  decodeWord 0b0000000000000101 = .reset ∧
  decodeWord 0b0000000010100011 = .cco false false false true true ∧
  decodeWord 0b0000000001000011 = .jmpIllegal .r3

/-! ## Operands -/

/-- The location an operand field denotes, and every register side effect of finding it, mode by mode
(40_addressing_modes.md R112, R113, R123): `d` is the step, 1 for a byte through R0 to R5 and otherwise 2;
the stack limit is checked where SP is decreased; an exception in a fetch or a deferred read leaves the
registers as already stepped. That this holds for PC in modes 2 and 3 too, PC stepped before its extra word is
read as R112, R116 and R122 write it, is the model's choice between those and 10_state.md R26, which writes
the read first (log 41). -/
def Obligations.OperandLocations : Prop :=
  ∀ (w : Width) (r : Reg) (s : State),
    let d : Word := if w = .byte ∧ r ≠ .r6 ∧ r ≠ .r7 then 1 else 2
    let a := s.regs.get r
    let stepped (v : Word) : State := { s with regs := s.regs.set r v }
    let checked (v : Word) : State :=
      { stepped v with
        stackOverflowPending := s.stackOverflowPending || decide (r = .r6 ∧ v.toNat < 0o400) }
    loc w ⟨.register, r⟩ s = .ok (.reg r) s ∧
    loc w ⟨.deferred, r⟩ s = .ok (.mem a) s ∧
    loc w ⟨.autoInc, r⟩ s = .ok (.mem a) (stepped (a + d)) ∧
    loc w ⟨.autoIncDeferred, r⟩ s =
      throughWord a (stepped (a + 2)) (fun b t => .ok (.mem b) t) ∧
    loc w ⟨.autoDec, r⟩ s = .ok (.mem (a - d)) (checked (a - d)) ∧
    loc w ⟨.autoDecDeferred, r⟩ s =
      throughWord (a - 2) (checked (a - 2)) (fun b t => .ok (.mem b) t) ∧
    loc w ⟨.indexed, r⟩ s =
      throughWord s.regs.r7 s (fun x t =>
        let u := { t with regs := t.regs.set .r7 (s.regs.r7 + 2) }
        .ok (.mem (x + u.regs.get r)) u) ∧
    loc w ⟨.indexDeferred, r⟩ s =
      throughWord s.regs.r7 s (fun x t =>
        let u := { t with regs := t.regs.set .r7 (s.regs.r7 + 2) }
        throughWord (x + u.regs.get r) u (fun b v => .ok (.mem b) v))

/-- The order of the two operands and the source-register hazard (40_addressing_modes.md R126, R127), for
every width and every pair of operands. The source is evaluated and read first, then the destination is
evaluated; with `SRC_REG_LATE` a source in mode 0 is read after a destination of another mode has been
evaluated, so as that evaluation left the register. The first bus error ends the evaluation. So
`MOV Rr, (Rr)+` stores the register as it is after the step, or before it, and `MOV (Rr)+, (Rr)+` copies a
word to the next one. -/
def Obligations.SourceReadOrder : Prop :=
  (∀ (w : Width) (src dst : Operand) (s : State),
    let late := s.cfg.srcRegLate = true ∧ src.mode = .register ∧ dst.mode ≠ .register
    (late →
      (∀ e t, loc w dst s = .error e t → sourceAndDest w src dst s = .error e t) ∧
      (∀ l s1 v t, loc w dst s = .ok l s1 → readLoc w (.reg src.reg) s1 = .ok v t →
        sourceAndDest w src dst s = .ok (v, l) t)) ∧
    (¬ late →
      (∀ e t, loc w src s = .error e t → sourceAndDest w src dst s = .error e t) ∧
      (∀ l s1, loc w src s = .ok l s1 →
        (∀ e t, readLoc w l s1 = .error e t → sourceAndDest w src dst s = .error e t) ∧
        (∀ v s2, readLoc w l s1 = .ok v s2 →
          (∀ e t, loc w dst s2 = .error e t → sourceAndDest w src dst s = .error e t) ∧
          (∀ l' t, loc w dst s2 = .ok l' t → sourceAndDest w src dst s = .ok (v, l') t))))) ∧
  ∀ (r : Reg) (s : State), Memory.wf s.mem = true →
    let a := s.regs.get r
    (wordInMemory s a →
      ∃ t, exec (.mov ⟨.register, r⟩ ⟨.autoInc, r⟩) s = .next t ∧
        readCells t.mem a.toNat = (if s.cfg.srcRegLate then a + 2 else a) ∧
        t.regs = s.regs.set r (a + 2)) ∧
    (wordInMemory s (a - 2) →
      ∃ t, exec (.mov ⟨.register, r⟩ ⟨.autoDec, r⟩) s = .next t ∧
        readCells t.mem (a - 2).toNat = (if s.cfg.srcRegLate then a - 2 else a) ∧
        t.regs = s.regs.set r (a - 2)) ∧
    (wordInMemory s a → wordInMemory s (a + 2) →
      ∃ t, exec (.mov ⟨.autoInc, r⟩ ⟨.autoInc, r⟩) s = .next t ∧
        readCells t.mem (a + 2).toNat = readCells (busStep s).mem a.toNat ∧
        t.regs = s.regs.set r (a + 4))

/-- A register as an operand of each width (40_addressing_modes.md R124, R125, 10_state.md R24): a byte
reads the low byte and writes it alone, the high byte kept; a word reads and writes it all; only MOVB's
write extends the sign. A location in memory is read and written through MemRead and MemWrite. -/
def Obligations.RegisterOperands : Prop :=
  ∀ (r : Reg) (s : State),
    readLoc .word (.reg r) s = .ok (s.regs.get r) s ∧
    readLoc .byte (.reg r) s = .ok ((s.regs.get r).extractLsb' 0 8) s ∧
    (∀ v : Word, writeLoc .word (.reg r) v s = .ok () (s.setReg r v)) ∧
    (∀ v : Byte,
      writeLoc .byte (.reg r) v s = .ok () (s.setReg r ((s.regs.get r).extractLsb' 8 8 ++ v))) ∧
    (∀ v : Byte, writeLocMovb (.reg r) v s = .ok () (s.setReg r (BitVec.ofInt 16 v.toInt))) ∧
    (∀ (w : Width) (a : Word),
      readLoc w (.mem a) s = memRead w a s ∧
      (∀ v, writeLoc w (.mem a) v s = memWrite w a v s) ∧
      (∀ v, writeLocMovb (.mem a) v s = memWrite .byte a v s))

/-! ## Memory -/

/-- MemRead (20_memory.md R56): a word at an odd address and any access where nothing answers raise
`BusError`, through vector 0o4 (R60, R62); memory answers its bytes, the low one first (R52); PS answers
itself and 0 for its high byte; the switch register and a device answer some value; beside the devices' own
steps just before it (R67) a read changes nothing but the model's count of draws. Where something answers:
memory, PS, the switch register, the KE11-A if present, a configured device. The console addresses of the
registers are nobody's (10_state.md R21). -/
def Obligations.MemoryReads : Prop :=
  ∀ (s : State) (a : Word),
    let t := busStep s
    (existsAt s.cfg a = true ↔
      a.toNat < memTop s.cfg ∨ a = 0o177776 ∨ a = 0o177777 ∨ a = 0o177570 ∨ a = 0o177571 ∨
        (s.cfg.hasKe11a = true ∧ 0o177300 ≤ a.toNat ∧ a.toNat ≤ 0o177317) ∨
        ∃ d ∈ s.cfg.devices, a &&& 0o177776 ∈ deviceRegisters d) ∧
    (0o177700 ≤ a.toNat → a.toNat ≤ 0o177707 → existsAt s.cfg a = false) ∧
    (a.toNat % 2 = 1 → memRead .word a s = .error (.busError a) t) ∧
    (∀ w, existsAt s.cfg a = false → memRead w a s = .error (.busError a) t) ∧
    (Exception.busError a).vector = 0o4 ∧
    (a.toNat < memTop s.cfg → memRead .byte a s = .ok (readCell t.mem a.toNat) t) ∧
    (a.toNat < memTop s.cfg → a.toNat % 2 = 0 →
      memRead .word a s = .ok (readCell t.mem (a.toNat + 1) ++ readCell t.mem a.toNat) t) ∧
    memRead .word 0o177776 s = .ok s.psw.toWord t ∧
    memRead .byte 0o177776 s = .ok s.psw.toByte t ∧
    memRead .byte 0o177777 s = .ok 0 t ∧
    s.psw.toWord.toNat =
      s.psw.pri.toNat * 32 + s.psw.t.toNat * 16 + s.psw.n.toNat * 8 + s.psw.z.toNat * 4 +
        s.psw.v.toNat * 2 + s.psw.c.toNat ∧
    (∃ v, memRead .word 0o177570 s = .ok v { t with draws := s.draws + 1 }) ∧
    (∀ w, existsAt s.cfg a = true → (w = .word → a.toNat % 2 = 0) →
      ∃ v n, memRead w a s = .ok v { t with draws := n })

/-- MemWrite (20_memory.md R57): the same two errors; in memory the written bytes and no others change, the
low byte of a word first; PS takes bits 7:0 (T only if `T_WRITABLE_BY_STORE`, 10_state.md R36) and its high
byte nothing; the switch register ignores the write. The devices' own steps come just before it (R67). -/
def Obligations.MemoryWrites : Prop :=
  ∀ (s : State) (a : Word), Memory.wf s.mem = true →
    let t := busStep s
    (∀ v, a.toNat % 2 = 1 → memWrite .word a v s = .error (.busError a) t) ∧
    (∀ w v, existsAt s.cfg a = false → memWrite w a v s = .error (.busError a) t) ∧
    (∀ v, a.toNat < memTop s.cfg →
      ∃ m, memWrite .byte a v s = .ok () { t with mem := m } ∧
        ∀ k, readCell m k = if k = a.toNat then v else readCell t.mem k) ∧
    (∀ v : Word, a.toNat < memTop s.cfg → a.toNat % 2 = 0 →
      ∃ m, memWrite .word a v s = .ok () { t with mem := m } ∧
        ∀ k, readCell m k =
          if k = a.toNat then v.extractLsb' 0 8
          else if k = a.toNat + 1 then v.extractLsb' 8 8 else readCell t.mem k) ∧
    (∀ b : Byte,
      let p : Psw :=
        { pri := b.extractLsb' 5 3, t := if s.cfg.tWritableByStore then b.getLsbD 4 else s.psw.t,
          n := b.getLsbD 3, z := b.getLsbD 2, v := b.getLsbD 1, c := b.getLsbD 0 }
      memWrite .byte 0o177776 b s = .ok () { t with psw := p } ∧
      (∀ hi : Byte, memWrite .word 0o177776 (hi ++ b) s = .ok () { t with psw := p }) ∧
      memWrite .byte 0o177777 b s = .ok () t ∧
      memWrite .byte 0o177570 b s = .ok () t ∧ memWrite .byte 0o177571 b s = .ok () t) ∧
    (∀ v, memWrite .word 0o177570 v s = .ok () t)

/-- Memory gives back what was last written (20_memory.md R63, R66), a word and its two bytes agree on the
byte order (R51, R52), and a word written in the instruction stream is the next instruction fetched there
(R70), unless a device stores to those bytes itself (R67). -/
def Obligations.StoreThenLoad : Prop :=
  ∀ (s t : State) (w : Width) (a : Word) (v : BitVec w.bits), Memory.wf s.mem = true →
    a.toNat < memTop s.cfg → memWrite w a v s = .ok () t →
    ((∀ k, a.toNat ≤ k → k < a.toNat + widthBytes w → undisturbed t k) →
      memRead w a t = .ok v (busStep t) ∧
      (w = .word → memRead .byte a t = .ok (v.extractLsb' 0 8) (busStep t) ∧
        memRead .byte (a + 1) t = .ok (v.extractLsb' 8 8) (busStep t)) ∧
      (∀ x : Word, w = .word → v.toNat = x.toNat → t.regs.r7 = a →
        fetch t = .ok x { busStep t with regs := t.regs.set .r7 (a + 2) })) ∧
    (∀ (w' : Width) (b : Word), b.toNat + widthBytes w' ≤ a.toNat ∨ a.toNat + widthBytes w ≤ b.toNat →
      (∀ k, b.toNat ≤ k → k < b.toNat + widthBytes w' → undisturbed s k) →
      ∀ x u, memRead w' b s = .ok x u → b.toNat < memTop s.cfg →
        memRead w' b t = .ok x (busStep t))

/-- A store to PS by MOV or MOVB sets PS from the stored datum, overriding the flags the instruction itself
computed (10_state.md R36, R334). -/
def Obligations.MoveToPsOverridesFlags : Prop :=
  ∀ (src dst : Operand) (s s1 : State),
    let stored (p : Psw) (b : Byte) : Psw :=
      { pri := b.extractLsb' 5 3, t := if s.cfg.tWritableByStore then b.getLsbD 4 else p.t,
        n := b.getLsbD 3, z := b.getLsbD 2, v := b.getLsbD 1, c := b.getLsbD 0 }
    (∀ v : Word, sourceAndDest .word src dst s = .ok (v, .mem 0o177776) s1 →
      exec (.mov src dst) s =
        .next { busStep s1 with psw := stored s.psw (v.extractLsb' 0 8) }) ∧
    (∀ v : Byte, sourceAndDest .byte src dst s = .ok (v, .mem 0o177776) s1 →
      exec (.movb src dst) s = .next { busStep s1 with psw := stored s.psw v })

/-- Reading the KE11-A (47_ke11a_multiply_divide.md R250, R252 to R259): absent, no access succeeds;
present, AC, MQ and SR with SC read back, NOR gives SC in its low byte, and the four starting addresses
read as zero. No read changes anything beside the devices' own steps just before it. -/
def Obligations.KeReads : Prop :=
  ∀ s : State,
    let t := busStep s
    (∀ (w : Width) (a : Word), s.cfg.hasKe11a = false → 0o177300 ≤ a.toNat → a.toNat ≤ 0o177317 →
      memRead w a s = .error (.busError a) t ∧ ∀ v, memWrite w a v s = .error (.busError a) t) ∧
    (s.cfg.hasKe11a = true →
      memRead .word 0o177300 s = .ok 0 t ∧
      memRead .word 0o177302 s = .ok s.ke.ac t ∧
      memRead .word 0o177304 s = .ok s.ke.mq t ∧
      memRead .word 0o177306 s = .ok 0 t ∧
      memRead .word 0o177310 s = .ok (s.ke.sr ++ s.ke.sc) t ∧
      memRead .byte 0o177310 s = .ok s.ke.sc t ∧
      memRead .byte 0o177311 s = .ok s.ke.sr t ∧
      (∃ v : Word, memRead .word 0o177312 s = .ok v t ∧ v.extractLsb' 0 8 = s.ke.sc) ∧
      memRead .word 0o177314 s = .ok 0 t ∧
      memRead .word 0o177316 s = .ok 0 t)

/-- Writing the KE11-A when present (47_ke11a_multiply_divide.md R252 to R254, R260): AC loads; MQ loads and
extends its sign into AC; SC loads; a write of SR loads its bits 0, 6 and 7, and what its other bits then are
does not depend on the byte written to SR; a write that starts an operation changes nothing but the four
registers. What SR shows after a load of AC, MQ or SC is otherwise a free value, and that a byte write to SR
alone keeps its other bits is the model's choice (log 42). -/
def Obligations.KeWrites : Prop :=
  ∀ (s : State) (v : Word), s.cfg.hasKe11a = true →
    let t := busStep s
    (∃ sr, memWrite .word 0o177302 v s = .ok () { t with ke := { s.ke with ac := v, sr := sr } }) ∧
    (∃ sr, memWrite .word 0o177304 v s =
      .ok () { t with
        ke := { s.ke with mq := v, ac := if v.getLsbD 15 then 0o177777 else 0, sr := sr } }) ∧
    (∀ lo : Byte, ∃ other : BitVec 5, ∀ hi : Byte, ∃ sr : Byte,
      memWrite .word 0o177310 (hi ++ lo) s =
        .ok () { t with ke := { s.ke with sc := lo, sr := sr } } ∧
      sr.getLsbD 0 = hi.getLsbD 0 ∧ sr.getLsbD 6 = hi.getLsbD 6 ∧ sr.getLsbD 7 = hi.getLsbD 7 ∧
      sr.extractLsb' 1 5 = other) ∧
    (∀ b : Byte, ∃ sr,
      memWrite .byte 0o177310 b s = .ok () { t with ke := { s.ke with sc := b, sr := sr } }) ∧
    (∀ b : Byte, ∃ sr : Byte,
      memWrite .byte 0o177311 b s = .ok () { t with ke := { s.ke with sr := sr } } ∧
      sr.getLsbD 0 = b.getLsbD 0 ∧ sr.getLsbD 6 = b.getLsbD 6 ∧ sr.getLsbD 7 = b.getLsbD 7 ∧
      sr.extractLsb' 1 5 = s.ke.sr.extractLsb' 1 5) ∧
    (∀ a : Word, a ∈ [0o177300, 0o177306, 0o177312, 0o177314, (0o177316 : Word)] →
      ∃ k, memWrite .word a v s = .ok () { t with ke := k })

/-! ## Double operand instructions -/

/-- MOV (41_double_operand.md R141). -/
def Obligations.MovCopiesWord : Prop :=
  ∀ src dst : Operand,
    encode (.mov src dst) = BitVec.ofNat 16 (0o010000 + src.code * 64 + dst.code) ∧
    ∀ s v l s1, sourceAndDest .word src dst s = .ok (v, l) s1 → reachable .word s1 l →
      ∃ t, writeLoc .word l v (s1.setPsw (flagged v false s1.psw.c s1.psw)) = .ok () t ∧
        exec (.mov src dst) s = .next t

/-- MOVB (41_double_operand.md R142): a register destination takes the byte sign-extended over all 16
bits, memory the one byte. -/
def Obligations.MovbCopiesByte : Prop :=
  ∀ src dst : Operand,
    encode (.movb src dst) = BitVec.ofNat 16 (0o110000 + src.code * 64 + dst.code) ∧
    (∀ (s : State) (v : Byte) i s1, sourceAndDest .byte src dst s = .ok (v, .reg i) s1 →
      exec (.movb src dst) s =
        .next ((s1.setPsw (flagged v false s1.psw.c s1.psw)).setReg i
          (BitVec.ofNat 16 (if v.getLsbD 7 then v.toNat + 0o177400 else v.toNat)))) ∧
    ∀ s v a s1, sourceAndDest .byte src dst s = .ok (v, .mem a) s1 → reachable .byte s1 (.mem a) →
      ∃ t, memWrite .byte a v (s1.setPsw (flagged v false s1.psw.c s1.psw)) = .ok () t ∧
        exec (.movb src dst) s = .next t

/-- CMP and CMPB (41_double_operand.md R143, R144): the flags of source minus destination, nothing
written. -/
def Obligations.CompareSetsFlags : Prop :=
  ∀ src dst : Operand,
    encode (.cmp src dst) = BitVec.ofNat 16 (0o020000 + src.code * 64 + dst.code) ∧
    encode (.cmpb src dst) = BitVec.ofNat 16 (0o120000 + src.code * 64 + dst.code) ∧
    comparesOperands .word src dst (.cmp src dst) (fun s d p =>
      let r := BitVec.ofInt 16 ((s.toNat : Int) - d.toNat)
      flagged r (s.getLsbD 15 != d.getLsbD 15 && r.getLsbD 15 == d.getLsbD 15)
        (decide (s.toNat < d.toNat)) p) ∧
    comparesOperands .byte src dst (.cmpb src dst) (fun s d p =>
      let r := BitVec.ofInt 8 ((s.toNat : Int) - d.toNat)
      flagged r (s.getLsbD 7 != d.getLsbD 7 && r.getLsbD 7 == d.getLsbD 7)
        (decide (s.toNat < d.toNat)) p)

/-- BIT, BIC and BIS with their byte forms (41_double_operand.md R145 to R150): bit by bit and, and with
the complement, inclusive or; V cleared, C kept; BIT writes nothing. -/
def Obligations.LogicalInstructions : Prop :=
  ∀ src dst : Operand,
    encode (.bit src dst) = BitVec.ofNat 16 (0o030000 + src.code * 64 + dst.code) ∧
    encode (.bitb src dst) = BitVec.ofNat 16 (0o130000 + src.code * 64 + dst.code) ∧
    encode (.bic src dst) = BitVec.ofNat 16 (0o040000 + src.code * 64 + dst.code) ∧
    encode (.bicb src dst) = BitVec.ofNat 16 (0o140000 + src.code * 64 + dst.code) ∧
    encode (.bis src dst) = BitVec.ofNat 16 (0o050000 + src.code * 64 + dst.code) ∧
    encode (.bisb src dst) = BitVec.ofNat 16 (0o150000 + src.code * 64 + dst.code) ∧
    comparesOperands .word src dst (.bit src dst) (fun s d p =>
      flagged (BitVec.ofNat 16 (s.toNat &&& d.toNat)) false p.c p) ∧
    comparesOperands .byte src dst (.bitb src dst) (fun s d p =>
      flagged (BitVec.ofNat 8 (s.toNat &&& d.toNat)) false p.c p) ∧
    combinesOperands .word src dst (.bic src dst)
      (fun s d => BitVec.ofNat 16 (d.toNat &&& (0o177777 - s.toNat)))
      (fun s d p => flagged (BitVec.ofNat 16 (d.toNat &&& (0o177777 - s.toNat))) false p.c p) ∧
    combinesOperands .byte src dst (.bicb src dst)
      (fun s d => BitVec.ofNat 8 (d.toNat &&& (0o377 - s.toNat)))
      (fun s d p => flagged (BitVec.ofNat 8 (d.toNat &&& (0o377 - s.toNat))) false p.c p) ∧
    combinesOperands .word src dst (.bis src dst)
      (fun s d => BitVec.ofNat 16 (d.toNat ||| s.toNat))
      (fun s d p => flagged (BitVec.ofNat 16 (d.toNat ||| s.toNat)) false p.c p) ∧
    combinesOperands .byte src dst (.bisb src dst)
      (fun s d => BitVec.ofNat 8 (d.toNat ||| s.toNat))
      (fun s d p => flagged (BitVec.ofNat 8 (d.toNat ||| s.toNat)) false p.c p)

/-- ADD (41_double_operand.md R151). -/
def Obligations.AddAddsWords : Prop :=
  ∀ src dst : Operand,
    encode (.add src dst) = BitVec.ofNat 16 (0o060000 + src.code * 64 + dst.code) ∧
    combinesOperands .word src dst (.add src dst)
      (fun s d => BitVec.ofNat 16 (s.toNat + d.toNat))
      (fun s d p =>
        let r := BitVec.ofNat 16 (s.toNat + d.toNat)
        flagged r (s.getLsbD 15 == d.getLsbD 15 && r.getLsbD 15 != s.getLsbD 15)
          (decide (65536 ≤ s.toNat + d.toNat)) p)

/-- SUB (41_double_operand.md R152): destination minus source. -/
def Obligations.SubSubtractsWords : Prop :=
  ∀ src dst : Operand,
    encode (.sub src dst) = BitVec.ofNat 16 (0o160000 + src.code * 64 + dst.code) ∧
    combinesOperands .word src dst (.sub src dst)
      (fun s d => BitVec.ofInt 16 ((d.toNat : Int) - s.toNat))
      (fun s d p =>
        let r := BitVec.ofInt 16 ((d.toNat : Int) - s.toNat)
        flagged r (s.getLsbD 15 != d.getLsbD 15 && r.getLsbD 15 == s.getLsbD 15)
          (decide (d.toNat < s.toNat)) p)

/-- What V and C report (41_double_operand.md R153): between registers, after ADD the signed sum, and after
SUB and CMP the signed difference, left the 16-bit range exactly if V; the unsigned sum carried, or the
unsigned difference borrowed, exactly if C; and the result is exact modulo 2^16 in both readings. -/
def Obligations.OverflowAndCarryMeaning : Prop :=
  ∀ (i j : Reg) (s : State),
    let a := s.regs.get i
    let b := s.regs.get j
    let fits (x : Int) : Prop := -32768 ≤ x ∧ x < 32768
    (∃ t, exec (.add ⟨.register, i⟩ ⟨.register, j⟩) s = .next t ∧
      t.regs = s.regs.set j (BitVec.ofInt 16 (a.toInt + b.toInt)) ∧
      t.regs.get j = BitVec.ofNat 16 (a.toNat + b.toNat) ∧
      (t.psw.v = true ↔ ¬ fits (a.toInt + b.toInt)) ∧
      (t.psw.c = true ↔ 65536 ≤ a.toNat + b.toNat)) ∧
    (∃ t, exec (.sub ⟨.register, i⟩ ⟨.register, j⟩) s = .next t ∧
      t.regs = s.regs.set j (BitVec.ofInt 16 (b.toInt - a.toInt)) ∧
      t.regs.get j = BitVec.ofInt 16 ((b.toNat : Int) - a.toNat) ∧
      (t.psw.v = true ↔ ¬ fits (b.toInt - a.toInt)) ∧
      (t.psw.c = true ↔ b.toNat < a.toNat)) ∧
    (∃ t, exec (.cmp ⟨.register, i⟩ ⟨.register, j⟩) s = .next t ∧ t.regs = s.regs ∧
      (t.psw.v = true ↔ ¬ fits (a.toInt - b.toInt)) ∧
      (t.psw.c = true ↔ a.toNat < b.toNat))

/-! ## Single operand instructions -/

/-- CLR and CLRB (44_single_operand.md R191, R192): the operand is written without being read. -/
def Obligations.ClearWritesZero : Prop :=
  ∀ dst : Operand,
    encode (.clr dst) = BitVec.ofNat 16 (0o005000 + dst.code) ∧
    encode (.clrb dst) = BitVec.ofNat 16 (0o105000 + dst.code) ∧
    setsWrites .word dst (.clr dst) 0
      (fun p => { p with n := false, z := true, v := false, c := false }) ∧
    setsWrites .byte dst (.clrb dst) 0
      (fun p => { p with n := false, z := true, v := false, c := false })

/-- COM and COMB (44_single_operand.md R193, R194). -/
def Obligations.ComplementInverts : Prop :=
  ∀ dst : Operand,
    encode (.com dst) = BitVec.ofNat 16 (0o005100 + dst.code) ∧
    encode (.comb dst) = BitVec.ofNat 16 (0o105100 + dst.code) ∧
    readsSetsWrites .word dst (.com dst) (fun d _ => BitVec.ofNat 16 (0o177777 - d.toNat))
      (fun d p => flagged (BitVec.ofNat 16 (0o177777 - d.toNat)) false true p) ∧
    readsSetsWrites .byte dst (.comb dst) (fun d _ => BitVec.ofNat 8 (0o377 - d.toNat))
      (fun d p => flagged (BitVec.ofNat 8 (0o377 - d.toNat)) false true p)

/-- INC and DEC with their byte forms (44_single_operand.md R195 to R198): C is kept. -/
def Obligations.IncrementAndDecrement : Prop :=
  ∀ dst : Operand,
    encode (.inc dst) = BitVec.ofNat 16 (0o005200 + dst.code) ∧
    encode (.incb dst) = BitVec.ofNat 16 (0o105200 + dst.code) ∧
    encode (.dec dst) = BitVec.ofNat 16 (0o005300 + dst.code) ∧
    encode (.decb dst) = BitVec.ofNat 16 (0o105300 + dst.code) ∧
    readsSetsWrites .word dst (.inc dst) (fun d _ => BitVec.ofNat 16 (d.toNat + 1))
      (fun d p =>
        flagged (BitVec.ofNat 16 (d.toNat + 1)) (decide (d.toNat = 0o077777)) p.c p) ∧
    readsSetsWrites .byte dst (.incb dst) (fun d _ => BitVec.ofNat 8 (d.toNat + 1))
      (fun d p => flagged (BitVec.ofNat 8 (d.toNat + 1)) (decide (d.toNat = 0o177)) p.c p) ∧
    readsSetsWrites .word dst (.dec dst) (fun d _ => BitVec.ofInt 16 ((d.toNat : Int) - 1))
      (fun d p =>
        flagged (BitVec.ofInt 16 ((d.toNat : Int) - 1)) (decide (d.toNat = 0o100000)) p.c p) ∧
    readsSetsWrites .byte dst (.decb dst) (fun d _ => BitVec.ofInt 8 ((d.toNat : Int) - 1))
      (fun d p =>
        flagged (BitVec.ofInt 8 ((d.toNat : Int) - 1)) (decide (d.toNat = 0o200)) p.c p)

/-- NEG and NEGB (44_single_operand.md R199, R200). -/
def Obligations.NegateNegates : Prop :=
  ∀ dst : Operand,
    encode (.neg dst) = BitVec.ofNat 16 (0o005400 + dst.code) ∧
    encode (.negb dst) = BitVec.ofNat 16 (0o105400 + dst.code) ∧
    readsSetsWrites .word dst (.neg dst) (fun d _ => BitVec.ofInt 16 (0 - (d.toNat : Int)))
      (fun d p =>
        let r := BitVec.ofInt 16 (0 - (d.toNat : Int))
        flagged r (decide (r.toNat = 0o100000)) (decide (r.toNat ≠ 0)) p) ∧
    readsSetsWrites .byte dst (.negb dst) (fun d _ => BitVec.ofInt 8 (0 - (d.toNat : Int)))
      (fun d p =>
        let r := BitVec.ofInt 8 (0 - (d.toNat : Int))
        flagged r (decide (r.toNat = 0o200)) (decide (r.toNat ≠ 0)) p)

/-- ADC and SBC with their byte forms (44_single_operand.md R201 to R204): C as it was before the
instruction is added or subtracted. -/
def Obligations.AddAndSubtractCarry : Prop :=
  ∀ dst : Operand,
    encode (.adc dst) = BitVec.ofNat 16 (0o005500 + dst.code) ∧
    encode (.adcb dst) = BitVec.ofNat 16 (0o105500 + dst.code) ∧
    encode (.sbc dst) = BitVec.ofNat 16 (0o005600 + dst.code) ∧
    encode (.sbcb dst) = BitVec.ofNat 16 (0o105600 + dst.code) ∧
    readsSetsWrites .word dst (.adc dst) (fun d p => BitVec.ofNat 16 (d.toNat + p.c.toNat))
      (fun d p =>
        flagged (BitVec.ofNat 16 (d.toNat + p.c.toNat)) (decide (d.toNat = 0o077777) && p.c)
          (decide (d.toNat = 0o177777) && p.c) p) ∧
    readsSetsWrites .byte dst (.adcb dst) (fun d p => BitVec.ofNat 8 (d.toNat + p.c.toNat))
      (fun d p =>
        flagged (BitVec.ofNat 8 (d.toNat + p.c.toNat)) (decide (d.toNat = 0o177) && p.c)
          (decide (d.toNat = 0o377) && p.c) p) ∧
    readsSetsWrites .word dst (.sbc dst)
      (fun d p => BitVec.ofInt 16 ((d.toNat : Int) - p.c.toNat))
      (fun d p =>
        flagged (BitVec.ofInt 16 ((d.toNat : Int) - p.c.toNat))
          (decide (d.toNat = 0o100000) && p.c) (decide (d.toNat = 0) && p.c) p) ∧
    readsSetsWrites .byte dst (.sbcb dst)
      (fun d p => BitVec.ofInt 8 ((d.toNat : Int) - p.c.toNat))
      (fun d p =>
        flagged (BitVec.ofInt 8 ((d.toNat : Int) - p.c.toNat))
          (decide (d.toNat = 0o200) && p.c) (decide (d.toNat = 0) && p.c) p)

/-- TST and TSTB (44_single_operand.md R205, R206): nothing is written. -/
def Obligations.TestSetsFlags : Prop :=
  ∀ dst : Operand,
    encode (.tst dst) = BitVec.ofNat 16 (0o005700 + dst.code) ∧
    encode (.tstb dst) = BitVec.ofNat 16 (0o105700 + dst.code) ∧
    readsSets .word dst (.tst dst) (fun d p => flagged d false false p) ∧
    readsSets .byte dst (.tstb dst) (fun d p => flagged d false false p)

/-- ROR and ROL with their byte forms (44_single_operand.md R207 to R210): a rotation by one place of the
datum with C. -/
def Obligations.RotatesThroughCarry : Prop :=
  ∀ dst : Operand,
    encode (.ror dst) = BitVec.ofNat 16 (0o006000 + dst.code) ∧
    encode (.rorb dst) = BitVec.ofNat 16 (0o106000 + dst.code) ∧
    encode (.rol dst) = BitVec.ofNat 16 (0o006100 + dst.code) ∧
    encode (.rolb dst) = BitVec.ofNat 16 (0o106100 + dst.code) ∧
    readsSetsWrites .word dst (.ror dst) (fun d p => BitVec.ofBool p.c ++ d.extractLsb' 1 15)
      (fun d p =>
        let r : BitVec 16 := BitVec.ofBool p.c ++ d.extractLsb' 1 15
        flagged r (r.getLsbD 15 ^^ d.getLsbD 0) (d.getLsbD 0) p) ∧
    readsSetsWrites .byte dst (.rorb dst) (fun d p => BitVec.ofBool p.c ++ d.extractLsb' 1 7)
      (fun d p =>
        let r : BitVec 8 := BitVec.ofBool p.c ++ d.extractLsb' 1 7
        flagged r (r.getLsbD 7 ^^ d.getLsbD 0) (d.getLsbD 0) p) ∧
    readsSetsWrites .word dst (.rol dst) (fun d p => d.extractLsb' 0 15 ++ BitVec.ofBool p.c)
      (fun d p =>
        let r : BitVec 16 := d.extractLsb' 0 15 ++ BitVec.ofBool p.c
        flagged r (r.getLsbD 15 ^^ d.getLsbD 15) (d.getLsbD 15) p) ∧
    readsSetsWrites .byte dst (.rolb dst) (fun d p => d.extractLsb' 0 7 ++ BitVec.ofBool p.c)
      (fun d p =>
        let r : BitVec 8 := d.extractLsb' 0 7 ++ BitVec.ofBool p.c
        flagged r (r.getLsbD 7 ^^ d.getLsbD 7) (d.getLsbD 7) p)

/-- ASR and ASL with their byte forms (44_single_operand.md R211 to R214): a shift by one place, the sign
copied to the right, 0 brought in to the left. -/
def Obligations.ArithmeticShifts : Prop :=
  ∀ dst : Operand,
    encode (.asr dst) = BitVec.ofNat 16 (0o006200 + dst.code) ∧
    encode (.asrb dst) = BitVec.ofNat 16 (0o106200 + dst.code) ∧
    encode (.asl dst) = BitVec.ofNat 16 (0o006300 + dst.code) ∧
    encode (.aslb dst) = BitVec.ofNat 16 (0o106300 + dst.code) ∧
    readsSetsWrites .word dst (.asr dst)
      (fun d _ => BitVec.ofBool (d.getLsbD 15) ++ d.extractLsb' 1 15)
      (fun d p =>
        let r : BitVec 16 := BitVec.ofBool (d.getLsbD 15) ++ d.extractLsb' 1 15
        flagged r (r.getLsbD 15 ^^ d.getLsbD 0) (d.getLsbD 0) p) ∧
    readsSetsWrites .byte dst (.asrb dst)
      (fun d _ => BitVec.ofBool (d.getLsbD 7) ++ d.extractLsb' 1 7)
      (fun d p =>
        let r : BitVec 8 := BitVec.ofBool (d.getLsbD 7) ++ d.extractLsb' 1 7
        flagged r (r.getLsbD 7 ^^ d.getLsbD 0) (d.getLsbD 0) p) ∧
    readsSetsWrites .word dst (.asl dst) (fun d _ => d.extractLsb' 0 15 ++ BitVec.ofBool false)
      (fun d p =>
        let r : BitVec 16 := d.extractLsb' 0 15 ++ BitVec.ofBool false
        flagged r (r.getLsbD 15 ^^ d.getLsbD 15) (d.getLsbD 15) p) ∧
    readsSetsWrites .byte dst (.aslb dst) (fun d _ => d.extractLsb' 0 7 ++ BitVec.ofBool false)
      (fun d p =>
        let r : BitVec 8 := d.extractLsb' 0 7 ++ BitVec.ofBool false
        flagged r (r.getLsbD 7 ^^ d.getLsbD 7) (d.getLsbD 7) p)

/-- SWAB (44_single_operand.md R216): N and Z of the result's low byte. -/
def Obligations.SwabSwapsBytes : Prop :=
  ∀ dst : Operand,
    encode (.swab dst) = BitVec.ofNat 16 (0o000300 + dst.code) ∧
    readsSetsWrites .word dst (.swab dst) (fun d _ => d.extractLsb' 0 8 ++ d.extractLsb' 8 8)
      (fun d p =>
        let r : BitVec 16 := d.extractLsb' 0 8 ++ d.extractLsb' 8 8
        { p with n := r.getLsbD 7, z := decide (r.extractLsb' 0 8 = 0), v := false, c := false })

/-! ## Frames and faults of the operand instructions -/

/-- The instructions that write a destination run on every operand that can be reached, and leave unchanged
every register but those their operands step and the destination register, every byte of memory but those
of the datum at the destination, the priority and T unless PS is the destination, the KE11-A unless it is,
the stack-overflow flag unless an operand pushes, and the run state, trace flag and configuration. Requests
and the bytes of memory that devices store to meanwhile change by the devices' own steps alone. -/
def Obligations.WritingFrame : Prop :=
  ∀ s : State,
    (∀ i w dst, singleWriting i = some (w, dst) → ∀ l s1, loc w dst s = .ok l s1 →
      reachable w s1 l → ∃ t, exec i s = .next t ∧ writeFrame w [dst] dst l s t) ∧
    (∀ i w src dst, doubleWriting i = some (w, src, dst) → ∀ v l s1,
      sourceAndDest w src dst s = .ok (v, l) s1 → reachable w s1 l →
      ∃ t, exec i s = .next t ∧ writeFrame w [src, dst] dst l s t)

/-- The instructions that compare or test run on every operand that can be read, and leave unchanged every
register but those their operands step, all of memory, the priority and T, the KE11-A, the stack-overflow
flag unless an operand pushes, and the run state, trace flag and configuration. Requests and the bytes of
memory that devices store to meanwhile change by the devices' own steps alone. -/
def Obligations.TestingFrame : Prop :=
  ∀ s : State,
    (∀ i w dst, singleTesting i = some (w, dst) → ∀ l s1, loc w dst s = .ok l s1 →
      reachable w s1 l → ∃ t, exec i s = .next t ∧ testFrame [dst] s t) ∧
    (∀ i w src dst, doubleTesting i = some (w, src, dst) → ∀ v l s1,
      sourceAndDest w src dst s = .ok (v, l) s1 → reachable w s1 l →
      ∃ t, exec i s = .next t ∧ testFrame [src, dst] s t)

/-- A bus error of an operand abandons the instruction there and is taken through vector 0o4: registers
already stepped stay stepped, the condition codes are as before unless the failing access is the final
write, and the destination is not written (41_double_operand.md R140, 60_exceptions.md R278, R279). Only
MOV, MOVB, CLR and CLRB write without having read, so only their final write can fail. A bus error in
evaluating the destination of JMP or JSR (44_single_operand.md R215, 42_subroutine.md R160) is taken in the
same way, nothing pushed for the link and PC not loaded. -/
def Obligations.OperandFaults : Prop :=
  ∀ s : State,
    (∀ (i : Instr) (w : Width),
      (∀ dst e t, singleWriting i = some (w, dst) ∨ singleTesting i = some (w, dst) →
        loc w dst s = .error e t →
        exec i s = .next (takeException e t) ∧ (∃ a, e = .busError a) ∧ t.psw = s.psw ∧
          sameMemory s t ∧ sameRegsBut (operandRegs dst) s t) ∧
      (∀ src dst e t, doubleWriting i = some (w, src, dst) ∨ doubleTesting i = some (w, src, dst) →
        sourceAndDest w src dst s = .error e t →
        exec i s = .next (takeException e t) ∧ (∃ a, e = .busError a) ∧ t.psw = s.psw ∧
          sameMemory s t ∧ sameRegsBut (operandRegs src ++ operandRegs dst) s t) ∧
      (∀ dst a s1, singleWriting i = some (w, dst) ∨ singleTesting i = some (w, dst) →
        loc w dst s = .ok (.mem a) s1 → accessFails w s1.cfg a = true →
        let t := busStep s1
        if i = .clr dst ∨ i = .clrb dst then
          exec i s = .next (takeException (.busError a)
            (t.setPsw { s1.psw with n := false, z := true, v := false, c := false }))
        else exec i s = .next (takeException (.busError a) t)) ∧
      (∀ src dst v a s1, doubleWriting i = some (w, src, dst) ∨ doubleTesting i = some (w, src, dst) →
        sourceAndDest w src dst s = .ok (v, .mem a) s1 → accessFails w s1.cfg a = true →
        let t := busStep s1
        if i = .mov src dst ∨ i = .movb src dst then
          exec i s = .next (takeException (.busError a)
            (t.setPsw (flagged v false s1.psw.c s1.psw)))
        else exec i s = .next (takeException (.busError a) t))) ∧
    (∀ (r : Reg) (dst : Operand) e t, loc .word dst s = .error e t →
      exec (.jmp dst) s = .next (takeException e t) ∧
      exec (.jsr r dst) s = .next (takeException e t) ∧
      (∃ a, e = .busError a) ∧ t.psw = s.psw ∧ sameMemory s t ∧
      sameRegsBut (operandRegs dst) s t)

/-! ## Jumps -/

/-- JMP (44_single_operand.md R215, 42_subroutine.md R162): PC takes the destination's address, or, for
mode 2 with `JMP_AUTOINC_POST`, the register after its step; the target is neither read nor checked. Of the
registers only PC and the one the mode steps change, and PS, memory and the KE11-A are unchanged. -/
def Obligations.JmpLoadsPc : Prop :=
  ∀ dst : Operand,
    encode (.jmp dst) = BitVec.ofNat 16 (0o000100 + dst.code) ∧
    ∀ s a s1, loc .word dst s = .ok (.mem a) s1 →
      let target := if s.cfg.jmpAutoincPost ∧ dst.mode = .autoInc then s1.regs.get dst.reg else a
      ∃ t, exec (.jmp dst) s = .next t ∧ t = { s1 with regs := s1.regs.set .r7 target } ∧
        sameRegsBut (.r7 :: operandRegs dst) s t ∧ t.psw = s.psw ∧ sameMemory s t ∧ t.ke = s.ke ∧
        sameControl s t

/-- JSR (42_subroutine.md R160, R162): after the destination has been evaluated, the link register is
pushed and takes PC, and PC takes the address. -/
def Obligations.JsrLinksAndJumps : Prop :=
  ∀ (r : Reg) (dst : Operand),
    encode (.jsr r dst) = BitVec.ofNat 16 (0o004000 + r.code * 64 + dst.code) ∧
    ∀ s a s1, loc .word dst s = .ok (.mem a) s1 →
      let target := if s.cfg.jmpAutoincPost ∧ dst.mode = .autoInc then s1.regs.get dst.reg else a
      let sp := s1.regs.r6 - 2
      let s2 : State :=
        { s1 with
          regs := s1.regs.set .r6 sp
          stackOverflowPending := s1.stackOverflowPending || decide (sp.toNat < 0o400) }
      (accessible .word s1 sp →
        ∃ s3, memWrite .word sp (s1.regs.get r) s2 = .ok () s3 ∧
          exec (.jsr r dst) s =
            .next { s3 with regs := (s3.regs.set r s1.regs.r7).set .r7 target }) ∧
      (accessFails .word s1.cfg sp = true →
        exec (.jsr r dst) s = .next (takeException (.busError sp) (busStep s2)))

/-- RTS (42_subroutine.md R161): PC takes the link register, which takes the word popped. -/
def Obligations.RtsReturns : Prop :=
  ∀ (r : Reg) (s : State),
    encode (.rts r) = BitVec.ofNat 16 (0o000200 + r.code) ∧
    (∀ v s1, memRead .word s.regs.r6 s = .ok v s1 →
      exec (.rts r) s =
        .next { s1 with
          regs := ((s.regs.set .r7 (s.regs.get r)).set .r6 (s.regs.r6 + 2)).set r v }) ∧
    (accessFails .word s.cfg s.regs.r6 = true →
      exec (.rts r) s =
        .next (takeException (.busError s.regs.r6)
          { busStep s with regs := s.regs.set .r7 (s.regs.get r) }))

/-- A call and its return (42_subroutine.md R160, R161): after JSR, whatever the subroutine does, RTS of the
same register, not SP, from a state with SP and the stacked word as JSR left them (and left alone by devices
until it is popped), and the link register too unless it is PC, goes on after the call with SP and the link
register as they were. -/
def Obligations.CallThenReturn : Prop :=
  ∀ (r : Reg) (dst : Operand) (s s1 h : State) (a : Word), r ≠ .r6 → Memory.wf s.mem = true →
    loc .word dst s = .ok (.mem a) s1 → wordInMemory s1 (s1.regs.r6 - 2) →
    ∃ t, exec (.jsr r dst) s = .next t ∧
      (h.cfg = t.cfg → h.regs.r6 = t.regs.r6 → (r = .r7 ∨ h.regs.get r = t.regs.get r) →
        readCells h.mem t.regs.r6.toNat = readCells t.mem t.regs.r6.toNat →
        wordUndisturbed h t.regs.r6 →
        ∃ u, exec (.rts r) h = .next u ∧ u.regs.r7 = s1.regs.r7 ∧ u.regs.r6 = s1.regs.r6 ∧
          u.regs.get r = s1.regs.get r ∧ sameRegsBut [r, .r6, .r7] h u ∧ sameMemory h u ∧
          u.psw = h.psw)

/-- JMP and JSR with destination mode 0 (30_encoding.md R101, 60_exceptions.md R281): the illegal-jump trap
through vector 0o4 and nothing else; nothing is pushed for the link. The codes are 000100 to 000107 and
004R00 to 004R07. -/
def Obligations.IllegalJumpsTrap : Prop :=
  ∀ r d : Reg,
    decodeWord (BitVec.ofNat 16 (0o000100 + d.code)) = .jmpIllegal d ∧
    decodeWord (BitVec.ofNat 16 (0o004000 + r.code * 64 + d.code)) = .jsrIllegal r d ∧
    trapsThrough 0o4 (.jmpIllegal d) ∧ trapsThrough 0o4 (.jsrIllegal r d)

/-! ## The operate group -/

/-- HALT and WAIT (43_operate.md R171, R172) change `run` alone; PC is already past them. -/
def Obligations.HaltAndWait : Prop :=
  ∀ s : State,
    decodeWord 0o000000 = .halt ∧ decodeWord 0o000001 = .wait ∧
    exec .halt s = .next { s with run := .halted } ∧
    exec .wait s = .next { s with run := .waiting }

/-- RESET (43_operate.md R177, 70_reset_and_hazards.md R324): every device's request is withdrawn, and
registers, PS, memory and the rest of the processor's state are unchanged; so is the KE11-A if absent. -/
def Obligations.ResetInitialisesDevices : Prop :=
  ∀ s : State,
    decodeWord 0o000005 = .reset ∧
    ∃ t, exec .reset s = .next t ∧ t.irq = [] ∧ t.regs = s.regs ∧ t.psw = s.psw ∧ t.mem = s.mem ∧
      t.run = s.run ∧ t.tracePending = s.tracePending ∧
      t.stackOverflowPending = s.stackOverflowPending ∧ t.busEvents = s.busEvents ∧
      t.draws = s.draws ∧ t.cfg = s.cfg ∧ (s.cfg.hasKe11a = false → t.ke = s.ke)

/-- RTI (43_operate.md R174): PC, then PS, come off the stack, and SP moves past both; bits 15:8 of the
popped PS are discarded. A bus error of either pop is taken, the registers as they then are. -/
def Obligations.RtiRestores : Prop :=
  ∀ s : State,
    decodeWord 0o000002 = .rti ∧
    (∀ pc s1 ps s2, memRead .word s.regs.r6 s = .ok pc s1 →
      memRead .word (s.regs.r6 + 2) s1 = .ok ps s2 →
      exec .rti s =
        .next { s2 with
          regs := (s.regs.set .r7 pc).set .r6 (s.regs.r6 + 4)
          psw :=
            { pri := ps.extractLsb' 5 3, t := ps.getLsbD 4, n := ps.getLsbD 3,
              z := ps.getLsbD 2, v := ps.getLsbD 1, c := ps.getLsbD 0 } }) ∧
    (accessFails .word s.cfg s.regs.r6 = true →
      exec .rti s = .next (takeException (.busError s.regs.r6) (busStep s))) ∧
    (∀ pc s1, memRead .word s.regs.r6 s = .ok pc s1 →
      accessFails .word s.cfg (s.regs.r6 + 2) = true →
      exec .rti s =
        .next (takeException (.busError (s.regs.r6 + 2))
          { busStep s1 with regs := (s.regs.set .r7 pc).set .r6 (s.regs.r6 + 2) }))

/-- The four trap instructions (43_operate.md R175, R176, R178, R179): an entry through 0o14, 0o20, 0o30 or
0o34, whatever the low byte of EMT and TRAP, with the pending trace cancelled (60_exceptions.md R284). -/
def Obligations.TrapInstructions : Prop :=
  decodeWord 0o000003 = .bpt ∧ decodeWord 0o000004 = .iot ∧
  (∀ x : BitVec 8, decodeWord (BitVec.ofNat 16 (0o104000 + x.toNat)) = .emt x ∧
    decodeWord (BitVec.ofNat 16 (0o104400 + x.toNat)) = .trap x) ∧
  trapsThrough 0o14 .bpt ∧ trapsThrough 0o20 .iot ∧
  (∀ x, trapsThrough 0o30 (.emt x)) ∧ ∀ x, trapsThrough 0o34 (.trap x)

/-- Unlisted codes (30_encoding.md R100, 60_exceptions.md R280): exactly the listed ranges decode to them,
and each enters vector 0o10 and does nothing else. -/
def Obligations.UnlistedCodesTrap : Prop :=
  (∀ w : Word, isUnlisted (decodeWord w) = unlistedCode w) ∧
  ∀ i, isUnlisted i = true → trapsThrough 0o10 i

/-! ## Condition codes and branches -/

/-- The condition-code operators (45_condition_code_operators.md R220, R221): each selected flag takes S,
and nothing else changes. Exactly the codes 000240 to 000277 are of this family. -/
def Obligations.ConditionCodeOperators : Prop :=
  (∀ w : Word,
    isConditionCodeOperator (decodeWord w) = decide (0o000240 ≤ w.toNat ∧ w.toNat ≤ 0o000277)) ∧
  ∀ i s, isConditionCodeOperator i = true →
    let ir := encode i
    exec i s =
      .next { s with
        psw :=
          { s.psw with
            n := if ir.getLsbD 3 then ir.getLsbD 4 else s.psw.n
            z := if ir.getLsbD 2 then ir.getLsbD 4 else s.psw.z
            v := if ir.getLsbD 1 then ir.getLsbD 4 else s.psw.v
            c := if ir.getLsbD 0 then ir.getLsbD 4 else s.psw.c } }

/-- BR, BNE, BEQ, BPL, BMI, BVC and BVS (46_branches.md R232 to R235, R240, R241, R244, R245): their codes,
their conditions, their target; nothing but PC changes. -/
def Obligations.SimpleBranches : Prop :=
  ∀ off : BitVec 8,
    encode (.br off) = BitVec.ofNat 16 (0o000400 + off.toNat) ∧
    encode (.bne off) = BitVec.ofNat 16 (0o001000 + off.toNat) ∧
    encode (.beq off) = BitVec.ofNat 16 (0o001400 + off.toNat) ∧
    encode (.bpl off) = BitVec.ofNat 16 (0o100000 + off.toNat) ∧
    encode (.bmi off) = BitVec.ofNat 16 (0o100400 + off.toNat) ∧
    encode (.bvc off) = BitVec.ofNat 16 (0o102000 + off.toNat) ∧
    encode (.bvs off) = BitVec.ofNat 16 (0o102400 + off.toNat) ∧
    branchesWhen (.br off) off (fun _ => true) ∧
    branchesWhen (.bne off) off (fun p => p.z = false) ∧
    branchesWhen (.beq off) off (fun p => p.z = true) ∧
    branchesWhen (.bpl off) off (fun p => p.n = false) ∧
    branchesWhen (.bmi off) off (fun p => p.n = true) ∧
    branchesWhen (.bvc off) off (fun p => p.v = false) ∧
    branchesWhen (.bvs off) off (fun p => p.v = true)

/-- BGE, BLT, BGT, BLE, BHI, BLOS, BCC and BCS, and BHIS and BLO as their other names (46_branches.md R231,
R232, R236 to R239, R242, R243, R246, R247). -/
def Obligations.OrderBranches : Prop :=
  ∀ off : BitVec 8,
    encode (.bge off) = BitVec.ofNat 16 (0o002000 + off.toNat) ∧
    encode (.blt off) = BitVec.ofNat 16 (0o002400 + off.toNat) ∧
    encode (.bgt off) = BitVec.ofNat 16 (0o003000 + off.toNat) ∧
    encode (.ble off) = BitVec.ofNat 16 (0o003400 + off.toNat) ∧
    encode (.bhi off) = BitVec.ofNat 16 (0o101000 + off.toNat) ∧
    encode (.blos off) = BitVec.ofNat 16 (0o101400 + off.toNat) ∧
    encode (.bcc off) = BitVec.ofNat 16 (0o103000 + off.toNat) ∧
    encode (.bcs off) = BitVec.ofNat 16 (0o103400 + off.toNat) ∧
    encode (.bhis off) = encode (.bcc off) ∧ encode (.blo off) = encode (.bcs off) ∧
    branchesWhen (.bge off) off (fun p => p.n = p.v) ∧
    branchesWhen (.blt off) off (fun p => p.n ≠ p.v) ∧
    branchesWhen (.bgt off) off (fun p => p.z = false ∧ p.n = p.v) ∧
    branchesWhen (.ble off) off (fun p => p.z = true ∨ p.n ≠ p.v) ∧
    branchesWhen (.bhi off) off (fun p => p.c = false ∧ p.z = false) ∧
    branchesWhen (.blos off) off (fun p => p.c = true ∨ p.z = true) ∧
    branchesWhen (.bcc off) off (fun p => p.c = false) ∧
    branchesWhen (.bcs off) off (fun p => p.c = true) ∧
    branchesWhen (.bhis off) off (fun p => p.c = false) ∧
    branchesWhen (.blo off) off (fun p => p.c = true)

/-- What the branches mean after a compare (46_branches.md R248): with the flags CMP left of source `a` and
destination `b`, each branches exactly if its relation holds of them, even where the subtraction
overflowed. -/
def Obligations.BranchesAfterCompare : Prop :=
  ∀ (src dst : Operand) (s s1 s2 : State) (a b : Word) (l : Loc) (off : BitVec 8),
    sourceAndDest .word src dst s = .ok (a, l) s1 → readLoc .word l s1 = .ok b s2 →
    ∃ t, exec (.cmp src dst) s = .next t ∧
      (let goes (i : Instr) (c : Bool) : Prop := exec i t = .next (if c then jumpBy t off else t)
      goes (.beq off) (a = b) ∧ goes (.bne off) (a ≠ b) ∧
      goes (.bge off) (a.toInt ≥ b.toInt) ∧ goes (.blt off) (a.toInt < b.toInt) ∧
      goes (.bgt off) (a.toInt > b.toInt) ∧ goes (.ble off) (a.toInt ≤ b.toInt) ∧
      goes (.bhi off) (a.toNat > b.toNat) ∧ goes (.blos off) (a.toNat ≤ b.toNat) ∧
      goes (.bhis off) (a.toNat ≥ b.toNat) ∧ goes (.blo off) (a.toNat < b.toNat) ∧
      goes (.bcc off) (a.toNat ≥ b.toNat) ∧ goes (.bcs off) (a.toNat < b.toNat))

/-! ## Entries and returns -/

/-- TrapEntry (60_exceptions.md R276): PS, then PC, are pushed, PC and PS are loaded from the vector's two
words, and nothing else changes but the stack-overflow flag, and what devices do by themselves. -/
def Obligations.TrapEntryEnters : Prop :=
  ∀ (vec : Word) (s : State), Memory.wf s.mem = true → stackReady s → isOdd vec = false →
    vec.toNat + 4 ≤ memTop s.cfg →
    enteredThrough vec s (trapEntry vec s) ∧
    (trapEntry vec s).tracePending = s.tracePending ∧
    (trapEntry vec s).stackOverflowPending =
      (s.stackOverflowPending || decide (s.regs.r6.toNat < 0o404))

/-- RTI undoes an entry (60_exceptions.md R276, R288): from a state of the handler that has SP and the two
stacked words as the entry left them, no device storing to those words, it restores PC, PS and SP as they
were when the exception was taken; the other registers and all else stay as the handler left them, but for
what devices do by themselves before its two pops. -/
def Obligations.RtiUndoesEntry : Prop :=
  ∀ (e : Exception) (s h : State), Memory.wf s.mem = true → stackReady s → h.cfg = s.cfg →
    h.regs.r6 = (takeException e s).regs.r6 →
    (∀ k, (s.regs.r6 - 4).toNat ≤ k → k < s.regs.r6.toNat →
      undisturbed s k ∧ undisturbed h k ∧
        readCell h.mem k = readCell (takeException e s).mem k) →
    exec .rti h =
      .next { busStep (busStep h) with
        regs := (h.regs.set .r7 s.regs.r7).set .r6 s.regs.r6, psw := s.psw }

/-- A bus error of a push inside an entry halts the processor, SP as decreased (60_exceptions.md R282), and
it stays halted. -/
def Obligations.DoubleBusErrorHalts : Prop :=
  ∀ (vec : Word) (s : State),
    (accessFails .word s.cfg (s.regs.r6 - 2) = true →
      (trapEntry vec s).run = .halted ∧ (trapEntry vec s).regs = s.regs.set .r6 (s.regs.r6 - 2) ∧
      sameMemory s (trapEntry vec s) ∧ (trapEntry vec s).psw = s.psw ∧
      step (trapEntry vec s) = .fault .halted) ∧
    (accessFails .word s.cfg (s.regs.r6 - 2) = false →
      accessFails .word s.cfg (s.regs.r6 - 4) = true →
      (trapEntry vec s).run = .halted ∧ (trapEntry vec s).regs = s.regs.set .r6 (s.regs.r6 - 4) ∧
      step (trapEntry vec s) = .fault .halted)

/-! ## The end of an instruction -/

/-- The stack limit (60_exceptions.md R283): a push that leaves SP below 0o400 makes its access and sets the
flag, which stays set until the instruction's end; there an entry through 0o4 is made, whose own pushes do
not set it again. -/
def Obligations.StackOverflowTaken : Prop :=
  ∀ s : State, Memory.wf s.mem = true →
    (∀ (v : Word) t, push v s = .ok () t →
      t.regs = s.regs.set .r6 (s.regs.r6 - 2) ∧
      t.stackOverflowPending =
        (s.stackOverflowPending || decide ((s.regs.r6 - 2).toNat < 0o400)) ∧
      (wordInMemory s (s.regs.r6 - 2) → readCells t.mem (s.regs.r6 - 2).toNat = v)) ∧
    (s.stackOverflowPending = true → s.tracePending = false → s.run = .running → busIdle s →
      stackReady s →
      enteredThrough 0o4 s (endOfInstruction s) ∧
      (endOfInstruction s).stackOverflowPending = false)

/-- Trace (60_exceptions.md R285): T is sampled before the fetch; if it was 1 and the instruction completed
without an exception, an entry through 0o14 follows with the PC and PS the instruction left. If T was 0,
nothing follows, even if the instruction has set T. A WAIT so ends at once (43_operate.md R172), and a
HALT makes no entry (R171). That the processor runs after the entry that ends a WAIT (log 23), and that the
flag is cleared at a HALT (log 22), the spec does not say: those two are the model's reading. -/
def Obligations.TraceTakenAfterInstruction : Prop :=
  ∀ (s u v : State) (w : Word), s.run = .running →
    fetch { s with tracePending := s.psw.t } = .ok w u → exec (decodeWord w) u = .next v →
    Memory.wf v.mem = true → v.stackOverflowPending = false → busIdle v →
    (v.tracePending = true → v.run ≠ .halted → stackReady v → 0o404 ≤ v.regs.r6.toNat →
      s.psw.t = true ∧
      ∃ t, step s = .next t ∧ enteredThrough 0o14 { v with run := .running } t ∧
        t.tracePending = false) ∧
    (v.run = .halted → step s = .next { v with tracePending := false }) ∧
    (s.psw.t = false → step s = .next v)

/-- The order of an instruction's pending events (60_exceptions.md R287): trace first, stack overflow second,
each by a full entry, so that the overflow handler runs first and returns into the trace handler. -/
def Obligations.TraceThenOverflow : Prop :=
  ∀ s : State, Memory.wf s.mem = true → s.tracePending = true → s.stackOverflowPending = true →
    s.run ≠ .halted → busIdle s → isOdd s.regs.r6 = false → 0o30 ≤ s.regs.r6.toNat →
    s.regs.r6.toNat ≤ memTop s.cfg →
    let t := endOfInstruction s
    t.regs.r7 = readCells s.mem 0o4 ∧ t.psw = Psw.ofWord (readCells s.mem 0o6) ∧
    t.regs.r6 = s.regs.r6 - 8 ∧
    readCells t.mem (s.regs.r6 - 2).toNat = s.psw.toWord ∧
    readCells t.mem (s.regs.r6 - 4).toNat = s.regs.r7 ∧
    readCells t.mem (s.regs.r6 - 6).toNat = (Psw.ofWord (readCells s.mem 0o16)).toWord ∧
    readCells t.mem (s.regs.r6 - 8).toNat = readCells s.mem 0o14 ∧
    t.tracePending = false ∧ t.stackOverflowPending = false ∧ t.run = .running

/-- The interrupt check grants (60_exceptions.md R292, R294): with nothing pending, a request above the
priority is granted at the end of an instruction and while waiting: one of those of the highest level, the
first in bus order among them; its request is withdrawn, the processor runs, and its vector is entered with
the PC of the next instruction. The check sees what the devices have done up to it, in `u`. The bus order is
the model's choice (log 20). -/
def Obligations.InterruptGranted : Prop :=
  ∀ (s : State) (before after : List Device) (d : Device), Memory.wf s.mem = true → stackReady s →
    0o404 ≤ s.regs.r6.toNat → s.run ≠ .halted → s.tracePending = false →
    s.stackOverflowPending = false →
    let u := busStep s
    s.cfg.devices = before ++ d :: after → d ∈ u.irq → d ∉ before →
    (∀ e ∈ u.irq, e ∈ s.cfg.devices → deviceLevel e ≤ deviceLevel d) →
    (∀ e ∈ u.irq, e ∈ before → deviceLevel e < deviceLevel d) →
    s.psw.pri.toNat < deviceLevel d →
    enteredThrough (deviceVector d) { u with irq := removeDevice d u.irq, run := .running }
      (endOfInstruction s)

/-- The interrupt check withholds (60_exceptions.md R292, 43_operate.md R172): with nothing pending and no
request of a configured device above the priority, the end of an instruction changes nothing beside the
devices' own steps, and a waiting processor goes on waiting. With PRI = 7 no request is above it. -/
def Obligations.InterruptWithheld : Prop :=
  ∀ s : State, s.tracePending = false → s.stackOverflowPending = false →
    let u := busStep s
    ((∀ d ∈ u.irq, d ∈ s.cfg.devices → deviceLevel d ≤ s.psw.pri.toNat) ∨ s.psw.pri = 7) →
    endOfInstruction s = u ∧ (s.run = .waiting → step s = .next u)

/-- A waiting processor (43_operate.md R172): no instruction is fetched; the first request above the
priority ends the wait at once by its entry, and the pushed PC is the address after the WAIT. -/
def Obligations.WaitEndsByInterrupt : Prop :=
  ∀ (s : State) (d : Device), Memory.wf s.mem = true → stackReady s → 0o404 ≤ s.regs.r6.toNat →
    s.run = .waiting → s.tracePending = false → s.stackOverflowPending = false →
    (busStep s).irq = [d] → d ∈ s.cfg.devices → s.psw.pri.toNat < deviceLevel d →
    ∃ t, step s = .next t ∧ t.run = .running ∧
      enteredThrough (deviceVector d) { busStep s with irq := [], run := .running } t

/-- What the devices' own steps touch (20_memory.md R67, 10_state.md R31): requests, and memory where a
device with DMA is configured; no register, no PS, no flag; nothing at all when they have none to come. They
fall between any two accesses of the processor: of an `INC` between its read and its write (R68), and of
`CMP (Rr), (Rr)` between its two reads, which may so differ. -/
def Obligations.DeviceSteps : Prop :=
  ∀ s : State,
    let t := busStep s
    t.regs = s.regs ∧ t.psw = s.psw ∧ t.run = s.run ∧ t.ke = s.ke ∧ t.draws = s.draws ∧
    t.tracePending = s.tracePending ∧ t.stackOverflowPending = s.stackOverflowPending ∧
    t.cfg = s.cfg ∧ t.busEvents = s.busEvents.tail ∧ (s.busEvents = [] → t = s) ∧
    ((∀ d ∈ s.cfg.devices, deviceHasDma d = false) → t.mem = s.mem) ∧ sameMemory s t ∧
    (∀ d ∈ t.irq, d ∈ s.irq ∨ d ∈ s.cfg.devices) ∧
    (∀ r : Reg, wordInMemory s (s.regs.get r) →
      let a := (s.regs.get r).toNat
      let x := readCells t.mem a
      let u := busStep t
      exec (.inc ⟨.deferred, r⟩) s =
        .next { u with
          mem := writeCells u.mem a (x + 1)
          psw := flagged (x + 1) (decide (x.toNat = 0o077777)) s.psw.c s.psw } ∧
      ∃ v, exec (.cmp ⟨.deferred, r⟩ ⟨.deferred, r⟩) s = .next v ∧ v = { u with psw := v.psw } ∧
        (v.psw.z = true ↔ x = readCells u.mem a))

/-! ## The machine -/

/-- A step of a running machine fetches the word at PC, moves PC past it, and does what the instruction it
decodes to does, with T sampled before the fetch and the pending events served after it (10_state.md R26,
60_exceptions.md R285, R287); a fetch that raises `BusError` is taken instead (10_state.md R25). The fetch
reads what the devices' steps just before it have left, in `u`. -/
def Obligations.StepRunsDecoded : Prop :=
  ∀ s : State, s.run = .running →
    let u := busStep s
    (∀ i, wordInMemory s s.regs.r7 →
      decode [readCell u.mem s.regs.r7.toNat, readCell u.mem (s.regs.r7.toNat + 1)] = .ok (i, []) →
      i.wellFormed = true ∧
      (let s1 : State :=
        { u with tracePending := s.psw.t, regs := s.regs.set .r7 (s.regs.r7 + 2) }
      ∀ t, exec i s1 = .next t → step s = .next (endOfInstruction t))) ∧
    (accessFails .word s.cfg s.regs.r7 = true →
      step s =
        .next (endOfInstruction
          (takeException (.busError s.regs.r7) { u with tracePending := s.psw.t })))

/-- The machine goes on from every state but a halted one, whatever it executes (43_operate.md R171): no
instruction is refused, none ends the run but by halting the processor. -/
def Obligations.OnlyHaltedStops : Prop :=
  ∀ s : State,
    (∀ i, ∃ t, exec i s = .next t) ∧
    (s.run = .halted → step s = .fault .halted) ∧
    (s.run ≠ .halted → ∃ t, step s = .next t)

/-- Every step keeps memory in its canonical form. -/
def Obligations.StepKeepsCanonicalMemory : Prop :=
  ∀ s t : State, Memory.wf s.mem = true → step s = .next t → Memory.wf t.mem = true

/-- Every step keeps a sound state sound: memory canonical and below `MEM_TOP`, requests of configured
devices alone, no pending flag between instructions; and no step changes the configuration. -/
def Obligations.StepKeepsSound : Prop :=
  ∀ s t : State, s.sound = true → step s = .next t → t.sound = true ∧ t.cfg = s.cfg

/-- The start state (10_state.md R40, 70_reset_and_hazards.md R321): PC and PS at their parameters, running,
nothing pending, no request; R0 to R6 and memory kept by a console start. `State.reset` is the start of the
configuration the model names (log 3 to log 8), and is sound. -/
def Obligations.StartState : Prop :=
  State.reset = State.start startConfig ∧
  ∀ (c : Config) (s : State),
    (State.start c).sound = true ∧
    (∀ t, t = State.start c ∨ (t = consoleStart s ∧ s.cfg = c) →
      t.regs.r7 = c.entryPc ∧
      t.psw =
        { pri := c.psReset.extractLsb' 5 3, t := c.psReset.getLsbD 4, n := c.psReset.getLsbD 3,
          z := c.psReset.getLsbD 2, v := c.psReset.getLsbD 1, c := c.psReset.getLsbD 0 } ∧
      t.run = .running ∧ t.tracePending = false ∧ t.stackOverflowPending = false ∧ t.irq = [] ∧
      t.cfg = c) ∧
    sameRegsBut [.r7] s (consoleStart s) ∧ (consoleStart s).mem = s.mem
end

