-- ==== Sys2Proof/Laws/Memory.lean ====
section
/-! SUPPORT. The laws of memory as a canonical list: a read after a write, and the canonical form kept. -/

namespace Sys2Proof.Machine

@[simp] theorem readCell_nil (k : Nat) : readCell [] k = background := rfl

theorem wfFrom_mono {lo lo' : Nat} {m : Memory} (h : lo' ≤ lo) (w : wfFrom lo m = true) :
    wfFrom lo' m = true := by
  cases m with
  | nil => rfl
  | cons x m =>
    simp only [wfFrom, Bool.and_eq_true, decide_eq_true_eq] at w ⊢
    exact ⟨⟨by omega, w.1.2⟩, w.2⟩

theorem readCell_of_lt {lo k : Nat} {m : Memory} (w : wfFrom lo m = true) (h : k < lo) :
    readCell m k = background := by
  induction m generalizing lo with
  | nil => rfl
  | cons x m ih =>
    simp only [wfFrom, Bool.and_eq_true, decide_eq_true_eq] at w
    have hk : k ≠ x.1 := by omega
    simp only [readCell, hk, if_false]
    exact ih w.2 (by omega)

theorem wfFrom_writeCell {lo k : Nat} {m : Memory} (v : Byte) (w : wfFrom lo m = true) (h : lo ≤ k) :
    wfFrom lo (writeCell m k v) = true := by
  induction m generalizing lo with
  | nil =>
    by_cases hv : v = background <;> simp [writeCell, wfFrom, hv, h]
  | cons x m ih =>
    simp only [wfFrom, Bool.and_eq_true, decide_eq_true_eq] at w
    simp only [writeCell]
    by_cases h1 : k < x.1
    · by_cases hv : v = background
      · simp [h1, hv, wfFrom, w]
      · have h3 : k + 1 ≤ x.1 := by omega
        have := w.1.2
        simp [h1, hv, wfFrom, w, h, h3]
    · by_cases h2 : k = x.1
      · by_cases hv : v = background
        · simp only [h2, hv, if_true, if_false, lt_self_iff_false]
          exact wfFrom_mono (by omega) w.2
        · simp [h2, hv, wfFrom, w]
      · simp only [h1, h2, if_false, wfFrom, Bool.and_eq_true, decide_eq_true_eq]
        exact ⟨w.1, ih w.2 (by omega)⟩

/-- Reading a byte after one is written. -/
theorem readCell_writeCell (m : Memory) (w : Memory.wf m = true) (k j : Nat) (v : Byte) :
    readCell (writeCell m k v) j = if j = k then v else readCell m j := by
  suffices H : ∀ lo, wfFrom lo m = true →
      readCell (writeCell m k v) j = if j = k then v else readCell m j from H 0 w
  clear w
  induction m with
  | nil =>
    intro lo _
    by_cases hv : v = background <;> by_cases hj : j = k <;> simp [writeCell, readCell, hv, hj]
  | cons x m ih =>
    intro lo w
    simp only [wfFrom, Bool.and_eq_true, decide_eq_true_eq] at w
    simp only [writeCell]
    by_cases h1 : k < x.1
    · by_cases hv : v = background
      · by_cases hj : j = k
        · subst hj
          have hx : j ≠ x.1 := by omega
          simp only [h1, hv, if_true, readCell, hx, if_false]
          exact readCell_of_lt w.2 (by omega)
        · simp [h1, hv, hj]
      · simp [h1, hv, readCell]
    · by_cases h2 : k = x.1
      · by_cases hv : v = background
        · by_cases hj : j = k
          · subst hj
            simp only [h2, hv, if_true, if_false, lt_self_iff_false]
            exact readCell_of_lt w.2 (by omega)
          · subst h2
            simp [hv, readCell, hj]
        · subst h2
          by_cases hj : j = x.1 <;> simp [hv, readCell, hj]
      · simp only [h1, h2, if_false, readCell]
        rw [ih (x.1 + 1) w.2]
        by_cases hj : j = x.1
        · subst hj; simp [Ne.symm h2]
        · simp [hj]

/-- Writing a byte leaves every other byte alone, whatever the form of the list. -/
theorem readCell_writeCell_ne (m : Memory) {k j : Nat} (v : Byte) (h : j ≠ k) :
    readCell (writeCell m k v) j = readCell m j := by
  induction m with
  | nil => by_cases hv : v = background <;> simp [writeCell, readCell, hv, h]
  | cons x m ih =>
    simp only [writeCell]
    by_cases h1 : k < x.1
    · by_cases hv : v = background <;> simp [h1, hv, readCell, h]
    · by_cases h2 : k = x.1
      · subst h2
        by_cases hv : v = background <;> simp [hv, readCell, h]
      · simp only [h1, h2, if_false, readCell, ih]

/-- Writing a byte keeps the canonical form. -/
@[simp] theorem writeCell_wf (m : Memory) (k : Nat) (v : Byte) (w : Memory.wf m = true) :
    Memory.wf (writeCell m k v) = true :=
  wfFrom_writeCell v w (Nat.zero_le k)

/-- Writing a word keeps the canonical form. -/
@[simp] theorem writeCells_wf (m : Memory) (a : Nat) (v : Word) (w : Memory.wf m = true) :
    Memory.wf (writeCells m a v) = true :=
  writeCell_wf _ _ _ (writeCell_wf _ _ _ w)

/-- Storing a datum of either width keeps the canonical form. -/
@[simp] theorem memStore_wf (w : Width) (m : Memory) (a : Word) (v : BitVec w.bits)
    (h : Memory.wf m = true) : Memory.wf (memStore w m a v) = true := by
  cases w
  · exact writeCell_wf _ _ _ h
  · exact writeCells_wf _ _ _ h

/-- Writing bytes one after the other keeps the canonical form. -/
theorem writeBytes_wf (bs : List Byte) (m : Memory) (a : Nat) (w : Memory.wf m = true) :
    Memory.wf (writeBytes m a bs) = true := by
  induction bs generalizing m a with
  | nil => exact w
  | cons b bs ih => exact ih _ _ (writeCell_wf _ _ _ w)

/-- A list in canonical form is determined by what it reads as. -/
theorem Memory.ext_read {m m' : Memory} (w : Memory.wf m = true) (w' : Memory.wf m' = true)
    (h : ∀ k, readCell m k = readCell m' k) : m = m' := by
  suffices H : ∀ lo, wfFrom lo m = true → ∀ m', wfFrom lo m' = true →
      (∀ k, readCell m k = readCell m' k) → m = m' from H 0 w m' w' h
  clear h w w' m'
  induction m with
  | nil =>
    intro lo _ m' w' h
    cases m' with
    | nil => rfl
    | cons x m' =>
      simp only [wfFrom, Bool.and_eq_true, decide_eq_true_eq] at w'
      have := h x.1
      simp [readCell] at this
      exact absurd this.symm w'.1.2
  | cons x m ih =>
    intro lo w m' w' h
    simp only [wfFrom, Bool.and_eq_true, decide_eq_true_eq] at w
    cases m' with
    | nil =>
      have := h x.1
      simp [readCell] at this
      exact absurd this w.1.2
    | cons y m' =>
      simp only [wfFrom, Bool.and_eq_true, decide_eq_true_eq] at w'
      have hxy : x.1 = y.1 := by
        rcases Nat.lt_trichotomy x.1 y.1 with hlt | heq | hgt
        · have e := h x.1
          simp only [readCell, if_true, Nat.ne_of_lt hlt, if_false] at e
          rw [readCell_of_lt w'.2 (by omega)] at e
          exact absurd e w.1.2
        · exact heq
        · have e := h y.1
          simp only [readCell, if_true, Nat.ne_of_lt hgt, if_false] at e
          rw [readCell_of_lt w.2 (by omega)] at e
          exact absurd e.symm w'.1.2
      have hb : x.2 = y.2 := by
        have e := h x.1
        simpa [readCell, hxy] using e
      obtain ⟨xa, xb⟩ := x
      obtain ⟨ya, yb⟩ := y
      simp only at hxy hb
      subst hxy; subst hb
      congr 1
      apply ih (xa + 1) w.2 m' w'.2
      intro k
      by_cases hk : k = xa
      · subst hk
        rw [readCell_of_lt w.2 (by omega), readCell_of_lt w'.2 (by omega)]
      · simpa [readCell, hk] using h k

/-! ## Words -/

@[simp] theorem wordOfBytes_low_high (v : Word) : wordOfBytes (lowByte v) (highByte v) = v := by
  apply BitVec.eq_of_getLsbD_eq
  intro i hi
  simp only [wordOfBytes, lowByte, highByte, BitVec.getLsbD_append, BitVec.getLsbD_extractLsb']
  by_cases h : i < 8
  · simp [h]
  · have h8 : 8 + (i - 8) = i := by omega
    have h9 : i - 8 < 8 := by omega
    simp [h, h8, h9]

@[simp] theorem lowByte_wordOfBytes (lo hi : Byte) : lowByte (wordOfBytes lo hi) = lo := by
  apply BitVec.eq_of_getLsbD_eq
  intro i h
  simp only [lowByte, wordOfBytes, BitVec.getLsbD_extractLsb', BitVec.getLsbD_append]
  simp [h]

@[simp] theorem highByte_wordOfBytes (lo hi : Byte) : highByte (wordOfBytes lo hi) = hi := by
  apply BitVec.eq_of_getLsbD_eq
  intro i h
  simp only [highByte, wordOfBytes, BitVec.getLsbD_extractLsb', BitVec.getLsbD_append]
  simp [h]

/-- Reading a byte after a word is written. -/
theorem readCell_writeCells (m : Memory) (w : Memory.wf m = true) (a j : Nat) (v : Word) :
    readCell (writeCells m a v) j =
      if j = a then lowByte v else if j = a + 1 then highByte v else readCell m j := by
  simp only [writeCells]
  rw [readCell_writeCell _ (writeCell_wf _ _ _ w), readCell_writeCell _ w]
  by_cases h1 : j = a
  · subst h1; simp
  · by_cases h2 : j = a + 1 <;> simp [h1, h2]

/-- Reading a word where one was just written. -/
@[simp] theorem readCells_writeCells_same (m : Memory) (w : Memory.wf m = true) (a : Nat) (v : Word) :
    readCells (writeCells m a v) a = v := by
  simp [readCells, readCell_writeCells _ w]

/-- Reading a word that does not touch the word just written. -/
theorem readCells_writeCells_ne (m : Memory) (w : Memory.wf m = true) (a b : Nat) (v : Word)
    (h : b + 2 ≤ a ∨ a + 2 ≤ b) : readCells (writeCells m a v) b = readCells m b := by
  have h1 : b ≠ a := by omega
  have h2 : b ≠ a + 1 := by omega
  have h4 : b + 1 ≠ a := by omega
  have h3 : ¬ b + 1 = a + 1 := by omega
  simp only [readCells, readCell_writeCells _ w, h1, h2, h3, h4, if_false]

/-- Reading a byte outside a stored datum. -/
theorem readCell_memStore_outside (w : Width) (m : Memory) (a : Word) (v : BitVec w.bits) (k : Nat)
    (hk : k < a.toNat ∨ a.toNat + widthBytes w ≤ k) :
    readCell (memStore w m a v) k = readCell m k := by
  cases w
  · simp only [widthBytes] at hk
    exact readCell_writeCell_ne m v (by omega)
  · simp only [widthBytes] at hk
    exact (readCell_writeCell_ne _ _ (by omega)).trans (readCell_writeCell_ne m _ (by omega))

/-- Reading a datum where one was just stored. -/
@[simp] theorem memDatum_memStore_same (w : Width) (m : Memory) (h : Memory.wf m = true) (a : Word)
    (v : BitVec w.bits) : memDatum w (memStore w m a v) a = v := by
  cases w
  · simp [memDatum, memStore, readCell_writeCell _ h]
  · simp [memDatum, memStore, h]

/-! ## Addresses listed -/

theorem all_lt_writeCell {top : Nat} {m : Memory} (k : Nat) (v : Byte)
    (h : (m.all fun x => decide (x.1 < top)) = true) (hk : k < top) :
    ((writeCell m k v).all fun x => decide (x.1 < top)) = true := by
  induction m with
  | nil => by_cases hv : v = background <;> simp [writeCell, hv, hk]
  | cons x m ih =>
    simp only [List.all_cons, Bool.and_eq_true, decide_eq_true_eq] at h
    have ih := ih h.2
    simp only [writeCell]
    by_cases h1 : k < x.1
    · by_cases hv : v = background <;> simp only [h1, hv, if_true, if_false, List.all_cons, h, hk] <;> simp
    · by_cases h2 : k = x.1
      · by_cases hv : v = background
        · simp only [h2, hv, lt_self_iff_false, if_true, if_false, h.2]
        · simp only [h2, hv, lt_self_iff_false, if_true, if_false, List.all_cons, h]; simp
      · simp only [h1, h2, if_false, List.all_cons, h.1, ih]; simp

end Sys2Proof.Machine
end

