-- ==== Sys2Proof/Laws/State.lean ====
section
/-! SUPPORT. The small lemmas of the state's updates: what each field is after each of them. -/

namespace Sys2Proof.Machine

/-! ## The register file -/

@[simp] theorem Regs.get_set_same (g : Regs) (i : Reg) (v : Word) : (g.set i v).get i = v := by
  cases i <;> rfl

@[simp] theorem Regs.get_set_ne (g : Regs) {i j : Reg} (v : Word) (h : j ≠ i) :
    (g.set i v).get j = g.get j := by
  cases i <;> cases j <;> first | rfl | exact absurd rfl h

theorem Regs.get_set (g : Regs) (i j : Reg) (v : Word) :
    (g.set i v).get j = if j = i then v else g.get j := by
  by_cases h : j = i
  · subst h; simp
  · simp [h]

@[simp] theorem Regs.set_set (g : Regs) (i : Reg) (v w : Word) : (g.set i v).set i w = g.set i w := by
  cases i <;> rfl

@[simp] theorem Regs.set_get (g : Regs) (i : Reg) : g.set i (g.get i) = g := by
  cases i <;> rfl

@[simp] theorem Regs.get_r6 (g : Regs) : g.get .r6 = g.r6 := rfl
@[simp] theorem Regs.get_r7 (g : Regs) : g.get .r7 = g.r7 := rfl
@[simp] theorem Regs.set_r6_r6 (g : Regs) (v : Word) : (g.set .r6 v).r6 = v := rfl
@[simp] theorem Regs.set_r6_r7 (g : Regs) (v : Word) : (g.set .r6 v).r7 = g.r7 := rfl
@[simp] theorem Regs.set_r7_r6 (g : Regs) (v : Word) : (g.set .r7 v).r6 = g.r6 := rfl
@[simp] theorem Regs.set_r7_r7 (g : Regs) (v : Word) : (g.set .r7 v).r7 = v := rfl

theorem Regs.ext_get {g h : Regs} (e : ∀ i, g.get i = h.get i) : g = h := by
  cases g; cases h
  have h0 := e .r0; have h1 := e .r1; have h2 := e .r2; have h3 := e .r3
  have h4 := e .r4; have h5 := e .r5; have h6 := e .r6; have h7 := e .r7
  simp_all [Regs.get]

/-! ## `setReg` -/

section
variable (s : State) (i : Reg) (v : Word)
@[simp] theorem State.setReg_regs : (s.setReg i v).regs = s.regs.set i v := rfl
@[simp] theorem State.setReg_psw : (s.setReg i v).psw = s.psw := rfl
@[simp] theorem State.setReg_mem : (s.setReg i v).mem = s.mem := rfl
@[simp] theorem State.setReg_run : (s.setReg i v).run = s.run := rfl
@[simp] theorem State.setReg_tracePending : (s.setReg i v).tracePending = s.tracePending := rfl
@[simp] theorem State.setReg_stackOverflowPending :
    (s.setReg i v).stackOverflowPending = s.stackOverflowPending := rfl
@[simp] theorem State.setReg_irq : (s.setReg i v).irq = s.irq := rfl
@[simp] theorem State.setReg_ke : (s.setReg i v).ke = s.ke := rfl
@[simp] theorem State.setReg_draws : (s.setReg i v).draws = s.draws := rfl
@[simp] theorem State.setReg_busEvents : (s.setReg i v).busEvents = s.busEvents := rfl
@[simp] theorem State.setReg_cfg : (s.setReg i v).cfg = s.cfg := rfl
end

/-! ## `setPsw` -/

section
variable (s : State) (p : Psw)
@[simp] theorem State.setPsw_regs : (s.setPsw p).regs = s.regs := rfl
@[simp] theorem State.setPsw_psw : (s.setPsw p).psw = p := rfl
@[simp] theorem State.setPsw_mem : (s.setPsw p).mem = s.mem := rfl
@[simp] theorem State.setPsw_run : (s.setPsw p).run = s.run := rfl
@[simp] theorem State.setPsw_tracePending : (s.setPsw p).tracePending = s.tracePending := rfl
@[simp] theorem State.setPsw_stackOverflowPending :
    (s.setPsw p).stackOverflowPending = s.stackOverflowPending := rfl
@[simp] theorem State.setPsw_irq : (s.setPsw p).irq = s.irq := rfl
@[simp] theorem State.setPsw_ke : (s.setPsw p).ke = s.ke := rfl
@[simp] theorem State.setPsw_draws : (s.setPsw p).draws = s.draws := rfl
@[simp] theorem State.setPsw_busEvents : (s.setPsw p).busEvents = s.busEvents := rfl
@[simp] theorem State.setPsw_cfg : (s.setPsw p).cfg = s.cfg := rfl
@[simp] theorem State.setPsw_setPsw (q : Psw) : (s.setPsw p).setPsw q = s.setPsw q := rfl
end

/-! ## `store` -/

section
variable (s : State) (w : Width) (a : Word) (v : BitVec w.bits)
@[simp] theorem State.store_regs : (s.store w a v).regs = s.regs := by
  unfold State.store; split <;> rfl
@[simp] theorem State.store_run : (s.store w a v).run = s.run := by
  unfold State.store; split <;> rfl
@[simp] theorem State.store_tracePending : (s.store w a v).tracePending = s.tracePending := by
  unfold State.store; split <;> rfl
@[simp] theorem State.store_stackOverflowPending :
    (s.store w a v).stackOverflowPending = s.stackOverflowPending := by
  unfold State.store; split <;> rfl
@[simp] theorem State.store_irq : (s.store w a v).irq = s.irq := by
  unfold State.store; split <;> rfl
@[simp] theorem State.store_draws : (s.store w a v).draws = s.draws := by
  unfold State.store; split <;> rfl
@[simp] theorem State.store_busEvents : (s.store w a v).busEvents = s.busEvents := by
  unfold State.store; split <;> rfl
@[simp] theorem State.store_cfg : (s.store w a v).cfg = s.cfg := by
  unfold State.store; split <;> rfl

/-- A store to memory changes memory alone. -/
theorem State.store_memory (h : place s.cfg a = .memory) :
    s.store w a v = { s with mem := memStore w s.mem a v } := by
  simp [State.store, h]

/-- A store to PS changes PS alone. -/
theorem State.store_ps (h : place s.cfg a = .ps) :
    s.store w a v = s.setPsw (pswStore w s.psw s.cfg.tWritableByStore a v) := by
  simp [State.store, h]

/-- A store to the KE11-A changes its registers alone. -/
theorem State.store_ke11a (h : place s.cfg a = .ke11a) :
    s.store w a v = { s with ke := keWrite w s.ke a v } := by
  simp [State.store, h]

/-- A store anywhere else leaves memory as it was. -/
theorem State.store_mem_of_ne (h : place s.cfg a ≠ .memory) : (s.store w a v).mem = s.mem := by
  unfold State.store; split <;> first | rfl | (exact absurd ‹_› h)

/-- A store anywhere else leaves PS as it was. -/
theorem State.store_psw_of_ne (h : place s.cfg a ≠ .ps) : (s.store w a v).psw = s.psw := by
  unfold State.store; split <;> first | rfl | (exact absurd ‹_› h)

/-- A store anywhere else leaves the KE11-A as it was. -/
theorem State.store_ke_of_ne (h : place s.cfg a ≠ .ke11a) : (s.store w a v).ke = s.ke := by
  unfold State.store; split <;> first | rfl | (exact absurd ‹_› h)
end

/-! ## `resetDevices` -/

section
variable (s : State)
@[simp] theorem State.resetDevices_regs : s.resetDevices.regs = s.regs := rfl
@[simp] theorem State.resetDevices_psw : s.resetDevices.psw = s.psw := rfl
@[simp] theorem State.resetDevices_mem : s.resetDevices.mem = s.mem := rfl
@[simp] theorem State.resetDevices_run : s.resetDevices.run = s.run := rfl
@[simp] theorem State.resetDevices_tracePending : s.resetDevices.tracePending = s.tracePending := rfl
@[simp] theorem State.resetDevices_stackOverflowPending :
    s.resetDevices.stackOverflowPending = s.stackOverflowPending := rfl
@[simp] theorem State.resetDevices_irq : s.resetDevices.irq = [] := rfl
@[simp] theorem State.resetDevices_draws : s.resetDevices.draws = s.draws := rfl
@[simp] theorem State.resetDevices_busEvents : s.resetDevices.busEvents = s.busEvents := rfl
@[simp] theorem State.resetDevices_cfg : s.resetDevices.cfg = s.cfg := rfl
end

/-! ## `consumePending` -/

section
variable (s : State)
@[simp] theorem consumePending_regs : (consumePending s).regs = s.regs := rfl
@[simp] theorem consumePending_psw : (consumePending s).psw = s.psw := rfl
@[simp] theorem consumePending_mem : (consumePending s).mem = s.mem := rfl
@[simp] theorem consumePending_run : (consumePending s).run = s.run := rfl
@[simp] theorem consumePending_tracePending : (consumePending s).tracePending = false := rfl
@[simp] theorem consumePending_stackOverflowPending :
    (consumePending s).stackOverflowPending = false := rfl
@[simp] theorem consumePending_irq : (consumePending s).irq = s.irq := rfl
@[simp] theorem consumePending_ke : (consumePending s).ke = s.ke := rfl
@[simp] theorem consumePending_draws : (consumePending s).draws = s.draws := rfl
@[simp] theorem consumePending_busEvents : (consumePending s).busEvents = s.busEvents := rfl
@[simp] theorem consumePending_cfg : (consumePending s).cfg = s.cfg := rfl
end

/-! ## `sampleTrace` -/

section
variable (s : State)
@[simp] theorem sampleTrace_regs : (sampleTrace s).regs = s.regs := rfl
@[simp] theorem sampleTrace_psw : (sampleTrace s).psw = s.psw := rfl
@[simp] theorem sampleTrace_mem : (sampleTrace s).mem = s.mem := rfl
@[simp] theorem sampleTrace_run : (sampleTrace s).run = s.run := rfl
@[simp] theorem sampleTrace_tracePending : (sampleTrace s).tracePending = s.psw.t := rfl
@[simp] theorem sampleTrace_stackOverflowPending :
    (sampleTrace s).stackOverflowPending = s.stackOverflowPending := rfl
@[simp] theorem sampleTrace_irq : (sampleTrace s).irq = s.irq := rfl
@[simp] theorem sampleTrace_ke : (sampleTrace s).ke = s.ke := rfl
@[simp] theorem sampleTrace_draws : (sampleTrace s).draws = s.draws := rfl
@[simp] theorem sampleTrace_busEvents : (sampleTrace s).busEvents = s.busEvents := rfl
@[simp] theorem sampleTrace_cfg : (sampleTrace s).cfg = s.cfg := rfl
end

end Sys2Proof.Machine
end

