-- ==== Sys2Proof/Laws/Bus.lean ====
section
/-! SUPPORT. What the devices' own steps can do, and what they leave alone. -/

namespace Sys2Proof.Machine

/-! ## The fields after the devices' steps -/

section
variable (s : State)
@[simp] theorem busStep_regs : (busStep s).regs = s.regs := rfl
@[simp] theorem busStep_psw : (busStep s).psw = s.psw := rfl
@[simp] theorem busStep_run : (busStep s).run = s.run := rfl
@[simp] theorem busStep_tracePending : (busStep s).tracePending = s.tracePending := rfl
@[simp] theorem busStep_stackOverflowPending :
    (busStep s).stackOverflowPending = s.stackOverflowPending := rfl
@[simp] theorem busStep_ke : (busStep s).ke = s.ke := rfl
@[simp] theorem busStep_draws : (busStep s).draws = s.draws := rfl
@[simp] theorem busStep_cfg : (busStep s).cfg = s.cfg := rfl
@[simp] theorem busStep_busEvents : (busStep s).busEvents = s.busEvents.tail := rfl
@[simp] theorem busStep_setReg (i : Reg) (v : Word) :
    busStep (s.setReg i v) = (busStep s).setReg i v := rfl
@[simp] theorem busStep_setPsw (p : Psw) : busStep (s.setPsw p) = (busStep s).setPsw p := rfl
end

/-- Devices that make no step any more change nothing. -/
theorem busStep_idle {s : State} (h : s.busEvents = []) : busStep s = s := by
  cases s
  simp only at h
  subst h
  rfl

/-! ## Memory -/

/-- What one event does to memory: nothing, or one store of a device to an address of memory. -/
theorem memoryAfter_cases (c : Config) (m : Memory) (e : BusEvent) :
    memoryAfter c m e = m ∨ ∃ w a, ∃ v : BitVec (Width.bits w), accessFails w c a = false ∧
      place c a = .memory ∧ memoryAfter c m e = memStore w m a v := by
  cases e with
  | storeByte d a b =>
    by_cases h : dmaReaches c d .byte a = true
    · have h' := h
      simp only [dmaReaches, Bool.and_eq_true, decide_eq_true_eq, Bool.not_eq_true'] at h'
      exact .inr ⟨.byte, a, b, h'.1.2, h'.2, by simp only [memoryAfter, h, if_true]⟩
    · exact .inl (by simp only [memoryAfter, h]; rfl)
  | storeWord d a v =>
    by_cases h : dmaReaches c d .word a = true
    · have h' := h
      simp only [dmaReaches, Bool.and_eq_true, decide_eq_true_eq, Bool.not_eq_true'] at h'
      exact .inr ⟨.word, a, v, h'.1.2, h'.2, by simp only [memoryAfter, h, if_true]⟩
    · exact .inl (by simp only [memoryAfter, h]; rfl)
  | request d => exact .inl rfl
  | withdraw d => exact .inl rfl

theorem memoryAfter_wf (c : Config) {m : Memory} (e : BusEvent) (h : Memory.wf m = true) :
    Memory.wf (memoryAfter c m e) = true := by
  obtain e | ⟨w, a, v, -, -, e⟩ := memoryAfter_cases c m e <;> rw [e]
  · exact h
  · exact memStore_wf w m a v h

/-- An event changes only the bytes it stores to. -/
theorem readCell_memoryAfter (c : Config) (m : Memory) (e : BusEvent) {k : Nat}
    (hk : e.storesTo c k = false) : readCell (memoryAfter c m e) k = readCell m k := by
  cases e with
  | storeByte d a b =>
    simp only [memoryAfter]
    split
    · rename_i hd
      simp only [BusEvent.storesTo, hd, Bool.true_and, beq_eq_false_iff_ne] at hk
      exact readCell_writeCell_ne m b hk
    · rfl
  | storeWord d a v =>
    simp only [memoryAfter]
    split
    · rename_i hd
      simp only [BusEvent.storesTo, hd, Bool.true_and, Bool.or_eq_false_iff,
        beq_eq_false_iff_ne] at hk
      exact readCell_memStore_outside .word m a v k (by simp only [widthBytes]; omega)
    · rfl
  | request d => rfl
  | withdraw d => rfl

/-- The devices' steps keep the canonical form of memory. -/
theorem busStep_wf {s : State} (h : Memory.wf s.mem = true) : Memory.wf (busStep s).mem = true := by
  show Memory.wf (s.eventsNow.foldl (memoryAfter s.cfg) s.mem) = true
  generalize s.mem = m at h
  induction s.eventsNow generalizing m with
  | nil => exact h
  | cons e l ih => exact ih _ (memoryAfter_wf s.cfg e h)

/-- What the events of a list leave alone. -/
theorem readCell_foldl_memoryAfter (c : Config) {l : List BusEvent} (m : Memory) {k : Nat} (hk : ∀ e ∈ l, e.storesTo c k = false) :
    readCell (l.foldl (memoryAfter c) m) k = readCell m k := by
  induction l generalizing m with
  | nil => rfl
  | cons e l ih =>
    rw [List.foldl_cons, ih _ fun x hx => hk x (List.mem_cons_of_mem _ hx),
      readCell_memoryAfter c m e (hk e (List.mem_cons_self ..))]

theorem eventsNow_forall {s : State} {p : BusEvent → Prop}
    (h : ∀ slot ∈ s.busEvents, ∀ e ∈ slot, p e) : ∀ e ∈ s.eventsNow, p e := by
  unfold State.eventsNow
  cases hs : s.busEvents with
  | nil => simp
  | cons a l => exact h a (by simp [hs])

/-- The devices' steps leave an undisturbed byte alone. -/
theorem busStep_readCell {s : State} {k : Nat} (hk : undisturbed s k) :
    readCell (busStep s).mem k = readCell s.mem k :=
  readCell_foldl_memoryAfter s.cfg s.mem (eventsNow_forall hk)

theorem busStep_readCells {s : State} {a : Word} (hk : wordUndisturbed s a) :
    readCells (busStep s).mem a.toNat = readCells s.mem a.toNat := by
  simp only [readCells, busStep_readCell hk.1, busStep_readCell hk.2]

/-- No store reaches memory where no device with DMA is configured. -/
theorem dmaReaches_of_noDma {c : Config} (h : ∀ d ∈ c.devices, deviceHasDma d = false) (d : Device)
    (w : Width) (a : Word) : dmaReaches c d w a = false := by
  by_cases hm : d ∈ c.devices
  · simp [dmaReaches, h d hm]
  · simp [dmaReaches, hm]

/-- Steps of devices without DMA leave memory alone. -/
theorem busStep_mem_of_noDma {s : State} (h : ∀ d ∈ s.cfg.devices, deviceHasDma d = false) :
    (busStep s).mem = s.mem := by
  have hd := dmaReaches_of_noDma h
  have he : ∀ e, memoryAfter s.cfg s.mem e = s.mem := by
    intro e; cases e <;> simp [memoryAfter, hd]
  show s.eventsNow.foldl (memoryAfter s.cfg) s.mem = s.mem
  induction s.eventsNow with
  | nil => rfl
  | cons e l ih => rw [List.foldl_cons, he]; exact ih

/-- Where no device with DMA is configured, every byte is undisturbed. -/
theorem undisturbed_of_noDma {s : State} (h : ∀ d ∈ s.cfg.devices, deviceHasDma d = false) (k : Nat) :
    undisturbed s k := by
  have hd := dmaReaches_of_noDma h
  intro slot _ e _
  cases e <;> simp [BusEvent.storesTo, hd]

/-! ## Requests -/

/-- Steps that are stores leave the requests alone. -/
theorem busStep_irq {s : State} (h : requestsUndisturbed s) : (busStep s).irq = s.irq := by
  show s.eventsNow.foldl (requestsAfter s.cfg) s.irq = s.irq
  have hs := eventsNow_forall h
  generalize s.irq = q
  generalize s.eventsNow = l at hs
  induction l with
  | nil => rfl
  | cons e l ih =>
    have he := hs e (List.mem_cons_self ..)
    rw [List.foldl_cons]
    have : requestsAfter s.cfg q e = q := by cases e <;> first | rfl | cases he
    rw [this]
    exact ih fun x hx => hs x (List.mem_cons_of_mem _ hx)

/-! ## What stays undisturbed -/

theorem undisturbed_of_suffix {s t : State} {k : Nat} (h : t.busEvents <:+ s.busEvents)
    (hc : t.cfg = s.cfg) (hk : undisturbed s k) : undisturbed t k := by
  intro slot hs e he
  rw [hc]; exact hk slot (h.subset hs) e he

theorem wordUndisturbed_of_suffix {s t : State} {a : Word} (h : t.busEvents <:+ s.busEvents)
    (hc : t.cfg = s.cfg) (hk : wordUndisturbed s a) : wordUndisturbed t a :=
  ⟨undisturbed_of_suffix h hc hk.1, undisturbed_of_suffix h hc hk.2⟩

theorem requestsUndisturbed_of_suffix {s t : State} (h : t.busEvents <:+ s.busEvents)
    (hk : requestsUndisturbed s) : requestsUndisturbed t :=
  fun slot hs => hk slot (h.subset hs)

theorem undisturbed_of_idle {s : State} (h : s.busEvents = []) (k : Nat) : undisturbed s k := by
  intro slot hs; rw [h] at hs; cases hs

theorem wordUndisturbed_of_idle {s : State} (h : s.busEvents = []) (a : Word) : wordUndisturbed s a :=
  ⟨undisturbed_of_idle h _, undisturbed_of_idle h _⟩

/-- A bus on which nothing awaits stays so while the devices alone act. -/
theorem busIdle_of_devicesOnly {s t : State} (h : busIdle s) (k : devicesOnly s t) : busIdle t :=
  ⟨List.suffix_nil.1 (h.1 ▸ k.1),
    (k.2 fun slot hs => by rw [h.1] at hs; cases hs).trans h.2⟩

/-- The devices' steps do what devices do, and no more. -/
theorem busStep_devicesOnly (s : State) : devicesOnly s (busStep s) :=
  ⟨List.tail_suffix _, busStep_irq⟩

theorem devicesOnly.refl (s : State) : devicesOnly s s :=
  ⟨List.suffix_refl _, fun _ => rfl⟩

theorem devicesOnly.trans {s t u : State} (h : devicesOnly s t) (k : devicesOnly t u) :
    devicesOnly s u :=
  ⟨k.1.trans h.1, fun r => (k.2 (requestsUndisturbed_of_suffix h.1 r)).trans (h.2 r)⟩

end Sys2Proof.Machine
end

