-- ==== Sys2Proof/Laws/Decode.lean ====
section
/-! SUPPORT. The fields of an encoding: each code is in its range, and names what it was made from. -/

namespace Sys2Proof

theorem Reg.code_lt (r : Reg) : r.code < 8 := by cases r <;> decide
theorem Mode.code_lt (m : Mode) : m.code < 8 := by cases m <;> decide

theorem Operand.code_lt (o : Operand) : o.code < 64 := by
  have := o.mode.code_lt; have := o.reg.code_lt
  unfold Operand.code; omega

@[simp] theorem Reg.ofCode_code (r : Reg) : Reg.ofCode r.code = r := by cases r <;> rfl
@[simp] theorem Mode.ofCode_code (m : Mode) : Mode.ofCode m.code = m := by cases m <;> rfl

theorem Reg.ofCode_mod (n : Nat) : Reg.ofCode (n % 8) = Reg.ofCode n := by
  simp [Reg.ofCode]

theorem Mode.ofCode_mod (n : Nat) : Mode.ofCode (n % 8) = Mode.ofCode n := by
  simp [Mode.ofCode]

/-- A register field is read from the lowest three bits, whatever stands above. -/
theorem Reg.ofCode_of_mod {n : Nat} {r : Reg} (h : n % 8 = r.code) : Reg.ofCode n = r := by
  rw [← Reg.ofCode_mod, h, Reg.ofCode_code]

/-- An operand field is read from the lowest six bits, whatever stands above. -/
theorem Operand.ofCode_of_mod {n : Nat} {o : Operand} (h : n % 64 = o.code) :
    Operand.ofCode n = o := by
  have hr := o.reg.code_lt
  have hm := o.mode.code_lt
  unfold Operand.code at h
  have h1 : n % 8 = o.reg.code := by omega
  have h2 : n / 8 % 8 = o.mode.code := by omega
  simp only [Operand.ofCode]
  rw [Reg.ofCode_of_mod h1, ← Mode.ofCode_mod, h2, Mode.ofCode_code]

theorem Reg.code_ofCode (n : Nat) : (Reg.ofCode n).code = n % 8 := by
  have : n % 8 < 8 := Nat.mod_lt _ (by decide)
  rw [← Reg.ofCode_mod]
  generalize n % 8 = k at *
  interval_cases k <;> rfl

theorem Mode.code_ofCode (n : Nat) : (Mode.ofCode n).code = n % 8 := by
  have : n % 8 < 8 := Nat.mod_lt _ (by decide)
  rw [← Mode.ofCode_mod]
  generalize n % 8 = k at *
  interval_cases k <;> rfl

theorem Operand.code_ofCode (n : Nat) : (Operand.ofCode n).code = n % 64 := by
  simp only [Operand.ofCode, Operand.code, Mode.code_ofCode, Reg.code_ofCode]
  omega

end Sys2Proof
end

