-- ==== Sys2Proof/Laws/Ops.lean ====
section
/-! SUPPORT. One lemma per shared operation: everything it can do. The `_ok` and `_error` lemmas invert an
operation's answer; the `_eq` lemmas run it. -/

namespace Sys2Proof.Machine

/-! ## Sequencing -/

@[simp] theorem Exec.pure_apply {α : Type} (a : α) (s : State) : (pure a : Exec α) s = .ok a s := rfl

theorem Exec.bind_apply {α β : Type} (x : Exec α) (f : α → Exec β) (s : State) :
    (x >>= f) s = match x s with
      | .ok a t => f a t
      | .error e t => .error e t := by
  show EStateM.bind x f s = _
  unfold EStateM.bind
  cases x s <;> rfl

@[simp] theorem Exec.get_apply (s : State) : (get : Exec State) s = .ok s s := rfl

theorem Exec.bind_eq {α β : Type} {x : Exec α} {f : α → Exec β} {s : State} {a : α} {t : State}
    (h : x s = .ok a t) : (x >>= f) s = f a t := by
  simp [Exec.bind_apply, h]

theorem Exec.bind_eq_error {α β : Type} {x : Exec α} {f : α → Exec β} {s : State} {e : Exception}
    {t : State} (h : x s = .error e t) : (x >>= f) s = .error e t := by
  simp [Exec.bind_apply, h]

/-- A sequence that completes: its first part did, and then its second. -/
theorem Exec.bind_ok {α β : Type} {x : Exec α} {f : α → Exec β} {s t : State} {b : β}
    (h : (x >>= f) s = .ok b t) : ∃ a u, x s = .ok a u ∧ f a u = .ok b t := by
  rw [Exec.bind_apply] at h
  split at h
  · exact ⟨_, _, ‹_›, h⟩
  · cases h

/-- A sequence that raises: its first part did, or its second after it. -/
theorem Exec.bind_error {α β : Type} {x : Exec α} {f : α → Exec β} {s t : State} {e : Exception}
    (h : (x >>= f) s = .error e t) :
    x s = .error e t ∨ ∃ a u, x s = .ok a u ∧ f a u = .error e t := by
  rw [Exec.bind_apply] at h
  split at h
  · exact .inr ⟨_, _, ‹_›, h⟩
  · left; rename_i h1; cases h; exact h1

/-! ## Registers -/

@[simp] theorem getReg_apply (i : Reg) (s : State) : getReg i s = .ok (s.regs.get i) s := rfl
@[simp] theorem setReg_apply (i : Reg) (v : Word) (s : State) :
    setReg i v s = .ok () (s.setReg i v) := rfl
@[simp] theorem modifyPsw_apply (f : Psw → Psw) (s : State) :
    modifyPsw f s = .ok () (s.setPsw (f s.psw)) := rfl
@[simp] theorem raise_apply {α : Type} (e : Exception) (s : State) :
    (raise e : Exec α) s = .error e s := rfl

theorem stackCheck_apply (s : State) :
    stackCheck s =
      .ok () (if s.regs.r6 < stackLimit then { s with stackOverflowPending := true } else s) := rfl

/-! ## Addresses -/

theorem isOdd_eq (a : Word) : isOdd a = decide (a.toNat % 2 = 1) := by
  simp [isOdd, BitVec.getLsbD, Nat.testBit_zero]

theorem place_memory_iff (c : Config) (a : Word) : place c a = .memory ↔ a.toNat < memTop c := by
  unfold place
  split
  · simp_all
  · split
    · simp_all
    · split
      · simp_all
      · split
        · simp_all
        · split <;> simp_all

theorem memTop_pos (c : Config) : 0o020000 ≤ memTop c := by
  unfold memTop memSizeTop; split <;> omega

theorem memTop_le (c : Config) : memTop c ≤ 0o160000 := by
  unfold memTop memSizeTop; split <;> omega

theorem memTop_even (c : Config) : memTop c % 2 = 0 := by
  unfold memTop memSizeTop; split <;> omega

theorem place_high (c : Config) {a : Word} (h : 0o160000 ≤ a.toNat) : ¬ a.toNat < memTop c := by
  have := memTop_le c; omega

/-- PS answers at its two byte addresses. -/
theorem place_ps (c : Config) {a : Word} (h : a = 0o177776 ∨ a = 0o177777) : place c a = .ps := by
  rcases h with rfl | rfl <;>
    (unfold place; rw [if_neg (place_high c (by decide)), if_pos (by decide)])

/-- The switch register answers at its two byte addresses. -/
theorem place_swr (c : Config) {a : Word} (h : a = 0o177570 ∨ a = 0o177571) : place c a = .swr := by
  rcases h with rfl | rfl <;>
    (unfold place; rw [if_neg (place_high c (by decide)), if_neg (by decide), if_pos (by decide)])

/-- The KE11-A, if present, answers at its sixteen byte addresses. -/
theorem place_ke11a (c : Config) {a : Word} (hk : c.hasKe11a = true) (h : 0o177300 ≤ a.toNat)
    (h' : a.toNat ≤ 0o177317) : place c a = .ke11a := by
  have he : (evenAddress a).toNat ≤ a.toNat := by
    simp only [evenAddress, BitVec.toNat_and]; exact Nat.and_le_left
  unfold place
  rw [if_neg (place_high c (by omega)), if_neg, if_neg, if_pos]
  · simp only [hk, Bool.true_and, Bool.and_eq_true, decide_eq_true_eq]; exact ⟨h, h'⟩
  · intro e; rw [e] at he; simp [swrAddress] at he; omega
  · intro e; rw [e] at he; simp [psAddress] at he; omega

/-- A word of memory: an even address below `MEM_TOP` takes a word access. -/
theorem accessible_of_wordInMemory {s : State} {a : Word} (h : wordInMemory s a) :
    accessFails .word s.cfg a = false := by
  have := (place_memory_iff s.cfg a).2 h.2
  simp [accessFails, h.1, existsAt, this]

theorem accessible_byte_of_lt {s : State} {a : Word} (h : a.toNat < memTop s.cfg) :
    accessFails .byte s.cfg a = false := by
  have := (place_memory_iff s.cfg a).2 h
  simp [accessFails, existsAt, this]

theorem place_ne_nothing_of_accessible {w : Width} {c : Config} {a : Word}
    (h : accessFails w c a = false) : place c a ≠ .nothing := by
  simp [accessFails, existsAt] at h
  exact h.2

/-! ## MemRead and MemWrite -/

/-- What a read at this moment can do: fail for its address, or answer and change nothing but the count of
draws; from memory it answers the datum there and changes nothing. -/
theorem readNow_cases (w : Width) (a : Word) (s : State) :
    (accessFails w s.cfg a = true ∧ readNow w a s = .error (.busError a) s) ∨
      (accessFails w s.cfg a = false ∧ ∃ v n, readNow w a s = .ok v { s with draws := n } ∧
        (place s.cfg a = .memory → v = memDatum w s.mem a ∧ n = s.draws)) := by
  by_cases hf : accessFails w s.cfg a = true
  · exact .inl ⟨hf, by simp [readNow, hf]⟩
  · have hf : accessFails w s.cfg a = false := by simpa using hf
    refine .inr ⟨hf, ?_⟩
    simp only [readNow, hf, Bool.false_eq_true, if_false]
    cases hp : place s.cfg a
    case memory => exact ⟨_, s.draws, rfl, fun _ => ⟨rfl, rfl⟩⟩
    case nothing => exact absurd hp (place_ne_nothing_of_accessible hf)
    case ps | ke11a => exact ⟨_, s.draws, rfl, fun h => nomatch h⟩
    all_goals exact ⟨_, s.draws + 1, rfl, fun h => nomatch h⟩

/-- Reading memory proper. -/
theorem memRead_memory {w : Width} {a : Word} {s : State} (h : accessFails w s.cfg a = false)
    (hp : place s.cfg a = .memory) :
    memRead w a s = .ok (memDatum w (busStep s).mem a) (busStep s) := by
  simp [memRead, readNow, h, hp]

/-- A read that completes was of an accessible address; beside the devices' steps it changes nothing but the
count of draws, and from memory it answers the datum there and changes nothing. -/
theorem memRead_ok {w : Width} {a : Word} {s t : State} {v : BitVec w.bits}
    (h : memRead w a s = .ok v t) :
    accessFails w s.cfg a = false ∧ t = { busStep s with draws := t.draws } ∧
      (place s.cfg a = .memory → v = memDatum w (busStep s).mem a ∧ t = busStep s) := by
  obtain ⟨-, e⟩ | ⟨hf, v', n, e, hm⟩ := readNow_cases w a (busStep s)
  · rw [memRead, e] at h; cases h
  · rw [memRead, e] at h
    cases h
    refine ⟨hf, rfl, fun hp => ?_⟩
    obtain ⟨rfl, rfl⟩ := hm hp
    exact ⟨rfl, rfl⟩

theorem memRead_eq_error {w : Width} {a : Word} {s : State} (h : accessFails w s.cfg a = true) :
    memRead w a s = .error (.busError a) (busStep s) := by
  simp [memRead, readNow, h]

/-- A read that fails failed for its address and changed nothing beside the devices' steps. -/
theorem memRead_error {w : Width} {a : Word} {s t : State} {e : Exception}
    (h : memRead w a s = .error e t) :
    accessFails w s.cfg a = true ∧ e = .busError a ∧ t = busStep s := by
  obtain ⟨hf, e'⟩ | ⟨-, v', n, e', -⟩ := readNow_cases w a (busStep s)
  · rw [memRead, e'] at h; cases h; exact ⟨hf, rfl, rfl⟩
  · rw [memRead, e'] at h; cases h

/-- A read does not look at the registers, and keeps them. -/
theorem memRead_withRegs {w : Width} {a : Word} {s t : State} {v : BitVec w.bits} (g : Regs)
    (h : memRead w a s = .ok v t) :
    memRead w a { s with regs := g } = .ok v { t with regs := g } := by
  have now : ∀ u : State, readNow w a u = .ok v t →
      readNow w a { u with regs := g } = .ok v { t with regs := g } := by
    intro u h
    simp only [readNow] at h ⊢
    split at h
    · cases h
    · rename_i hf
      rw [if_neg hf]
      cases hp : place u.cfg a <;> simp only [hp] at h ⊢ <;> cases h <;> rfl
  exact now (busStep s) h

/-- An accessible address answers. -/
theorem memRead_of_accessible {w : Width} {a : Word} {s : State}
    (h : accessFails w s.cfg a = false) : ∃ v t, memRead w a s = .ok v t := by
  cases hr : memRead w a s with
  | ok v t => exact ⟨v, t, rfl⟩
  | error e t => have := (memRead_error hr).1; simp [h] at this

theorem memWrite_eq {w : Width} {a : Word} {v : BitVec w.bits} {s : State}
    (h : accessFails w s.cfg a = false) : memWrite w a v s = .ok () ((busStep s).store w a v) := by
  simp [memWrite, writeNow, h]

theorem memWrite_eq_error {w : Width} {a : Word} {v : BitVec w.bits} {s : State}
    (h : accessFails w s.cfg a = true) : memWrite w a v s = .error (.busError a) (busStep s) := by
  simp [memWrite, writeNow, h]

theorem memWrite_ok {w : Width} {a : Word} {v : BitVec w.bits} {s t : State} {u : Unit}
    (h : memWrite w a v s = .ok u t) :
    accessFails w s.cfg a = false ∧ t = (busStep s).store w a v := by
  unfold memWrite writeNow at h
  split at h
  · cases h
  · cases h; exact ⟨by simpa using ‹¬ (_ = true)›, rfl⟩

theorem memWrite_error {w : Width} {a : Word} {v : BitVec w.bits} {s t : State} {e : Exception}
    (h : memWrite w a v s = .error e t) :
    accessFails w s.cfg a = true ∧ e = .busError a ∧ t = busStep s := by
  unfold memWrite writeNow at h
  split at h
  · cases h; exact ⟨‹_›, rfl, rfl⟩
  · cases h

/-! ## The instruction stream and the stack -/

/-- A fetch that completes read the word at PC and moved PC past it. -/
theorem fetch_ok {s t : State} {v : Word} (h : fetch s = .ok v t) :
    ∃ u, memRead .word s.regs.r7 s = .ok v u ∧ t = u.setReg .r7 (s.regs.r7 + 2) := by
  simp only [fetch] at h
  obtain ⟨pc, u, h1, h⟩ := Exec.bind_ok h
  cases h1
  obtain ⟨v', u', h2, h⟩ := Exec.bind_ok h
  obtain ⟨_, u'', h3, h⟩ := Exec.bind_ok h
  cases h3; cases h
  exact ⟨u', h2, rfl⟩

/-- A fetch that fails failed for PC and changed nothing beside the devices' steps. -/
theorem fetch_error {s t : State} {e : Exception} (h : fetch s = .error e t) :
    accessFails .word s.cfg s.regs.r7 = true ∧ e = .busError s.regs.r7 ∧ t = busStep s := by
  simp only [fetch] at h
  rcases Exec.bind_error h with h | ⟨_, _, h1, h⟩
  · cases h
  · cases h1
    rcases Exec.bind_error h with h | ⟨_, _, h2, h⟩
    · exact memRead_error h
    · rcases Exec.bind_error h with h | ⟨_, _, h3, h⟩ <;> cases h

/-- Fetching where the read at PC answers. -/
theorem fetch_eq {s t : State} {v : Word} (h : memRead .word s.regs.r7 s = .ok v t) :
    fetch s = .ok v (t.setReg .r7 (s.regs.r7 + 2)) := by
  simp only [fetch]
  rw [Exec.bind_eq (getReg_apply .r7 s)]
  show ((memRead .word s.regs.r7) >>= _) s = _
  rw [Exec.bind_eq h]
  rfl

/-- Fetching where the read at PC fails. -/
theorem fetch_eq_error {s : State} (h : accessFails .word s.cfg s.regs.r7 = true) :
    fetch s = .error (.busError s.regs.r7) (busStep s) := by
  simp only [fetch]
  rw [Exec.bind_eq (getReg_apply .r7 s)]
  show ((memRead .word s.regs.r7) >>= _) s = _
  rw [Exec.bind_eq_error (memRead_eq_error h)]

/-- Fetching a word of memory. -/
theorem fetch_memory {s : State} (h : wordInMemory s s.regs.r7) :
    fetch s = .ok (readCells (busStep s).mem s.regs.r7.toNat)
      ((busStep s).setReg .r7 (s.regs.r7 + 2)) :=
  fetch_eq (memRead_memory (accessible_of_wordInMemory h) ((place_memory_iff _ _).2 h.2))

/-- The state in which a push makes its access: SP decreased and the stack limit checked. -/
def pushState (s : State) : State :=
  let t := s.setReg .r6 (s.regs.r6 - 2)
  if s.regs.r6 - 2 < stackLimit then { t with stackOverflowPending := true } else t

@[simp] theorem pushState_regs (s : State) :
    (pushState s).regs = s.regs.set .r6 (s.regs.r6 - 2) := by
  simp only [pushState]; split <;> rfl
@[simp] theorem pushState_psw (s : State) : (pushState s).psw = s.psw := by
  simp only [pushState]; split <;> rfl
@[simp] theorem pushState_mem (s : State) : (pushState s).mem = s.mem := by
  simp only [pushState]; split <;> rfl
@[simp] theorem pushState_cfg (s : State) : (pushState s).cfg = s.cfg := by
  simp only [pushState]; split <;> rfl
@[simp] theorem pushState_run (s : State) : (pushState s).run = s.run := by
  simp only [pushState]; split <;> rfl
@[simp] theorem pushState_irq (s : State) : (pushState s).irq = s.irq := by
  simp only [pushState]; split <;> rfl
@[simp] theorem pushState_ke (s : State) : (pushState s).ke = s.ke := by
  simp only [pushState]; split <;> rfl
@[simp] theorem pushState_draws (s : State) : (pushState s).draws = s.draws := by
  simp only [pushState]; split <;> rfl
@[simp] theorem pushState_busEvents (s : State) : (pushState s).busEvents = s.busEvents := by
  simp only [pushState]; split <;> rfl
@[simp] theorem pushState_tracePending (s : State) :
    (pushState s).tracePending = s.tracePending := by
  simp only [pushState]; split <;> rfl
theorem pushState_stackOverflowPending (s : State) :
    (pushState s).stackOverflowPending =
      (s.stackOverflowPending || decide (s.regs.r6 - 2 < stackLimit)) := by
  simp only [pushState]; split <;> simp_all

/-- A push is the check on the decreased SP, then the write there. -/
theorem push_apply (v : Word) (s : State) :
    push v s = memWrite .word (s.regs.r6 - 2) v (pushState s) := by
  simp only [push]
  rw [Exec.bind_eq (getReg_apply .r6 s), Exec.bind_eq (setReg_apply _ _ _),
    Exec.bind_eq (stackCheck_apply _)]
  rfl

theorem pushState_eq (s : State) :
    pushState s =
      { s with
        regs := s.regs.set .r6 (s.regs.r6 - 2)
        stackOverflowPending :=
          s.stackOverflowPending || decide ((s.regs.r6 - 2).toNat < 0o400) } := by
  unfold pushState
  generalize s.regs.r6 - 2 = v
  by_cases h : v.toNat < 0o400
  · have : v < stackLimit := h
    simp only [if_pos this, decide_eq_true h, Bool.or_true]; rfl
  · have : ¬ v < stackLimit := h
    simp only [if_neg this, decide_eq_false h, Bool.or_false]; rfl

/-- The state after a push onto a word of memory. -/
def pushedState (v : Word) (s : State) : State :=
  { busStep s with
    regs := s.regs.set .r6 (s.regs.r6 - 2)
    mem := writeCells (busStep s).mem (s.regs.r6 - 2).toNat v
    stackOverflowPending := s.stackOverflowPending || decide ((s.regs.r6 - 2).toNat < 0o400) }

@[simp] theorem pushedState_regs (v : Word) (s : State) :
    (pushedState v s).regs = s.regs.set .r6 (s.regs.r6 - 2) := rfl
@[simp] theorem pushedState_cfg (v : Word) (s : State) : (pushedState v s).cfg = s.cfg := rfl
@[simp] theorem pushedState_busEvents (v : Word) (s : State) :
    (pushedState v s).busEvents = s.busEvents.tail := rfl

theorem pushedState_wf (v : Word) {s : State} (h : Memory.wf s.mem = true) :
    Memory.wf (pushedState v s).mem = true :=
  writeCells_wf _ _ _ (busStep_wf h)

/-- Pushing onto a word of memory. -/
theorem push_memory (v : Word) (s : State) (h : wordInMemory s (s.regs.r6 - 2)) :
    push v s = .ok () (pushedState v s) := by
  have hf : accessFails .word (pushState s).cfg (s.regs.r6 - 2) = false := by
    rw [pushState_cfg]; exact accessible_of_wordInMemory h
  rw [push_apply, memWrite_eq hf, State.store_memory, pushState_eq]
  · rfl
  · rw [busStep_cfg, pushState_cfg]; exact (place_memory_iff _ _).2 h.2

/-- A pop that completes read the word at SP and moved SP past it. -/
theorem pop_ok {s t : State} {v : Word} (h : pop s = .ok v t) :
    ∃ u, memRead .word s.regs.r6 s = .ok v u ∧ t = u.setReg .r6 (s.regs.r6 + 2) := by
  simp only [pop] at h
  obtain ⟨sp, u, h1, h⟩ := Exec.bind_ok h
  cases h1
  obtain ⟨v', u', h2, h⟩ := Exec.bind_ok h
  obtain ⟨_, u'', h3, h⟩ := Exec.bind_ok h
  cases h3; cases h
  exact ⟨u', h2, rfl⟩

/-- Popping where the read at SP answers. -/
theorem pop_eq {s t : State} {v : Word} (h : memRead .word s.regs.r6 s = .ok v t) :
    pop s = .ok v (t.setReg .r6 (s.regs.r6 + 2)) := by
  simp only [pop]
  rw [Exec.bind_eq (getReg_apply .r6 s)]
  show ((memRead .word s.regs.r6) >>= _) s = _
  rw [Exec.bind_eq h]
  rfl

/-- Popping where the read at SP fails. -/
theorem pop_eq_error {s : State} (h : accessFails .word s.cfg s.regs.r6 = true) :
    pop s = .error (.busError s.regs.r6) (busStep s) := by
  simp only [pop]
  rw [Exec.bind_eq (getReg_apply .r6 s)]
  show ((memRead .word s.regs.r6) >>= _) s = _
  rw [Exec.bind_eq_error (memRead_eq_error h)]

/-- Popping a word of memory. -/
theorem pop_memory {s : State} (h : wordInMemory s s.regs.r6) :
    pop s = .ok (readCells (busStep s).mem s.regs.r6.toNat)
      ((busStep s).setReg .r6 (s.regs.r6 + 2)) :=
  pop_eq (memRead_memory (accessible_of_wordInMemory h) ((place_memory_iff _ _).2 h.2))

/-! ## Taking an exception -/

/-- An instruction whose accesses complete. -/
theorem perform_ok {x : Exec Unit} {s t : State} {u : Unit} (h : x s = .ok u t) :
    perform x s = .next t := by
  simp [perform, h]

/-- An instruction whose accesses raise. -/
theorem perform_error {x : Exec Unit} {s t : State} {e : Exception} (h : x s = .error e t) :
    perform x s = .next (takeException e t) := by
  simp [perform, h]

/-- Every meaning answers a next state. -/
theorem perform_next (x : Exec Unit) (s : State) : ∃ t, perform x s = .next t := by
  unfold perform; split <;> exact ⟨_, rfl⟩

@[simp] theorem Psw.ofByte_toByte (p : Psw) : Psw.ofByte p.toByte = p := by
  obtain ⟨pri, t, n, z, v, c⟩ := p
  revert pri
  cases t <;> cases n <;> cases z <;> cases v <;> cases c <;> decide

@[simp] theorem Psw.ofWord_toWord (p : Psw) : Psw.ofWord p.toWord = p := by
  have h : lowByte p.toWord = p.toByte := lowByte_wordOfBytes p.toByte 0
  simp [Psw.ofWord, h]

end Sys2Proof.Machine
end

