-- ==== Sys2Proof/Laws/Entries.lean ====
section
/-! SUPPORT. Taking an exception where the stack lies in memory: the state it ends in. -/

namespace Sys2Proof.Machine

/-- The state after an entry whose pushes and vector lie in memory: the two pushes, then the vector's two
words, the devices stepping before each of the four accesses. -/
def entryState (vec : Word) (s : State) : State :=
  let t := busStep (pushedState s.regs.r7 (pushedState s.psw.toWord s))
  let u := busStep (t.setReg .r7 (readCells t.mem vec.toNat))
  u.setPsw (Psw.ofWord (readCells u.mem (vec + 2).toNat))

/-- The numbers of the two pushed words' addresses. -/
theorem stackReady_toNat {s : State} (h : stackReady s) :
    (s.regs.r6 - 2).toNat = s.regs.r6.toNat - 2 ∧ (s.regs.r6 - 4).toNat = s.regs.r6.toNat - 4 := by
  have h4 := h.2.1
  have := s.regs.r6.isLt
  constructor <;> (rw [BitVec.toNat_sub_of_le (by simp [BitVec.le_def]; omega)]; rfl)

theorem stackReady_words {s : State} (h : stackReady s) :
    wordInMemory s (s.regs.r6 - 2) ∧ wordInMemory s (s.regs.r6 - 4) := by
  obtain ⟨h2, h4⟩ := stackReady_toNat h
  have ho := h.1
  have h0 := h.2.1
  have ht := h.2.2
  rw [isOdd_eq] at ho
  simp only [decide_eq_false_iff_not] at ho
  refine ⟨⟨?_, ?_⟩, ⟨?_, ?_⟩⟩
  · rw [isOdd_eq, h2]; simp only [decide_eq_false_iff_not]; omega
  · rw [h2]; omega
  · rw [isOdd_eq, h4]; simp only [decide_eq_false_iff_not]; omega
  · rw [h4]; omega

/-- An entry whose pushes and vector lie in memory. -/
theorem trapEntry_memory {vec : Word} {s : State} (h : stackReady s) (hv : isOdd vec = false)
    (ht : vec.toNat + 4 ≤ memTop s.cfg) : trapEntry vec s = entryState vec s := by
  obtain ⟨w2, w4⟩ := stackReady_words h
  have htop := memTop_le s.cfg
  have e4 : s.regs.r6 - 2 - 2 = s.regs.r6 - 4 := by rw [BitVec.sub_sub]; rfl
  have p2 := push_memory s.regs.r7 (pushedState s.psw.toWord s) (by
    rw [pushedState_regs, Regs.set_r6_r6, e4]; exact w4)
  have hv2 : (vec + 2).toNat = vec.toNat + 2 := by
    rw [BitVec.toNat_add]; simp; omega
  have o2 : isOdd (vec + 2) = false := by
    rw [isOdd_eq] at hv ⊢; rw [hv2]; simp only [decide_eq_false_iff_not] at hv ⊢; omega
  have read : ∀ (u : State) (a : Word), u.cfg = s.cfg → isOdd a = false → a.toNat < memTop s.cfg →
      memRead .word a u = .ok (readCells (busStep u).mem a.toNat) (busStep u) := by
    intro u a hu ho ha
    have hw : wordInMemory u a := ⟨ho, by rw [hu]; exact ha⟩
    exact memRead_memory (accessible_of_wordInMemory hw) ((place_memory_iff _ _).2 hw.2)
  have he : entryAccesses vec s = .ok () (entryState vec s) := by
    unfold entryAccesses
    rw [Exec.bind_eq (push_memory s.psw.toWord s w2), Regs.get_r7, Exec.bind_eq p2,
      Exec.bind_eq (read (pushedState s.regs.r7 (pushedState s.psw.toWord s)) vec rfl hv
        (by omega)), Exec.bind_eq (setReg_apply _ _ _)]
    exact Exec.bind_eq (read (State.setReg _ _ _) (vec + 2) rfl o2 (by omega))
  unfold trapEntry
  rw [he]

/-! ## What an entry leaves -/

theorem entryState_wf (vec : Word) {s : State} (h : Memory.wf s.mem = true) :
    Memory.wf (entryState vec s).mem = true :=
  busStep_wf (s := State.setReg _ _ _) (busStep_wf (pushedState_wf _ (pushedState_wf _ h)))

theorem entryState_overflow (vec : Word) {s : State} (h : stackReady s) :
    (entryState vec s).stackOverflowPending =
      (s.stackOverflowPending || decide (s.regs.r6.toNat < 0o404)) := by
  obtain ⟨n2, n4⟩ := stackReady_toNat h
  have e4 : s.regs.r6 - 2 - 2 = s.regs.r6 - 4 := by rw [BitVec.sub_sub]; rfl
  have h0 := h.2.1
  show ((s.stackOverflowPending || decide ((s.regs.r6 - 2).toNat < 0o400)) ||
    decide ((((s.regs.set .r6 (s.regs.r6 - 2)).r6) - 2).toNat < 0o400)) = _
  rw [Regs.set_r6_r6, e4, n2, n4]
  by_cases a : s.regs.r6.toNat < 0o404
  · rw [decide_eq_true (p := s.regs.r6.toNat - 4 < 0o400) (by omega), decide_eq_true a]; simp
  · rw [decide_eq_false (p := s.regs.r6.toNat - 4 < 0o400) (by omega),
      decide_eq_false (p := s.regs.r6.toNat - 2 < 0o400) (by omega), decide_eq_false a]; simp

/-- The state of an entry is one entered through its vector. -/
theorem entryState_entered (vec : Word) {s : State} (w : Memory.wf s.mem = true) (h : stackReady s) :
    enteredThrough vec s (entryState vec s) := by
  obtain ⟨n2, n4⟩ := stackReady_toNat h
  have h0 := h.2.1
  have e4 : s.regs.r6 - 2 - 2 = s.regs.r6 - 4 := by rw [BitVec.sub_sub]; rfl
  obtain ⟨s1, hs1⟩ : ∃ t, t = pushedState s.psw.toWord s := ⟨_, rfl⟩
  obtain ⟨s2, hs2⟩ : ∃ t, t = pushedState s.regs.r7 s1 := ⟨_, rfl⟩
  have w1 : Memory.wf s1.mem = true := hs1 ▸ pushedState_wf _ w
  have r1 : s1.regs.r6 = s.regs.r6 - 2 := by rw [hs1]; rfl
  have m1 : s1.mem = writeCells (busStep s).mem (s.regs.r6 - 2).toNat s.psw.toWord := by
    rw [hs1]; rfl
  have m2 : s2.mem = writeCells (busStep s1).mem (s.regs.r6 - 4).toNat s.regs.r7 := by
    rw [hs2]; show writeCells _ (s1.regs.r6 - 2).toNat _ = _; rw [r1, e4]
  obtain ⟨t, ht⟩ : ∃ t, t = (busStep s2).setReg .r7 (readCells (busStep s2).mem vec.toNat) :=
    ⟨_, rfl⟩
  have he : entryState vec s =
      (busStep t).setPsw (Psw.ofWord (readCells (busStep t).mem (vec + 2).toNat)) := by
    rw [ht, hs2, hs1]; rfl
  have c1 : s1.cfg = s.cfg := by rw [hs1]; rfl
  have c2 : s2.cfg = s.cfg := by rw [hs2]; exact c1
  have ct : t.cfg = s.cfg := by rw [ht]; exact c2
  have b1 : s1.busEvents <:+ s.busEvents := by rw [hs1]; exact List.tail_suffix _
  have b2 : s2.busEvents <:+ s.busEvents := by
    rw [hs2]; exact (List.tail_suffix _ : s1.busEvents.tail <:+ _).trans b1
  have bt : t.busEvents <:+ s.busEvents := by
    rw [ht]; exact (List.tail_suffix _ : s2.busEvents.tail <:+ _).trans b2
  -- a byte no device stores to, from state to state
  have k0 : ∀ k, undisturbed s k → readCell (busStep s).mem k = readCell s.mem k :=
    fun k hk => busStep_readCell hk
  have k1 : ∀ k, undisturbed s k → readCell (busStep s1).mem k = readCell s1.mem k :=
    fun k hk => busStep_readCell (undisturbed_of_suffix b1 c1 hk)
  have k2 : ∀ k, undisturbed s k → readCell t.mem k = readCell s2.mem k := by
    intro k hk; rw [ht]; exact busStep_readCell (undisturbed_of_suffix b2 c2 hk)
  have kt : ∀ k, undisturbed s k → readCell (busStep t).mem k = readCell t.mem k :=
    fun k hk => busStep_readCell (undisturbed_of_suffix bt ct hk)
  have k4 : ∀ k, undisturbed s k → readCell (busStep t).mem k = readCell s2.mem k :=
    fun k hk => (kt k hk).trans (k2 k hk)
  have wb1 : Memory.wf (busStep s1).mem = true := busStep_wf w1
  have wb : Memory.wf (busStep s).mem = true := busStep_wf w
  rw [he]
  refine ⟨?_, ?_, ?_, ?_, ?_, ?_, ?_, ?_, ?_, ?_, ?_, ?_, ?_⟩
  · show t.regs.r6 = _
    rw [ht, hs2]; show s1.regs.r6 - 2 = _; rw [r1, e4]
  · intro hu
    show readCells (busStep t).mem _ = _
    have : readCells (busStep t).mem (s.regs.r6 - 4).toNat = readCells s2.mem (s.regs.r6 - 4).toNat := by
      simp only [readCells, k4 _ hu.1, k4 _ hu.2]
    rw [this, m2, readCells_writeCells_same _ wb1]
  · intro hu
    show readCells (busStep t).mem _ = _
    have : readCells (busStep t).mem (s.regs.r6 - 2).toNat = readCells s2.mem (s.regs.r6 - 2).toNat := by
      simp only [readCells, k4 _ hu.1, k4 _ hu.2]
    rw [this, m2, readCells_writeCells_ne _ wb1 _ _ _ (by rw [n2, n4]; omega)]
    have : readCells (busStep s1).mem (s.regs.r6 - 2).toNat = readCells s1.mem (s.regs.r6 - 2).toNat := by
      simp only [readCells, k1 _ hu.1, k1 _ hu.2]
    rw [this, m1, readCells_writeCells_same _ wb]
  · intro hu
    show t.regs.r7 = readCells (busStep t).mem _
    have : readCells (busStep t).mem vec.toNat = readCells t.mem vec.toNat := by
      simp only [readCells, kt _ hu.1, kt _ hu.2]
    rw [this, ht]; rfl
  · intro _; rfl
  · intro r hr
    have h6 : r ≠ .r6 := fun h => hr (by simp [h])
    have h7 : r ≠ .r7 := fun h => hr (by simp [h])
    show t.regs.get r = _
    rw [ht, hs2, hs1]
    simp only [State.setReg_regs, busStep_regs, pushedState_regs, Regs.get_set_ne _ _ h6,
      Regs.get_set_ne _ _ h7]
  · intro k hk hu
    show readCell (busStep t).mem k = _
    have j2 : k ≠ (s.regs.r6 - 2).toNat := by rw [n2]; omega
    have j3 : k ≠ (s.regs.r6 - 2).toNat + 1 := by rw [n2]; omega
    have j4 : k ≠ (s.regs.r6 - 4).toNat := by rw [n4] at hk ⊢; omega
    have j5 : k ≠ (s.regs.r6 - 4).toNat + 1 := by rw [n4] at hk ⊢; omega
    rw [k4 k hu, m2, readCell_writeCells _ wb1, if_neg j4, if_neg j5, k1 k hu, m1,
      readCell_writeCells _ wb, if_neg j2, if_neg j3, k0 k hu]
  · rw [ht, hs2, hs1]; rfl
  · rw [ht, hs2, hs1]; rfl
  · rw [ht, hs2, hs1]; rfl
  · exact ct
  · exact (List.tail_suffix _ : t.busEvents.tail <:+ _).trans bt
  · intro hr
    have i1 : s1.irq = s.irq := by rw [hs1]; exact busStep_irq hr
    have i2 : s2.irq = s.irq := by
      rw [hs2]; exact (busStep_irq (requestsUndisturbed_of_suffix b1 hr)).trans i1
    have it : t.irq = s.irq := by
      rw [ht]; exact (busStep_irq (requestsUndisturbed_of_suffix b2 hr)).trans i2
    exact (busStep_irq (requestsUndisturbed_of_suffix bt hr)).trans it

/-- Memory after an entry during which no device makes a step. -/
theorem entryState_mem_idle (vec : Word) {s : State} (h : s.busEvents = []) :
    (entryState vec s).mem =
      writeCells (writeCells s.mem (s.regs.r6 - 2).toNat s.psw.toWord) (s.regs.r6 - 4).toNat
        s.regs.r7 := by
  have e4 : s.regs.r6 - 2 - 2 = s.regs.r6 - 4 := by rw [BitVec.sub_sub]; rfl
  cases s with | mk regs _ _ _ _ _ _ _ _ be _ =>
  simp only at h e4
  subst h
  show writeCells (writeCells _ _ _) ((regs.set .r6 (regs.r6 - 2)).r6 - 2).toNat _ = _
  rw [Regs.set_r6_r6, e4]
  rfl

end Sys2Proof.Machine
end

