-- ==== Sys2Proof/Laws/Operands.lean ====
section
/-! SUPPORT. What evaluating, reading and writing an operand can do, and what it leaves alone. -/

namespace Sys2Proof.Machine

/-- What an access that stores nothing leaves as it was, but for the devices' own steps: all but registers,
the count of draws and the stack-overflow flag. -/
structure Untouched (s t : State) : Prop where
  psw : t.psw = s.psw
  run : t.run = s.run
  tracePending : t.tracePending = s.tracePending
  ke : t.ke = s.ke
  cfg : t.cfg = s.cfg
  devices : devicesOnly s t
  wf : Memory.wf s.mem = true → Memory.wf t.mem = true
  mem : sameMemory s t

theorem Untouched.refl (s : State) : Untouched s s :=
  ⟨rfl, rfl, rfl, rfl, rfl, .refl s, id, fun _ _ => rfl⟩

theorem Untouched.trans {s t u : State} (h : Untouched s t) (k : Untouched t u) : Untouched s u :=
  ⟨k.psw.trans h.psw, k.run.trans h.run, k.tracePending.trans h.tracePending, k.ke.trans h.ke,
    k.cfg.trans h.cfg, h.devices.trans k.devices, fun w => k.wf (h.wf w), fun j hj =>
      (k.mem j (undisturbed_of_suffix h.devices.1 h.cfg hj)).trans (h.mem j hj)⟩

/-- The control state is as before, but for the devices' own steps. -/
theorem Untouched.control {s t : State} (h : Untouched s t) : sameControl s t :=
  ⟨h.run, h.tracePending, h.cfg, h.devices⟩

theorem Untouched.setReg (s : State) (i : Reg) (v : Word) : Untouched s (s.setReg i v) :=
  ⟨rfl, rfl, rfl, rfl, rfl, .refl s, id, fun _ _ => rfl⟩

theorem Untouched.draws (s : State) (n : Nat) : Untouched s { s with draws := n } :=
  ⟨rfl, rfl, rfl, rfl, rfl, .refl s, id, fun _ _ => rfl⟩

theorem Untouched.overflow (s : State) (b : Bool) :
    Untouched s { s with stackOverflowPending := b } :=
  ⟨rfl, rfl, rfl, rfl, rfl, .refl s, id, fun _ _ => rfl⟩

theorem Untouched.busStep (s : State) : Untouched s (busStep s) :=
  ⟨rfl, rfl, rfl, rfl, rfl, busStep_devicesOnly s, busStep_wf, fun _ hk => busStep_readCell hk⟩

theorem memRead_untouched {w : Width} {a : Word} {s t : State} {v : BitVec w.bits}
    (h : memRead w a s = .ok v t) : Untouched s t ∧ t.regs = s.regs := by
  rw [(memRead_ok h).2.1]
  exact ⟨(Untouched.busStep s).trans (Untouched.draws _ _), rfl⟩

theorem fetch_untouched {s t : State} {v : Word} (h : fetch s = .ok v t) :
    Untouched s t ∧ t.regs = s.regs.set .r7 (s.regs.r7 + 2) := by
  obtain ⟨u, h1, rfl⟩ := fetch_ok h
  obtain ⟨k, hr⟩ := memRead_untouched h1
  exact ⟨k.trans (Untouched.setReg u _ _), by simp [hr]⟩

theorem autoIncrement_apply (r : Reg) (d : Word) (s : State) :
    autoIncrement r d s = .ok (s.regs.get r) (s.setReg r (s.regs.get r + d)) := by
  simp only [autoIncrement]
  rw [Exec.bind_eq (getReg_apply r s), Exec.bind_eq (setReg_apply _ _ _)]
  rfl

/-- The state a decrement of a register leaves, with the stack limit checked for SP. -/
def decrementState (r : Reg) (d : Word) (s : State) : State :=
  let t := s.setReg r (s.regs.get r - d)
  if r = .r6 ∧ s.regs.get r - d < stackLimit then { t with stackOverflowPending := true } else t

theorem autoDecrement_apply (r : Reg) (d : Word) (s : State) :
    autoDecrement r d s = .ok (s.regs.get r - d) (decrementState r d s) := by
  simp only [autoDecrement]
  rw [Exec.bind_eq (getReg_apply r s), Exec.bind_eq (setReg_apply _ _ _)]
  by_cases h : r = .r6
  · subst h
    rw [if_pos rfl, Exec.bind_eq (stackCheck_apply _)]
    simp only [decrementState, true_and]
    rfl
  · rw [if_neg h]
    simp only [decrementState, h, false_and, if_false]
    rfl

@[simp] theorem decrementState_regs (r : Reg) (d : Word) (s : State) :
    (decrementState r d s).regs = s.regs.set r (s.regs.get r - d) := by
  simp only [decrementState]; split <;> rfl

theorem decrementState_untouched (r : Reg) (d : Word) (s : State) :
    Untouched s (decrementState r d s) := by
  simp only [decrementState]
  split
  · exact (Untouched.setReg s _ _).trans (Untouched.overflow _ _)
  · exact Untouched.setReg s _ _

/-- The address of modes 6 and 7 is the fetched word plus the register after the fetch. -/
theorem indexedAddress_ok {r : Reg} {s t : State} {a : Word} (h : indexedAddress r s = .ok a t) :
    ∃ x, fetch s = .ok x t ∧ a = x + t.regs.get r := by
  simp only [indexedAddress] at h
  obtain ⟨x, u, h1, h⟩ := Exec.bind_ok h
  obtain ⟨b, u', h2, h⟩ := Exec.bind_ok h
  cases h2; cases h
  exact ⟨x, h1, rfl⟩

theorem indexedAddress_eq {r : Reg} {s t : State} {x : Word} (h : fetch s = .ok x t) :
    indexedAddress r s = .ok (x + t.regs.get r) t := by
  simp only [indexedAddress]
  rw [Exec.bind_eq h, Exec.bind_eq (getReg_apply r t)]
  rfl

theorem indexedAddress_error {r : Reg} {s t : State} {e : Exception}
    (h : indexedAddress r s = .error e t) : fetch s = .error e t := by
  simp only [indexedAddress] at h
  rcases Exec.bind_error h with h | ⟨_, _, h1, h⟩
  · exact h
  · rcases Exec.bind_error h with h | ⟨_, _, h2, h⟩ <;> cases h

/-- Evaluating an operand changes no more than the operand's registers. -/
theorem loc_ok {w : Width} {o : Operand} {s t : State} {l : Loc} (h : loc w o s = .ok l t) :
    Untouched s t ∧ sameRegsBut (operandRegs o) s t := by
  obtain ⟨m, r⟩ := o
  have get_ne : ∀ (g : Regs) (i j : Reg) (v : Word), j ∉ [i] → (g.set i v).get j = g.get j := by
    intro g i j v hj
    exact Regs.get_set_ne g v (by simpa using hj)
  cases m <;> simp only [loc] at h
  case register => cases h; exact ⟨.refl s, fun _ _ => rfl⟩
  case deferred =>
    obtain ⟨a, u, h1, h⟩ := Exec.bind_ok h
    cases h1; cases h
    exact ⟨.refl s, fun _ _ => rfl⟩
  case autoInc =>
    obtain ⟨a, u, h1, h⟩ := Exec.bind_ok h
    rw [autoIncrement_apply] at h1
    cases h1; cases h
    exact ⟨.setReg s _ _, fun j hj => get_ne _ _ _ _ hj⟩
  case autoIncDeferred =>
    obtain ⟨a, u, h1, h⟩ := Exec.bind_ok h
    rw [autoIncrement_apply] at h1
    cases h1
    obtain ⟨b, u', h2, h⟩ := Exec.bind_ok h
    cases h
    obtain ⟨k, hr⟩ := memRead_untouched h2
    exact ⟨(Untouched.setReg s _ _).trans k, fun j hj => by rw [hr]; exact get_ne _ _ _ _ hj⟩
  case autoDec =>
    obtain ⟨a, u, h1, h⟩ := Exec.bind_ok h
    rw [autoDecrement_apply] at h1
    cases h1; cases h
    exact ⟨decrementState_untouched _ _ _, fun j hj => by
      rw [decrementState_regs]; exact get_ne _ _ _ _ hj⟩
  case autoDecDeferred =>
    obtain ⟨a, u, h1, h⟩ := Exec.bind_ok h
    rw [autoDecrement_apply] at h1
    cases h1
    obtain ⟨b, u', h2, h⟩ := Exec.bind_ok h
    cases h
    obtain ⟨k, hr⟩ := memRead_untouched h2
    exact ⟨(decrementState_untouched _ _ _).trans k, fun j hj => by
      rw [hr, decrementState_regs]; exact get_ne _ _ _ _ hj⟩
  case indexed =>
    obtain ⟨a, u, h1, h⟩ := Exec.bind_ok h
    cases h
    obtain ⟨x, hf, _⟩ := indexedAddress_ok h1
    obtain ⟨k, hr⟩ := fetch_untouched hf
    exact ⟨k, fun j hj => by rw [hr]; exact get_ne _ _ _ _ hj⟩
  case indexDeferred =>
    obtain ⟨a, u, h1, h⟩ := Exec.bind_ok h
    obtain ⟨b, u', h2, h⟩ := Exec.bind_ok h
    cases h
    obtain ⟨x, hf, _⟩ := indexedAddress_ok h1
    obtain ⟨k, hr⟩ := fetch_untouched hf
    obtain ⟨k', hr'⟩ := memRead_untouched h2
    exact ⟨k.trans k', fun j hj => by rw [hr', hr]; exact get_ne _ _ _ _ hj⟩

/-- Reading a location changes no register and stores nothing. -/
theorem readLoc_ok {w : Width} {l : Loc} {s t : State} {v : BitVec w.bits}
    (h : readLoc w l s = .ok v t) : Untouched s t ∧ t.regs = s.regs := by
  cases l with
  | reg i =>
    simp only [readLoc] at h
    obtain ⟨x, u, h1, h⟩ := Exec.bind_ok h
    cases h1; cases h
    exact ⟨.refl s, rfl⟩
  | mem a => exact memRead_untouched h

@[simp] theorem readLoc_reg (w : Width) (i : Reg) (s : State) :
    readLoc w (.reg i) s = .ok (regPart w (s.regs.get i)) s := by
  simp only [readLoc]
  rw [Exec.bind_eq (getReg_apply i s)]
  rfl

@[simp] theorem readLoc_mem (w : Width) (a : Word) (s : State) :
    readLoc w (.mem a) s = memRead w a s := rfl

@[simp] theorem writeLoc_reg (w : Width) (i : Reg) (v : BitVec w.bits) (s : State) :
    writeLoc w (.reg i) v s = .ok () (s.setReg i (withRegPart w (s.regs.get i) v)) := by
  simp only [writeLoc]
  rw [Exec.bind_eq (getReg_apply i s)]
  rfl

@[simp] theorem writeLoc_mem (w : Width) (a : Word) (v : BitVec w.bits) (s : State) :
    writeLoc w (.mem a) v s = memWrite w a v s := rfl

@[simp] theorem writeLocMovb_reg (i : Reg) (v : Byte) (s : State) :
    writeLocMovb (.reg i) v s = .ok () (s.setReg i (v.signExtend 16)) := rfl

@[simp] theorem writeLocMovb_mem (a : Word) (v : Byte) (s : State) :
    writeLocMovb (.mem a) v s = memWrite .byte a v s := rfl

/-- A reachable location takes a write. -/
theorem writeLoc_of_reachable {w : Width} {l : Loc} {s : State} (v : BitVec w.bits)
    (h : reachable w s l) : ∃ t, writeLoc w l v s = .ok () t := by
  cases l with
  | reg i => exact ⟨_, writeLoc_reg w i v s⟩
  | mem a => exact ⟨_, memWrite_eq h⟩

theorem sourceAndDest_late {w : Width} {src dst : Operand} {s t : State} {l : Loc}
    (h : sourceIsLate s.cfg src dst = true) (hl : loc w dst s = .ok l t) :
    sourceAndDest w src dst s = .ok (regPart w (t.regs.get src.reg), l) t := by
  simp only [sourceAndDest]
  rw [Exec.bind_eq (Exec.get_apply s)]
  simp only [h, if_true]
  rw [Exec.bind_eq hl, Exec.bind_eq (readLoc_reg w src.reg t)]
  rfl

theorem sourceAndDest_early {w : Width} {src dst : Operand} {s s1 s2 t : State} {l l' : Loc}
    {v : BitVec w.bits} (h : sourceIsLate s.cfg src dst = false) (h1 : loc w src s = .ok l s1)
    (h2 : readLoc w l s1 = .ok v s2) (h3 : loc w dst s2 = .ok l' t) :
    sourceAndDest w src dst s = .ok (v, l') t := by
  simp only [sourceAndDest]
  rw [Exec.bind_eq (Exec.get_apply s)]
  simp only [h, if_false, Bool.false_eq_true]
  rw [Exec.bind_eq h1, Exec.bind_eq h2, Exec.bind_eq h3]
  rfl

/-- Evaluating both operands changes no more than the operands' registers. -/
theorem sourceAndDest_ok {w : Width} {src dst : Operand} {s t : State} {v : BitVec w.bits} {l : Loc}
    (h : sourceAndDest w src dst s = .ok (v, l) t) :
    Untouched s t ∧ sameRegsBut (operandRegs src ++ operandRegs dst) s t := by
  simp only [sourceAndDest] at h
  rw [Exec.bind_eq (Exec.get_apply s)] at h
  split at h
  · obtain ⟨d, u, h1, h⟩ := Exec.bind_ok h
    obtain ⟨x, u', h2, h⟩ := Exec.bind_ok h
    cases h
    obtain ⟨k1, r1⟩ := loc_ok h1
    obtain ⟨k2, r2⟩ := readLoc_ok h2
    refine ⟨k1.trans k2, fun j hj => ?_⟩
    rw [r2]; exact r1 j (fun hm => hj (List.mem_append_right _ hm))
  · obtain ⟨l', u, h1, h⟩ := Exec.bind_ok h
    obtain ⟨x, u', h2, h⟩ := Exec.bind_ok h
    obtain ⟨d, u'', h3, h⟩ := Exec.bind_ok h
    cases h
    obtain ⟨k1, r1⟩ := loc_ok h1
    obtain ⟨k2, r2⟩ := readLoc_ok h2
    obtain ⟨k3, r3⟩ := loc_ok h3
    refine ⟨(k1.trans k2).trans k3, fun j hj => ?_⟩
    rw [r3 j (fun hm => hj (List.mem_append_right _ hm)), r2]
    exact r1 j (fun hm => hj (List.mem_append_left _ hm))

/-! ## Failures and the stack limit -/

/-- A failing evaluation is a bus error, and has changed no more than the operand's registers. -/
theorem loc_error {w : Width} {o : Operand} {s t : State} {e : Exception}
    (h : loc w o s = .error e t) :
    (∃ a, e = .busError a) ∧ Untouched s t ∧ sameRegsBut (operandRegs o) s t := by
  obtain ⟨m, r⟩ := o
  have get_ne : ∀ (g : Regs) (i j : Reg) (v : Word), j ∉ [i] → (g.set i v).get j = g.get j := by
    intro g i j v hj
    exact Regs.get_set_ne g v (by simpa using hj)
  have index : ∀ {u : State} {e : Exception}, indexedAddress r s = .error e u →
      (∃ a, e = .busError a) ∧ u = busStep s := by
    intro u e h
    simp only [indexedAddress] at h
    rcases Exec.bind_error h with h | ⟨x, u', h1, h⟩
    · obtain ⟨-, rfl, rfl⟩ := fetch_error h
      exact ⟨⟨_, rfl⟩, rfl⟩
    · rcases Exec.bind_error h with h | ⟨_, _, _, h⟩ <;> cases h
  cases m <;> simp only [loc] at h
  case register => cases h
  case deferred => rcases Exec.bind_error h with h | ⟨_, _, _, h⟩ <;> cases h
  case autoInc =>
    rcases Exec.bind_error h with h | ⟨_, _, _, h⟩
    · rw [autoIncrement_apply] at h; cases h
    · cases h
  case autoIncDeferred =>
    rcases Exec.bind_error h with h | ⟨_, _, h1, h⟩
    · rw [autoIncrement_apply] at h; cases h
    rw [autoIncrement_apply] at h1
    cases h1
    rcases Exec.bind_error h with h | ⟨_, _, _, h⟩
    · obtain ⟨-, rfl, rfl⟩ := memRead_error h
      exact ⟨⟨_, rfl⟩, (Untouched.setReg s _ _).trans (.busStep _), fun j hj => get_ne _ _ _ _ hj⟩
    · cases h
  case autoDec =>
    rcases Exec.bind_error h with h | ⟨_, _, _, h⟩
    · rw [autoDecrement_apply] at h; cases h
    · cases h
  case autoDecDeferred =>
    rcases Exec.bind_error h with h | ⟨_, _, h1, h⟩
    · rw [autoDecrement_apply] at h; cases h
    rw [autoDecrement_apply] at h1
    cases h1
    rcases Exec.bind_error h with h | ⟨_, _, _, h⟩
    · obtain ⟨-, rfl, rfl⟩ := memRead_error h
      exact ⟨⟨_, rfl⟩, (decrementState_untouched _ _ _).trans (.busStep _), fun j hj => by
        rw [busStep_regs, decrementState_regs]; exact get_ne _ _ _ _ hj⟩
    · cases h
  case indexed =>
    rcases Exec.bind_error h with h | ⟨_, _, _, h⟩
    · obtain ⟨he, rfl⟩ := index h
      exact ⟨he, .busStep s, fun _ _ => rfl⟩
    · cases h
  case indexDeferred =>
    rcases Exec.bind_error h with h | ⟨_, _, h1, h⟩
    · obtain ⟨he, rfl⟩ := index h
      exact ⟨he, .busStep s, fun _ _ => rfl⟩
    obtain ⟨x, hf, _⟩ := indexedAddress_ok h1
    obtain ⟨k, hr⟩ := fetch_untouched hf
    rcases Exec.bind_error h with h | ⟨_, _, _, h⟩
    · obtain ⟨-, rfl, rfl⟩ := memRead_error h
      exact ⟨⟨_, rfl⟩, k.trans (.busStep _), fun j hj => by
        rw [busStep_regs, hr]; exact get_ne _ _ _ _ hj⟩
    · cases h

/-- A failing read is a bus error at the location, and changes nothing beside the devices' steps. -/
theorem readLoc_error {w : Width} {l : Loc} {s t : State} {e : Exception}
    (h : readLoc w l s = .error e t) :
    ∃ a, l = .mem a ∧ accessFails w s.cfg a = true ∧ e = .busError a ∧ t = busStep s := by
  cases l with
  | reg i => rw [readLoc_reg] at h; cases h
  | mem a =>
    obtain ⟨h1, h2, h3⟩ := memRead_error (show memRead w a s = .error e t from h)
    exact ⟨a, rfl, h1, h2, h3⟩

/-- A failing evaluation of both operands is a bus error, and has changed no more than their registers. -/
theorem sourceAndDest_error {w : Width} {src dst : Operand} {s t : State} {e : Exception}
    (h : sourceAndDest w src dst s = .error e t) :
    (∃ a, e = .busError a) ∧ Untouched s t ∧
      sameRegsBut (operandRegs src ++ operandRegs dst) s t := by
  simp only [sourceAndDest] at h
  rw [Exec.bind_eq (Exec.get_apply s)] at h
  split at h
  · rcases Exec.bind_error h with h | ⟨d, u, h1, h⟩
    · obtain ⟨he, k, hr⟩ := loc_error h
      exact ⟨he, k, fun j hj => hr j (fun hm => hj (List.mem_append_right _ hm))⟩
    · rcases Exec.bind_error h with h | ⟨_, _, _, h⟩
      · rw [readLoc_reg] at h; cases h
      · cases h
  · rcases Exec.bind_error h with h | ⟨l, u, h1, h⟩
    · obtain ⟨he, k, hr⟩ := loc_error h
      exact ⟨he, k, fun j hj => hr j (fun hm => hj (List.mem_append_left _ hm))⟩
    obtain ⟨k1, r1⟩ := loc_ok h1
    rcases Exec.bind_error h with h | ⟨x, u', h2, h⟩
    · obtain ⟨a, -, -, rfl, rfl⟩ := readLoc_error h
      exact ⟨⟨_, rfl⟩, k1.trans (.busStep _), fun j hj =>
        r1 j (fun hm => hj (List.mem_append_left _ hm))⟩
    obtain ⟨k2, r2⟩ := readLoc_ok h2
    rcases Exec.bind_error h with h | ⟨_, _, _, h⟩
    · obtain ⟨he, k3, r3⟩ := loc_error h
      refine ⟨he, (k1.trans k2).trans k3, fun j hj => ?_⟩
      rw [r3 j (fun hm => hj (List.mem_append_right _ hm)), r2]
      exact r1 j (fun hm => hj (List.mem_append_left _ hm))
    · cases h

theorem memRead_overflow {w : Width} {a : Word} {s t : State} {v : BitVec w.bits}
    (h : memRead w a s = .ok v t) : t.stackOverflowPending = s.stackOverflowPending := by
  rw [(memRead_ok h).2.1]
  rfl

theorem fetch_overflow {s t : State} {v : Word} (h : fetch s = .ok v t) :
    t.stackOverflowPending = s.stackOverflowPending := by
  obtain ⟨u, h1, rfl⟩ := fetch_ok h
  exact (memRead_overflow h1 :)

theorem readLoc_overflow {w : Width} {l : Loc} {s t : State} {v : BitVec w.bits}
    (h : readLoc w l s = .ok v t) : t.stackOverflowPending = s.stackOverflowPending := by
  cases l with
  | reg i => rw [readLoc_reg] at h; cases h; rfl
  | mem a => exact memRead_overflow h

/-- Only a push through SP looks at the stack limit. -/
theorem loc_overflow {w : Width} {o : Operand} {s t : State} {l : Loc} (h : loc w o s = .ok l t)
    (hp : isPush o = false) : t.stackOverflowPending = s.stackOverflowPending := by
  obtain ⟨m, r⟩ := o
  have dec : ∀ d, (r = .r6 → False) →
      (decrementState r d s).stackOverflowPending = s.stackOverflowPending := by
    intro d hr
    simp only [decrementState]
    rw [if_neg (fun h => hr h.1)]
    rfl
  cases m <;> simp only [loc] at h
  case register => cases h; rfl
  case deferred => obtain ⟨a, u, h1, h⟩ := Exec.bind_ok h; cases h1; cases h; rfl
  case autoInc =>
    obtain ⟨a, u, h1, h⟩ := Exec.bind_ok h
    rw [autoIncrement_apply] at h1
    cases h1; cases h; rfl
  case autoIncDeferred =>
    obtain ⟨a, u, h1, h⟩ := Exec.bind_ok h
    rw [autoIncrement_apply] at h1
    cases h1
    obtain ⟨b, u', h2, h⟩ := Exec.bind_ok h
    cases h
    rw [memRead_overflow h2]; rfl
  case autoDec =>
    obtain ⟨a, u, h1, h⟩ := Exec.bind_ok h
    rw [autoDecrement_apply] at h1
    cases h1; cases h
    exact dec _ (by simpa [isPush] using hp)
  case autoDecDeferred =>
    obtain ⟨a, u, h1, h⟩ := Exec.bind_ok h
    rw [autoDecrement_apply] at h1
    cases h1
    obtain ⟨b, u', h2, h⟩ := Exec.bind_ok h
    cases h
    rw [memRead_overflow h2]
    exact dec _ (by simpa [isPush] using hp)
  case indexed =>
    obtain ⟨a, u, h1, h⟩ := Exec.bind_ok h
    cases h
    obtain ⟨x, hf, _⟩ := indexedAddress_ok h1
    exact fetch_overflow hf
  case indexDeferred =>
    obtain ⟨a, u, h1, h⟩ := Exec.bind_ok h
    obtain ⟨b, u', h2, h⟩ := Exec.bind_ok h
    cases h
    obtain ⟨x, hf, _⟩ := indexedAddress_ok h1
    rw [memRead_overflow h2, fetch_overflow hf]

theorem sourceAndDest_overflow {w : Width} {src dst : Operand} {s t : State} {v : BitVec w.bits}
    {l : Loc} (h : sourceAndDest w src dst s = .ok (v, l) t) (hs : isPush src = false)
    (hd : isPush dst = false) : t.stackOverflowPending = s.stackOverflowPending := by
  simp only [sourceAndDest] at h
  rw [Exec.bind_eq (Exec.get_apply s)] at h
  split at h
  · obtain ⟨d, u, h1, h⟩ := Exec.bind_ok h
    obtain ⟨x, u', h2, h⟩ := Exec.bind_ok h
    cases h
    rw [readLoc_overflow h2, loc_overflow h1 hd]
  · obtain ⟨l', u, h1, h⟩ := Exec.bind_ok h
    obtain ⟨x, u', h2, h⟩ := Exec.bind_ok h
    obtain ⟨d, u'', h3, h⟩ := Exec.bind_ok h
    cases h
    rw [loc_overflow h3 hd, readLoc_overflow h2, loc_overflow h1 hs]


/-- An operand denotes a register in mode 0 alone. -/
theorem loc_reg {w : Width} {o : Operand} {s t : State} {i : Reg} (h : loc w o s = .ok (.reg i) t) :
    o.mode = .register ∧ o.reg = i := by
  obtain ⟨m, r⟩ := o
  cases m <;> simp only [loc] at h
  case register => cases h; exact ⟨rfl, rfl⟩
  all_goals
    obtain ⟨a, u, h1, h⟩ := Exec.bind_ok h
    first
      | cases h
      | (obtain ⟨b, u', h2, h⟩ := Exec.bind_ok h; cases h)

/-- The destination is a register in mode 0 alone. -/
theorem sourceAndDest_reg {w : Width} {src dst : Operand} {s t : State} {v : BitVec w.bits} {i : Reg}
    (h : sourceAndDest w src dst s = .ok (v, .reg i) t) : dst.mode = .register ∧ dst.reg = i := by
  simp only [sourceAndDest] at h
  rw [Exec.bind_eq (Exec.get_apply s)] at h
  split at h
  · obtain ⟨d, u, h1, h⟩ := Exec.bind_ok h
    obtain ⟨x, u', h2, h⟩ := Exec.bind_ok h
    cases h
    exact loc_reg h1
  · obtain ⟨l', u, h1, h⟩ := Exec.bind_ok h
    obtain ⟨x, u', h2, h⟩ := Exec.bind_ok h
    obtain ⟨d, u'', h3, h⟩ := Exec.bind_ok h
    cases h
    exact loc_reg h3

/-- A write goes to a register or through MemWrite. -/
theorem writeLoc_ok {w : Width} {l : Loc} {s t : State} {v : BitVec w.bits}
    (h : writeLoc w l v s = .ok () t) :
    (∃ i, l = .reg i ∧ t = s.setReg i (withRegPart w (s.regs.get i) v)) ∨
      ∃ a, l = .mem a ∧ memWrite w a v s = .ok () t := by
  cases l with
  | reg i => rw [writeLoc_reg] at h; cases h; exact .inl ⟨i, rfl, rfl⟩
  | mem a => exact .inr ⟨a, rfl, h⟩

/-- What can be reached stays reachable. -/
theorem reachable_untouched {w : Width} {l : Loc} {s t : State} (k : Untouched s t)
    (h : reachable w s l) : reachable w t l := by
  cases l with
  | reg i => trivial
  | mem a => show accessFails w t.cfg a = false; rw [k.cfg]; exact h

/-! ## Templates -/

theorem update_eq {w : Width} {dst : Operand} {result : BitVec w.bits → Psw → BitVec w.bits}
    {flags : BitVec w.bits → Psw → Psw} {s s1 s2 : State} {l : Loc} {d : BitVec w.bits}
    (h1 : loc w dst s = .ok l s1) (h2 : readLoc w l s1 = .ok d s2) :
    update w dst result flags s =
      writeLoc w l (result d s2.psw) (s2.setPsw (flags d s2.psw)) := by
  simp only [update]
  rw [Exec.bind_eq h1, Exec.bind_eq h2, Exec.bind_eq (Exec.get_apply s2),
    Exec.bind_eq (modifyPsw_apply _ _)]

theorem testOne_eq {w : Width} {dst : Operand} {flags : BitVec w.bits → Psw → Psw} {s s1 s2 : State}
    {l : Loc} {d : BitVec w.bits} (h1 : loc w dst s = .ok l s1) (h2 : readLoc w l s1 = .ok d s2) :
    testOne w dst flags s = .ok () (s2.setPsw (flags d s2.psw)) := by
  simp only [testOne]
  rw [Exec.bind_eq h1, Exec.bind_eq h2, modifyPsw_apply]

theorem clear_eq {w : Width} {dst : Operand} {s s1 : State} {l : Loc}
    (h1 : loc w dst s = .ok l s1) :
    clear w dst s = writeLoc w l 0 (s1.setPsw (clrFlags s1.psw)) := by
  simp only [clear]
  rw [Exec.bind_eq h1, Exec.bind_eq (modifyPsw_apply _ _)]

theorem combine_eq {w : Width} {src dst : Operand}
    {result : BitVec w.bits → BitVec w.bits → BitVec w.bits}
    {flags : BitVec w.bits → BitVec w.bits → Psw → Psw} {s s1 s2 : State} {v d : BitVec w.bits}
    {l : Loc} (h1 : sourceAndDest w src dst s = .ok (v, l) s1) (h2 : readLoc w l s1 = .ok d s2) :
    combine w src dst result flags s =
      writeLoc w l (result v d) (s2.setPsw (flags v d s2.psw)) := by
  simp only [combine]
  rw [Exec.bind_eq h1]
  simp only
  rw [Exec.bind_eq h2, Exec.bind_eq (modifyPsw_apply _ _)]

theorem testBoth_eq {w : Width} {src dst : Operand}
    {flags : BitVec w.bits → BitVec w.bits → Psw → Psw} {s s1 s2 : State} {v d : BitVec w.bits}
    {l : Loc} (h1 : sourceAndDest w src dst s = .ok (v, l) s1) (h2 : readLoc w l s1 = .ok d s2) :
    testBoth w src dst flags s = .ok () (s2.setPsw (flags v d s2.psw)) := by
  simp only [testBoth]
  rw [Exec.bind_eq h1]
  simp only
  rw [Exec.bind_eq h2, modifyPsw_apply]

/-- The target of a jump whose destination is an address. -/
theorem jumpTarget_eq {dst : Operand} {s s1 : State} {a : Word}
    (h : loc .word dst s = .ok (.mem a) s1) :
    jumpTarget dst s =
      .ok (if s1.cfg.jmpAutoincPost && dst.mode = .autoInc then s1.regs.get dst.reg else a) s1 := by
  simp only [jumpTarget]
  rw [Exec.bind_eq h]
  simp only
  rw [Exec.bind_eq (Exec.get_apply s1)]
  split <;> simp_all

end Sys2Proof.Machine
end

