-- ==== Sys2Proof/Laws/Preserves.lean ====
section
/-! SUPPORT. Properties of states that every shared operation keeps: an invariant need be checked on the
updates alone (`Closed`), and then holds after each operation, whether it completes or raises. -/

namespace Sys2Proof.Machine

/-- A property that every update of the state keeps. -/
structure Closed (P : State → Prop) : Prop where
  reg : ∀ s i v, P s → P (s.setReg i v)
  psw : ∀ s p, P s → P (s.setPsw p)
  draw : ∀ s n, P s → P { s with draws := n }
  overflow : ∀ s b, P s → P { s with stackOverflowPending := b }
  trace : ∀ s, P s → P { s with tracePending := false }
  devices : ∀ s, P s → P s.resetDevices
  run : ∀ s r, P s → P { s with run := r }
  bus : ∀ s, P s → P (busStep s)
  store : ∀ s w a v, accessFails w s.cfg a = false → P s → P (s.store w a v)

/-- An operation after which a property holds if it held before. -/
def Keeps {α : Type} (P : State → Prop) (x : Exec α) : Prop :=
  ∀ s, P s → match x s with
    | .ok _ t => P t
    | .error _ t => P t

section
variable {P : State → Prop}

theorem Keeps.ok {α : Type} {x : Exec α} (k : Keeps P x) {s t : State} {a : α} (h : x s = .ok a t)
    (p : P s) : P t := by
  have := k s p; simpa [h] using this

theorem Keeps.error {α : Type} {x : Exec α} (k : Keeps P x) {s t : State} {e : Exception}
    (h : x s = .error e t) (p : P s) : P t := by
  have := k s p; simpa [h] using this

theorem Keeps.bind {α β : Type} {x : Exec α} {f : α → Exec β} (k : Keeps P x)
    (kf : ∀ a, Keeps P (f a)) : Keeps P (x >>= f) := by
  intro s p
  rw [Exec.bind_apply]
  cases h : x s with
  | ok a t => exact kf a t (k.ok h p)
  | error e t => exact k.error h p

theorem Keeps.pure {α : Type} (a : α) : Keeps P (Pure.pure a : Exec α) := fun _ p => p

theorem Keeps.get : Keeps P (MonadState.get : Exec State) := fun _ p => p

theorem Keeps.ite {α : Type} {c : Prop} [Decidable c] {x y : Exec α} (hx : Keeps P x)
    (hy : Keeps P y) : Keeps P (if c then x else y) := by
  split <;> assumption

theorem keeps_raise {α : Type} (e : Exception) : Keeps P (raise e : Exec α) := fun _ p => p

theorem keeps_getReg (i : Reg) : Keeps P (getReg i) := fun _ p => p

variable (C : Closed P)
include C

theorem keeps_setReg (i : Reg) (v : Word) : Keeps P (setReg i v) := fun s p => C.reg s i v p

theorem keeps_modifyPsw (f : Psw → Psw) : Keeps P (modifyPsw f) := fun s p => C.psw s _ p

theorem keeps_stackCheck : Keeps P stackCheck := by
  intro s p
  rw [stackCheck_apply]
  simp only
  split
  · exact C.overflow s true p
  · exact p

theorem keeps_memRead (w : Width) (a : Word) : Keeps P (memRead w a) := by
  intro s p
  cases h : memRead w a s with
  | ok v t => rw [(memRead_ok h).2.1]; exact C.draw _ _ (C.bus s p)
  | error e t => rw [(memRead_error h).2.2]; exact C.bus s p

theorem keeps_memWrite (w : Width) (a : Word) (v : BitVec w.bits) : Keeps P (memWrite w a v) := by
  intro s p
  cases h : memWrite w a v s with
  | ok u t => obtain ⟨hf, rfl⟩ := memWrite_ok h; exact C.store _ w a v hf (C.bus s p)
  | error e t => rw [(memWrite_error h).2.2]; exact C.bus s p

theorem keeps_fetch : Keeps P fetch :=
  (keeps_getReg _).bind fun _ => (keeps_memRead C _ _).bind fun _ =>
    (keeps_setReg C _ _).bind fun _ => .pure _

theorem keeps_push (v : Word) : Keeps P (push v) :=
  (keeps_getReg _).bind fun _ => (keeps_setReg C _ _).bind fun _ =>
    (keeps_stackCheck C).bind fun _ => keeps_memWrite C _ _ _

theorem keeps_pop : Keeps P pop :=
  (keeps_getReg _).bind fun _ => (keeps_memRead C _ _).bind fun _ =>
    (keeps_setReg C _ _).bind fun _ => .pure _

theorem keeps_entryAccesses (vec : Word) : Keeps P (entryAccesses vec) := fun s p =>
  ((keeps_push C _).bind fun _ => (keeps_push C _).bind fun _ =>
    (keeps_memRead C _ _).bind fun _ => (keeps_setReg C _ _).bind fun _ =>
      (keeps_memRead C _ _).bind fun _ => keeps_modifyPsw C _) s p

/-- Entering a vector keeps a closed property. -/
theorem trapEntry_keeps (vec : Word) {s : State} (p : P s) : P (trapEntry vec s) := by
  unfold trapEntry
  cases h : entryAccesses vec s with
  | ok u t => exact (keeps_entryAccesses C vec).ok h p
  | error e t => exact C.run t _ ((keeps_entryAccesses C vec).error h p)

/-- Taking an exception keeps a closed property. -/
theorem takeException_keeps (e : Exception) {s : State} (p : P s) : P (takeException e s) :=
  trapEntry_keeps C _ (C.trace s p)

/-- An instruction of operations that keep a closed property keeps it. -/
theorem perform_keeps {x : Exec Unit} (k : Keeps P x) {s t : State} (h : perform x s = .next t)
    (p : P s) : P t := by
  unfold perform at h
  split at h
  · cases h; exact k.ok ‹_› p
  · cases h; exact takeException_keeps C _ (k.error ‹_› p)

theorem keeps_returnFromTrap : Keeps P returnFromTrap :=
  (keeps_pop C).bind fun _ => (keeps_setReg C _ _).bind fun _ => (keeps_pop C).bind fun _ =>
    keeps_modifyPsw C _

theorem keeps_autoIncrement (r : Reg) (d : Word) : Keeps P (autoIncrement r d) :=
  (keeps_getReg _).bind fun _ => (keeps_setReg C _ _).bind fun _ => .pure _

theorem keeps_autoDecrement (r : Reg) (d : Word) : Keeps P (autoDecrement r d) := by
  refine (keeps_getReg _).bind fun _ => (keeps_setReg C _ _).bind fun _ => ?_
  split
  · exact (keeps_stackCheck C).bind fun _ => .pure _
  · exact Keeps.bind (.pure _) fun _ => .pure _

theorem keeps_indexedAddress (r : Reg) : Keeps P (indexedAddress r) :=
  (keeps_fetch C).bind fun _ => (keeps_getReg _).bind fun _ => .pure _

theorem keeps_loc (w : Width) (o : Operand) : Keeps P (loc w o) := by
  unfold loc
  split
  · exact .pure _
  · exact (keeps_getReg _).bind fun _ => .pure _
  · exact (keeps_autoIncrement C _ _).bind fun _ => .pure _
  · exact (keeps_autoIncrement C _ _).bind fun _ => (keeps_memRead C _ _).bind fun _ => .pure _
  · exact (keeps_autoDecrement C _ _).bind fun _ => .pure _
  · exact (keeps_autoDecrement C _ _).bind fun _ => (keeps_memRead C _ _).bind fun _ => .pure _
  · exact (keeps_indexedAddress C _).bind fun _ => .pure _
  · exact (keeps_indexedAddress C _).bind fun _ => (keeps_memRead C _ _).bind fun _ => .pure _

theorem keeps_readLoc (w : Width) (l : Loc) : Keeps P (readLoc w l) := by
  cases l with
  | reg i => exact (keeps_getReg _).bind fun _ => .pure _
  | mem a => exact keeps_memRead C w a

theorem keeps_writeLoc (w : Width) (l : Loc) (v : BitVec w.bits) : Keeps P (writeLoc w l v) := by
  cases l with
  | reg i => exact (keeps_getReg _).bind fun _ => keeps_setReg C _ _
  | mem a => exact keeps_memWrite C w a v

theorem keeps_writeLocMovb (l : Loc) (v : Byte) : Keeps P (writeLocMovb l v) := by
  cases l with
  | reg i => exact keeps_setReg C _ _
  | mem a => exact keeps_memWrite C .byte a v

theorem keeps_sourceAndDest (w : Width) (src dst : Operand) : Keeps P (sourceAndDest w src dst) := by
  refine Keeps.get.bind fun s => ?_
  simp only
  split
  · exact (keeps_loc C _ _).bind fun _ => (keeps_readLoc C _ _).bind fun _ => .pure _
  · exact (keeps_loc C _ _).bind fun _ => (keeps_readLoc C _ _).bind fun _ =>
      (keeps_loc C _ _).bind fun _ => .pure _

theorem keeps_testBoth (w : Width) (src dst : Operand)
    (flags : BitVec w.bits → BitVec w.bits → Psw → Psw) : Keeps P (testBoth w src dst flags) :=
  (keeps_sourceAndDest C _ _ _).bind fun _ => (keeps_readLoc C _ _).bind fun _ =>
    keeps_modifyPsw C _

theorem keeps_combine (w : Width) (src dst : Operand)
    (result : BitVec w.bits → BitVec w.bits → BitVec w.bits)
    (flags : BitVec w.bits → BitVec w.bits → Psw → Psw) :
    Keeps P (combine w src dst result flags) :=
  (keeps_sourceAndDest C _ _ _).bind fun _ => (keeps_readLoc C _ _).bind fun _ =>
    (keeps_modifyPsw C _).bind fun _ => keeps_writeLoc C _ _ _

theorem keeps_update (w : Width) (dst : Operand) (result : BitVec w.bits → Psw → BitVec w.bits)
    (flags : BitVec w.bits → Psw → Psw) : Keeps P (update w dst result flags) :=
  (keeps_loc C _ _).bind fun _ => (keeps_readLoc C _ _).bind fun _ => Keeps.get.bind fun _ =>
    (keeps_modifyPsw C _).bind fun _ => keeps_writeLoc C _ _ _

theorem keeps_testOne (w : Width) (dst : Operand) (flags : BitVec w.bits → Psw → Psw) :
    Keeps P (testOne w dst flags) :=
  (keeps_loc C _ _).bind fun _ => (keeps_readLoc C _ _).bind fun _ => keeps_modifyPsw C _

theorem keeps_clear (w : Width) (dst : Operand) : Keeps P (clear w dst) :=
  (keeps_loc C _ _).bind fun _ => (keeps_modifyPsw C _).bind fun _ => keeps_writeLoc C _ _ _

theorem keeps_jumpTarget (dst : Operand) : Keeps P (jumpTarget dst) := by
  refine (keeps_loc C _ _).bind fun l => ?_
  cases l with
  | reg i => exact keeps_raise _
  | mem a => exact Keeps.get.bind fun _ => .ite (keeps_getReg _) (.pure _)

theorem keeps_branchIf (cond : Psw → Bool) (off : BitVec 8) : Keeps P (branchIf cond off) := by
  intro s p
  simp only [branchIf]
  split
  · exact C.reg s _ _ p
  · exact p

theorem keeps_setRun (r : RunState) : Keeps P (setRun r) := fun s p => C.run s r p

/-- Every instruction keeps a closed property. -/
theorem exec_keeps {i : Instr} {s t : State} (h : exec i s = .next t) (p : P s) : P t := by
  cases i
  case mov | movb =>
    exact perform_keeps C ((keeps_sourceAndDest C _ _ _).bind fun _ =>
      (keeps_modifyPsw C _).bind fun _ => by
        first
          | exact keeps_writeLoc C _ _ _
          | exact keeps_writeLocMovb C _ _) h p
  case cmp | cmpb | bit | bitb => exact perform_keeps C (keeps_testBoth C _ _ _ _) h p
  case bic | bicb | bis | bisb | add | sub => exact perform_keeps C (keeps_combine C _ _ _ _ _) h p
  case clr | clrb => exact perform_keeps C (keeps_clear C _ _) h p
  case tst | tstb => exact perform_keeps C (keeps_testOne C _ _ _) h p
  case com | comb | inc | incb | dec | decb | neg | negb | adc | adcb | sbc | sbcb | ror | rorb | rol
      | rolb | asr | asrb | asl | aslb | swab =>
    exact perform_keeps C (keeps_update C _ _ _ _) h p
  case jmp =>
    exact perform_keeps C ((keeps_jumpTarget C _).bind fun _ => keeps_setReg C _ _) h p
  case jsr =>
    exact perform_keeps C ((keeps_jumpTarget C _).bind fun _ => (keeps_getReg _).bind fun _ =>
      (keeps_push C _).bind fun _ => (keeps_getReg _).bind fun _ =>
        (keeps_setReg C _ _).bind fun _ => keeps_setReg C _ _) h p
  case rts =>
    exact perform_keeps C ((keeps_getReg _).bind fun _ => (keeps_setReg C _ _).bind fun _ =>
      (keeps_pop C).bind fun _ => keeps_setReg C _ _) h p
  case halt | wait => exact perform_keeps C (keeps_setRun C _) h p
  case rti => exact perform_keeps C (keeps_returnFromTrap C) h p
  case reset => cases h; exact C.devices s p
  case br | bne | beq | bge | blt | bgt | ble | bpl | bmi | bhi | blos | bvc | bvs | bcc | bcs | bhis
      | blo =>
    simp only [exec, execBr, execBne, execBeq, execBge, execBlt, execBgt, execBle, execBpl, execBmi,
      execBhi, execBlos, execBvc, execBvs, execBcc, execBcs, execBhis, execBlo] at h
    exact perform_keeps C (keeps_branchIf C _ _) h p
  case cco | nop | clc | clv | clz | cln | ccc | nop260 | sec | sev | sez | sen | scc =>
    exact perform_keeps C (keeps_modifyPsw C _) h p
  all_goals exact perform_keeps C (keeps_raise _) h p

end

end Sys2Proof.Machine
end

