-- ==== Sys2Proof/Laws/Events.lean ====
section
/-! SUPPORT. What the end of an instruction does: each of its parts when it has nothing to do, when it makes
its entry, and what all of them together, and so a step, keep. -/

namespace Sys2Proof.Machine

/-! ## Nothing to do -/

theorem serveTrace_off {s : State} (h : s.tracePending = false) : serveTrace s = s := by
  unfold serveTrace; rw [h]; simp

theorem serveOverflow_off {s : State} (h : s.stackOverflowPending = false) : serveOverflow s = s := by
  unfold serveOverflow; rw [h]; simp

theorem topRequest_none {s : State} (h : ∀ d ∈ s.irq, d ∉ s.cfg.devices) : topRequest s = none := by
  have : ∀ level, requestAt s level = none := by
    intro level
    unfold requestAt
    rw [List.find?_eq_none]
    intro d hd
    simp only [Bool.and_eq_true, List.contains_iff_mem, not_and]
    exact fun hi => absurd hd (h d hi)
  simp [topRequest, this]

theorem grantInterrupt_idle {s : State} (h : s.irq = []) : grantInterrupt s = s := by
  unfold grantInterrupt; rw [topRequest_none (by simp [h])]

theorem consumePending_off {s : State} (h : s.tracePending = false)
    (h' : s.stackOverflowPending = false) : consumePending s = s := by
  cases s
  simp only at h h'
  subst h; subst h'; rfl

/-- With nothing pending and no device acting, the end of an instruction changes nothing. -/
theorem endOfInstruction_quiet {s : State} (h : s.tracePending = false)
    (h' : s.stackOverflowPending = false) (hb : busIdle s) : endOfInstruction s = s := by
  unfold endOfInstruction
  rw [serveTrace_off h, serveOverflow_off h', busStep_idle hb.1, grantInterrupt_idle hb.2,
    serveOverflow_off h', consumePending_off h h']

/-! ## Entries -/

theorem serveTrace_on {s : State} (h : s.tracePending = true) (hr : s.run ≠ .halted) :
    serveTrace s = enter traceVector { s with tracePending := false } := by
  unfold serveTrace; rw [if_pos (by simp [h, hr])]

theorem serveOverflow_on {s : State} (h : s.stackOverflowPending = true) (hr : s.run ≠ .halted) :
    serveOverflow s = { enter busErrorVector s with stackOverflowPending := false } := by
  unfold serveOverflow; rw [if_pos (by simp [h, hr])]

/-- An entry made from an instruction's end is `entryState`, the processor running. -/
theorem enter_memory {vec : Word} {s : State} (h : stackReady s) (hv : isOdd vec = false)
    (ht : vec.toNat + 4 ≤ memTop s.cfg) :
    enter vec s = entryState vec { s with run := .running } :=
  trapEntry_memory (s := { s with run := .running }) h hv ht

/-! ## What a step keeps -/

/-- The devices' steps keep a property that their requests and their stores to memory keep. -/
theorem busStep_keeps {P : State → Prop} (ht : ∀ s, P s → P { s with busEvents := s.busEvents.tail })
    (hq : ∀ s e, P s → P { s with irq := requestsAfter s.cfg s.irq e })
    (hm : ∀ s w a (v : BitVec (Width.bits w)), accessFails w s.cfg a = false →
      place s.cfg a = .memory → P s → P { s with mem := memStore w s.mem a v })
    {s : State} (p : P s) : P (busStep s) := by
  have one : ∀ s e, P s → P { s with
      mem := memoryAfter s.cfg s.mem e, irq := requestsAfter s.cfg s.irq e } := by
    intro s e p
    have pq : P { s with irq := requestsAfter s.cfg s.irq e } := hq s e p
    obtain h | ⟨w, a, v, hf, hp, h⟩ := memoryAfter_cases s.cfg s.mem e <;> rw [h]
    · exact pq
    · exact hm { s with irq := requestsAfter s.cfg s.irq e } w a v hf hp pq
  have all : ∀ (l : List BusEvent) (s : State), P s → P { s with
      mem := l.foldl (memoryAfter s.cfg) s.mem, irq := l.foldl (requestsAfter s.cfg) s.irq } := by
    intro l
    induction l with
    | nil => exact fun _ p => p
    | cons e l ih => exact fun s p => ih _ (one s e p)
  exact all s.eventsNow _ (ht s p)

/-- What every access, the devices' steps and the withdrawal of a request keep, the end of an instruction
keeps. -/
theorem endOfInstruction_keeps {P : State → Prop} (C : Closed P)
    (hi : ∀ s d, P s → P { s with irq := removeDevice d s.irq }) {s : State} (p : P s) :
    P (endOfInstruction s) := by
  have overflow : ∀ s, P s → P (serveOverflow s) := by
    intro s p
    unfold serveOverflow
    split
    · exact C.overflow _ _ (trapEntry_keeps C _ (C.run _ _ p))
    · exact p
  have grant : ∀ s, P s → P (grantInterrupt s) := by
    intro s p
    unfold grantInterrupt
    split
    · split
      · exact trapEntry_keeps C _ (C.run _ _ (hi _ _ p))
      · exact p
    · exact p
  have trace : P (serveTrace s) := by
    unfold serveTrace
    split
    · exact trapEntry_keeps C _ (C.run _ _ (C.trace _ p))
    · exact p
  unfold endOfInstruction consumePending
  exact C.overflow _ _ (C.trace _ (overflow _ (grant _ (C.bus _ (overflow _ trace)))))

/-- The same of a step. -/
theorem step_keeps {P : State → Prop} (C : Closed P) (hs : ∀ s, P s → P (sampleTrace s))
    (hi : ∀ s d, P s → P { s with irq := removeDevice d s.irq })
    {s t : State} (h : step s = .next t) (p : P s) : P t := by
  unfold step at h
  split at h
  · unfold runInstruction at h
    split at h
    · rename_i w u hf
      have pu : P u := (keeps_fetch C).ok hf (hs _ p)
      cases hx : exec (decodeWord w) u with
      | next v =>
        rw [hx] at h; cases h
        exact endOfInstruction_keeps C hi (exec_keeps C hx pu)
      | fault f => rw [hx] at h; cases h
      | refused r => rw [hx] at h; cases h
    · rename_i e u hf
      have pu : P u := (keeps_fetch C).error hf (hs _ p)
      cases h
      exact endOfInstruction_keeps C hi (takeException_keeps C _ pu)
  · cases h; exact endOfInstruction_keeps C hi p
  · cases h

end Sys2Proof.Machine
end

