-- ==== Sys2Proof/Laws/PerInstr.lean ====
section
/-! SUPPORT. Per instruction: its code fits a word, so that encoding drops no bit. -/

namespace Sys2Proof.Laws

/-- The instruction's code is a number of sixteen bits. -/
def CodeFits.Statement (i : Instr) : Prop :=
  i.code < 65536

namespace CodeFits

theorem mov (src dst : Operand) : Statement (.mov src dst) := by
  have := src.code_lt; have := dst.code_lt
  show 0o010000 + src.code * 64 + dst.code < 65536
  omega

theorem movb (src dst : Operand) : Statement (.movb src dst) := by
  have := src.code_lt; have := dst.code_lt
  show 0o110000 + src.code * 64 + dst.code < 65536
  omega

theorem cmp (src dst : Operand) : Statement (.cmp src dst) := by
  have := src.code_lt; have := dst.code_lt
  show 0o020000 + src.code * 64 + dst.code < 65536
  omega

theorem cmpb (src dst : Operand) : Statement (.cmpb src dst) := by
  have := src.code_lt; have := dst.code_lt
  show 0o120000 + src.code * 64 + dst.code < 65536
  omega

theorem bit (src dst : Operand) : Statement (.bit src dst) := by
  have := src.code_lt; have := dst.code_lt
  show 0o030000 + src.code * 64 + dst.code < 65536
  omega

theorem bitb (src dst : Operand) : Statement (.bitb src dst) := by
  have := src.code_lt; have := dst.code_lt
  show 0o130000 + src.code * 64 + dst.code < 65536
  omega

theorem bic (src dst : Operand) : Statement (.bic src dst) := by
  have := src.code_lt; have := dst.code_lt
  show 0o040000 + src.code * 64 + dst.code < 65536
  omega

theorem bicb (src dst : Operand) : Statement (.bicb src dst) := by
  have := src.code_lt; have := dst.code_lt
  show 0o140000 + src.code * 64 + dst.code < 65536
  omega

theorem bis (src dst : Operand) : Statement (.bis src dst) := by
  have := src.code_lt; have := dst.code_lt
  show 0o050000 + src.code * 64 + dst.code < 65536
  omega

theorem bisb (src dst : Operand) : Statement (.bisb src dst) := by
  have := src.code_lt; have := dst.code_lt
  show 0o150000 + src.code * 64 + dst.code < 65536
  omega

theorem add (src dst : Operand) : Statement (.add src dst) := by
  have := src.code_lt; have := dst.code_lt
  show 0o060000 + src.code * 64 + dst.code < 65536
  omega

theorem sub (src dst : Operand) : Statement (.sub src dst) := by
  have := src.code_lt; have := dst.code_lt
  show 0o160000 + src.code * 64 + dst.code < 65536
  omega

theorem jsrIllegal (r d : Reg) : Statement (.jsrIllegal r d) := by
  have := r.code_lt; have := d.code_lt
  show 0o004000 + r.code * 64 + d.code < 65536
  omega

theorem jsr (r : Reg) (dst : Operand) : Statement (.jsr r dst) := by
  have := r.code_lt; have := dst.code_lt
  show 0o004000 + r.code * 64 + dst.code < 65536
  omega

theorem rts (r : Reg) : Statement (.rts r) := by
  have := r.code_lt
  show 0o000200 + r.code < 65536
  omega

theorem halt : Statement .halt := of_decide_eq_true (p := _ < 65536) rfl

theorem wait : Statement .wait := of_decide_eq_true (p := _ < 65536) rfl

theorem rti : Statement .rti := of_decide_eq_true (p := _ < 65536) rfl

theorem bpt : Statement .bpt := of_decide_eq_true (p := _ < 65536) rfl

theorem iot : Statement .iot := of_decide_eq_true (p := _ < 65536) rfl

theorem reset : Statement .reset := of_decide_eq_true (p := _ < 65536) rfl

theorem emt (code : BitVec 8) : Statement (.emt code) := by
  have := code.isLt
  show 0o104000 + code.toNat < 65536
  omega

theorem trap (code : BitVec 8) : Statement (.trap code) := by
  have := code.isLt
  show 0o104400 + code.toNat < 65536
  omega

theorem clr (dst : Operand) : Statement (.clr dst) := by
  have := dst.code_lt
  show 0o005000 + dst.code < 65536
  omega

theorem clrb (dst : Operand) : Statement (.clrb dst) := by
  have := dst.code_lt
  show 0o105000 + dst.code < 65536
  omega

theorem com (dst : Operand) : Statement (.com dst) := by
  have := dst.code_lt
  show 0o005100 + dst.code < 65536
  omega

theorem comb (dst : Operand) : Statement (.comb dst) := by
  have := dst.code_lt
  show 0o105100 + dst.code < 65536
  omega

theorem inc (dst : Operand) : Statement (.inc dst) := by
  have := dst.code_lt
  show 0o005200 + dst.code < 65536
  omega

theorem incb (dst : Operand) : Statement (.incb dst) := by
  have := dst.code_lt
  show 0o105200 + dst.code < 65536
  omega

theorem dec (dst : Operand) : Statement (.dec dst) := by
  have := dst.code_lt
  show 0o005300 + dst.code < 65536
  omega

theorem decb (dst : Operand) : Statement (.decb dst) := by
  have := dst.code_lt
  show 0o105300 + dst.code < 65536
  omega

theorem neg (dst : Operand) : Statement (.neg dst) := by
  have := dst.code_lt
  show 0o005400 + dst.code < 65536
  omega

theorem negb (dst : Operand) : Statement (.negb dst) := by
  have := dst.code_lt
  show 0o105400 + dst.code < 65536
  omega

theorem adc (dst : Operand) : Statement (.adc dst) := by
  have := dst.code_lt
  show 0o005500 + dst.code < 65536
  omega

theorem adcb (dst : Operand) : Statement (.adcb dst) := by
  have := dst.code_lt
  show 0o105500 + dst.code < 65536
  omega

theorem sbc (dst : Operand) : Statement (.sbc dst) := by
  have := dst.code_lt
  show 0o005600 + dst.code < 65536
  omega

theorem sbcb (dst : Operand) : Statement (.sbcb dst) := by
  have := dst.code_lt
  show 0o105600 + dst.code < 65536
  omega

theorem tst (dst : Operand) : Statement (.tst dst) := by
  have := dst.code_lt
  show 0o005700 + dst.code < 65536
  omega

theorem tstb (dst : Operand) : Statement (.tstb dst) := by
  have := dst.code_lt
  show 0o105700 + dst.code < 65536
  omega

theorem ror (dst : Operand) : Statement (.ror dst) := by
  have := dst.code_lt
  show 0o006000 + dst.code < 65536
  omega

theorem rorb (dst : Operand) : Statement (.rorb dst) := by
  have := dst.code_lt
  show 0o106000 + dst.code < 65536
  omega

theorem rol (dst : Operand) : Statement (.rol dst) := by
  have := dst.code_lt
  show 0o006100 + dst.code < 65536
  omega

theorem rolb (dst : Operand) : Statement (.rolb dst) := by
  have := dst.code_lt
  show 0o106100 + dst.code < 65536
  omega

theorem asr (dst : Operand) : Statement (.asr dst) := by
  have := dst.code_lt
  show 0o006200 + dst.code < 65536
  omega

theorem asrb (dst : Operand) : Statement (.asrb dst) := by
  have := dst.code_lt
  show 0o106200 + dst.code < 65536
  omega

theorem asl (dst : Operand) : Statement (.asl dst) := by
  have := dst.code_lt
  show 0o006300 + dst.code < 65536
  omega

theorem aslb (dst : Operand) : Statement (.aslb dst) := by
  have := dst.code_lt
  show 0o106300 + dst.code < 65536
  omega

theorem jmpIllegal (d : Reg) : Statement (.jmpIllegal d) := by
  have := d.code_lt
  show 0o000100 + d.code < 65536
  omega

theorem jmp (dst : Operand) : Statement (.jmp dst) := by
  have := dst.code_lt
  show 0o000100 + dst.code < 65536
  omega

theorem swab (dst : Operand) : Statement (.swab dst) := by
  have := dst.code_lt
  show 0o000300 + dst.code < 65536
  omega

theorem cco (s n z v c : Bool) : Statement (.cco s n z v c) := by
  cases s <;> cases n <;> cases z <;> cases v <;> cases c <;>
    exact of_decide_eq_true (p := _ < 65536) rfl

theorem nop : Statement .nop := of_decide_eq_true (p := _ < 65536) rfl

theorem clc : Statement .clc := of_decide_eq_true (p := _ < 65536) rfl

theorem clv : Statement .clv := of_decide_eq_true (p := _ < 65536) rfl

theorem clz : Statement .clz := of_decide_eq_true (p := _ < 65536) rfl

theorem cln : Statement .cln := of_decide_eq_true (p := _ < 65536) rfl

theorem ccc : Statement .ccc := of_decide_eq_true (p := _ < 65536) rfl

theorem nop260 : Statement .nop260 := of_decide_eq_true (p := _ < 65536) rfl

theorem sec : Statement .sec := of_decide_eq_true (p := _ < 65536) rfl

theorem sev : Statement .sev := of_decide_eq_true (p := _ < 65536) rfl

theorem sez : Statement .sez := of_decide_eq_true (p := _ < 65536) rfl

theorem sen : Statement .sen := of_decide_eq_true (p := _ < 65536) rfl

theorem scc : Statement .scc := of_decide_eq_true (p := _ < 65536) rfl

theorem br (off : BitVec 8) : Statement (.br off) := by
  have := off.isLt
  show 0o000400 + off.toNat < 65536
  omega

theorem bne (off : BitVec 8) : Statement (.bne off) := by
  have := off.isLt
  show 0o001000 + off.toNat < 65536
  omega

theorem beq (off : BitVec 8) : Statement (.beq off) := by
  have := off.isLt
  show 0o001400 + off.toNat < 65536
  omega

theorem bge (off : BitVec 8) : Statement (.bge off) := by
  have := off.isLt
  show 0o002000 + off.toNat < 65536
  omega

theorem blt (off : BitVec 8) : Statement (.blt off) := by
  have := off.isLt
  show 0o002400 + off.toNat < 65536
  omega

theorem bgt (off : BitVec 8) : Statement (.bgt off) := by
  have := off.isLt
  show 0o003000 + off.toNat < 65536
  omega

theorem ble (off : BitVec 8) : Statement (.ble off) := by
  have := off.isLt
  show 0o003400 + off.toNat < 65536
  omega

theorem bpl (off : BitVec 8) : Statement (.bpl off) := by
  have := off.isLt
  show 0o100000 + off.toNat < 65536
  omega

theorem bmi (off : BitVec 8) : Statement (.bmi off) := by
  have := off.isLt
  show 0o100400 + off.toNat < 65536
  omega

theorem bhi (off : BitVec 8) : Statement (.bhi off) := by
  have := off.isLt
  show 0o101000 + off.toNat < 65536
  omega

theorem blos (off : BitVec 8) : Statement (.blos off) := by
  have := off.isLt
  show 0o101400 + off.toNat < 65536
  omega

theorem bvc (off : BitVec 8) : Statement (.bvc off) := by
  have := off.isLt
  show 0o102000 + off.toNat < 65536
  omega

theorem bvs (off : BitVec 8) : Statement (.bvs off) := by
  have := off.isLt
  show 0o102400 + off.toNat < 65536
  omega

theorem bcc (off : BitVec 8) : Statement (.bcc off) := by
  have := off.isLt
  show 0o103000 + off.toNat < 65536
  omega

theorem bcs (off : BitVec 8) : Statement (.bcs off) := by
  have := off.isLt
  show 0o103400 + off.toNat < 65536
  omega

theorem bhis (off : BitVec 8) : Statement (.bhis off) := by
  have := off.isLt
  show 0o103000 + off.toNat < 65536
  omega

theorem blo (off : BitVec 8) : Statement (.blo off) := by
  have := off.isLt
  show 0o103400 + off.toNat < 65536
  omega

theorem unlisted_000006_000007 (x : BitVec 1) : Statement (.unlisted_000006_000007 x) := by
  have := x.isLt
  show 0o000006 + x.toNat < 65536
  omega

theorem unlisted_000010_000017 (x : BitVec 3) : Statement (.unlisted_000010_000017 x) := by
  have := x.isLt
  show 0o000010 + x.toNat < 65536
  omega

theorem unlisted_000020_000037 (x : BitVec 4) : Statement (.unlisted_000020_000037 x) := by
  have := x.isLt
  show 0o000020 + x.toNat < 65536
  omega

theorem unlisted_000040_000077 (x : BitVec 5) : Statement (.unlisted_000040_000077 x) := by
  have := x.isLt
  show 0o000040 + x.toNat < 65536
  omega

theorem unlisted_000210_000217 (x : BitVec 3) : Statement (.unlisted_000210_000217 x) := by
  have := x.isLt
  show 0o000210 + x.toNat < 65536
  omega

theorem unlisted_000220_000237 (x : BitVec 4) : Statement (.unlisted_000220_000237 x) := by
  have := x.isLt
  show 0o000220 + x.toNat < 65536
  omega

theorem unlisted_006400_006777 (x : BitVec 8) : Statement (.unlisted_006400_006777 x) := by
  have := x.isLt
  show 0o006400 + x.toNat < 65536
  omega

theorem unlisted_007000_007777 (x : BitVec 9) : Statement (.unlisted_007000_007777 x) := by
  have := x.isLt
  show 0o007000 + x.toNat < 65536
  omega

theorem unlisted_070000_077777 (x : BitVec 12) : Statement (.unlisted_070000_077777 x) := by
  have := x.isLt
  show 0o070000 + x.toNat < 65536
  omega

theorem unlisted_106400_106777 (x : BitVec 8) : Statement (.unlisted_106400_106777 x) := by
  have := x.isLt
  show 0o106400 + x.toNat < 65536
  omega

theorem unlisted_107000_107777 (x : BitVec 9) : Statement (.unlisted_107000_107777 x) := by
  have := x.isLt
  show 0o107000 + x.toNat < 65536
  omega

theorem unlisted_170000_177777 (x : BitVec 12) : Statement (.unlisted_170000_177777 x) := by
  have := x.isLt
  show 0o170000 + x.toNat < 65536
  omega

end CodeFits

/-- Encoding drops no bit. -/
theorem encode_toNat (i : Instr) : (encode i).toNat = i.code := by
  have h : CodeFits.Statement i := by
    cases i
    case mov => apply CodeFits.mov
    case movb => apply CodeFits.movb
    case cmp => apply CodeFits.cmp
    case cmpb => apply CodeFits.cmpb
    case bit => apply CodeFits.bit
    case bitb => apply CodeFits.bitb
    case bic => apply CodeFits.bic
    case bicb => apply CodeFits.bicb
    case bis => apply CodeFits.bis
    case bisb => apply CodeFits.bisb
    case add => apply CodeFits.add
    case sub => apply CodeFits.sub
    case jsrIllegal => apply CodeFits.jsrIllegal
    case jsr => apply CodeFits.jsr
    case rts => apply CodeFits.rts
    case halt => apply CodeFits.halt
    case wait => apply CodeFits.wait
    case rti => apply CodeFits.rti
    case bpt => apply CodeFits.bpt
    case iot => apply CodeFits.iot
    case reset => apply CodeFits.reset
    case emt => apply CodeFits.emt
    case trap => apply CodeFits.trap
    case clr => apply CodeFits.clr
    case clrb => apply CodeFits.clrb
    case com => apply CodeFits.com
    case comb => apply CodeFits.comb
    case inc => apply CodeFits.inc
    case incb => apply CodeFits.incb
    case dec => apply CodeFits.dec
    case decb => apply CodeFits.decb
    case neg => apply CodeFits.neg
    case negb => apply CodeFits.negb
    case adc => apply CodeFits.adc
    case adcb => apply CodeFits.adcb
    case sbc => apply CodeFits.sbc
    case sbcb => apply CodeFits.sbcb
    case tst => apply CodeFits.tst
    case tstb => apply CodeFits.tstb
    case ror => apply CodeFits.ror
    case rorb => apply CodeFits.rorb
    case rol => apply CodeFits.rol
    case rolb => apply CodeFits.rolb
    case asr => apply CodeFits.asr
    case asrb => apply CodeFits.asrb
    case asl => apply CodeFits.asl
    case aslb => apply CodeFits.aslb
    case jmpIllegal => apply CodeFits.jmpIllegal
    case jmp => apply CodeFits.jmp
    case swab => apply CodeFits.swab
    case cco => apply CodeFits.cco
    case nop => apply CodeFits.nop
    case clc => apply CodeFits.clc
    case clv => apply CodeFits.clv
    case clz => apply CodeFits.clz
    case cln => apply CodeFits.cln
    case ccc => apply CodeFits.ccc
    case nop260 => apply CodeFits.nop260
    case sec => apply CodeFits.sec
    case sev => apply CodeFits.sev
    case sez => apply CodeFits.sez
    case sen => apply CodeFits.sen
    case scc => apply CodeFits.scc
    case br => apply CodeFits.br
    case bne => apply CodeFits.bne
    case beq => apply CodeFits.beq
    case bge => apply CodeFits.bge
    case blt => apply CodeFits.blt
    case bgt => apply CodeFits.bgt
    case ble => apply CodeFits.ble
    case bpl => apply CodeFits.bpl
    case bmi => apply CodeFits.bmi
    case bhi => apply CodeFits.bhi
    case blos => apply CodeFits.blos
    case bvc => apply CodeFits.bvc
    case bvs => apply CodeFits.bvs
    case bcc => apply CodeFits.bcc
    case bcs => apply CodeFits.bcs
    case bhis => apply CodeFits.bhis
    case blo => apply CodeFits.blo
    case unlisted_000006_000007 => apply CodeFits.unlisted_000006_000007
    case unlisted_000010_000017 => apply CodeFits.unlisted_000010_000017
    case unlisted_000020_000037 => apply CodeFits.unlisted_000020_000037
    case unlisted_000040_000077 => apply CodeFits.unlisted_000040_000077
    case unlisted_000210_000217 => apply CodeFits.unlisted_000210_000217
    case unlisted_000220_000237 => apply CodeFits.unlisted_000220_000237
    case unlisted_006400_006777 => apply CodeFits.unlisted_006400_006777
    case unlisted_007000_007777 => apply CodeFits.unlisted_007000_007777
    case unlisted_070000_077777 => apply CodeFits.unlisted_070000_077777
    case unlisted_106400_106777 => apply CodeFits.unlisted_106400_106777
    case unlisted_107000_107777 => apply CodeFits.unlisted_107000_107777
    case unlisted_170000_177777 => apply CodeFits.unlisted_170000_177777
  exact Nat.mod_eq_of_lt h

end Sys2Proof.Laws
end

