-- ==== Sys2Proof/Laws/Shapes.lean ====
section
/-! SUPPORT. The shapes claims are stated in, from the templates the meanings are written in. -/

namespace Sys2Proof.Machine

/-- A location that was read can be written. -/
theorem reachable_of_readLoc {w : Width} {l : Loc} {s t : State} {v : BitVec w.bits}
    (h : readLoc w l s = .ok v t) : reachable w t l := by
  cases l with
  | reg i => trivial
  | mem a =>
    have h' : memRead w a s = .ok v t := h
    obtain ⟨hf, ht, -⟩ := memRead_ok h'
    show accessFails w t.cfg a = false
    rw [ht]; exact hf

/-- A location that can be written can be read. -/
theorem readLoc_of_reachable {w : Width} {l : Loc} {s : State} (h : reachable w s l) :
    ∃ v t, readLoc w l s = .ok v t := by
  cases l with
  | reg i => exact ⟨_, _, rfl⟩
  | mem a => exact memRead_of_accessible h

/-- Setting PS changes no access. -/
theorem reachable_setPsw {w : Width} {l : Loc} {s : State} (p : Psw) (h : reachable w s l) :
    reachable w (s.setPsw p) l := by
  cases l with
  | reg i => trivial
  | mem a => exact h

theorem readsSetsWrites_of_update {w : Width} {dst : Operand} {i : Instr}
    {result result' : BitVec w.bits → Psw → BitVec w.bits} {flags flags' : BitVec w.bits → Psw → Psw}
    (hi : ∀ s, exec i s = perform (update w dst result' flags') s)
    (hr : ∀ d p, result' d p = result d p) (hf : ∀ d p, flags' d p = flags d p) :
    readsSetsWrites w dst i result flags := by
  intro s l s1 d s2 h1 h2
  obtain ⟨t, ht⟩ := writeLoc_of_reachable (result d s2.psw)
    (reachable_setPsw (flags d s2.psw) (reachable_of_readLoc h2))
  refine ⟨t, ht, ?_⟩
  rw [hi, perform_ok]
  rw [update_eq h1 h2, hr, hf]; exact ht

theorem readsSets_of_testOne {w : Width} {dst : Operand} {i : Instr}
    {flags flags' : BitVec w.bits → Psw → Psw}
    (hi : ∀ s, exec i s = perform (testOne w dst flags') s)
    (hf : ∀ d p, flags' d p = flags d p) : readsSets w dst i flags := by
  intro s l s1 d s2 h1 h2
  rw [hi, perform_ok (testOne_eq h1 h2), hf]

theorem combinesOperands_of_combine {w : Width} {src dst : Operand} {i : Instr}
    {result result' : BitVec w.bits → BitVec w.bits → BitVec w.bits}
    {flags flags' : BitVec w.bits → BitVec w.bits → Psw → Psw}
    (hi : ∀ s, exec i s = perform (combine w src dst result' flags') s)
    (hr : ∀ v d, result' v d = result v d) (hf : ∀ v d p, flags' v d p = flags v d p) :
    combinesOperands w src dst i result flags := by
  intro s v l s1 d s2 h1 h2
  obtain ⟨t, ht⟩ := writeLoc_of_reachable (result v d)
    (reachable_setPsw (flags v d s2.psw) (reachable_of_readLoc h2))
  refine ⟨t, ht, ?_⟩
  rw [hi, perform_ok]
  rw [combine_eq h1 h2, hr, hf]; exact ht

theorem comparesOperands_of_testBoth {w : Width} {src dst : Operand} {i : Instr}
    {flags flags' : BitVec w.bits → BitVec w.bits → Psw → Psw}
    (hi : ∀ s, exec i s = perform (testBoth w src dst flags') s)
    (hf : ∀ v d p, flags' v d p = flags v d p) : comparesOperands w src dst i flags := by
  intro s v l s1 d s2 h1 h2
  rw [hi, perform_ok (testBoth_eq h1 h2), hf]

/-- `SetNZ` in the two ways it is written. -/
theorem setNZ_flagged {n : Nat} (r : BitVec n) (v c : Bool) (p : Psw) :
    { setNZ r p with v := v, c := c } = flagged r v c p := by
  have h : (r == 0#n) = decide (r.toNat = 0) := by
    rw [beq_eq_decide]; simp only [BitVec.toNat_eq, BitVec.toNat_zero]
  simp [setNZ, flagged, ← h, BitVec.msb_eq_getLsbD_last]

theorem logicFlags_flagged {n : Nat} (r : BitVec n) (p : Psw) :
    logicFlags r p = flagged r false p.c p := by
  rw [← setNZ_flagged]; rfl

end Sys2Proof.Machine
end

