-- ==== Sys2Proof/Tests/Slice0.lean ====
section
/-! SUPPORT. The model's own tests: each check of WellFormed, each row's decoding, the spec's test vectors
(95_test_vectors.md) at one or two per instruction, and for each statement with hypotheses a case that meets
them. -/

namespace Sys2Proof.Tests

open Sys2Proof.Machine

/-! ## WellFormed: ill-formed terms are refused, their neighbours are not -/

theorem test_wellFormed_refuses_jmp_mode0 :
    (Instr.jmp ⟨.register, .r3⟩).wellFormed = false ∧
    (Instr.jmp ⟨.deferred, .r3⟩).wellFormed = true := by
  decide

theorem test_wellFormed_refuses_jsr_mode0 :
    (Instr.jsr .r5 ⟨.register, .r3⟩).wellFormed = false ∧
    (Instr.jsr .r5 ⟨.indexed, .r7⟩).wellFormed = true := by
  decide

theorem test_wellFormed_refuses_named_cco :
    (Instr.cco true false false false false).wellFormed = false ∧
    (Instr.cco true false true false false).wellFormed = false ∧
    (Instr.cco false true true true true).wellFormed = false ∧
    (Instr.cco false true false false true).wellFormed = true ∧
    (Instr.cco false true true false true).wellFormed = true := by
  decide

/-! ## Decoding: a word of every row, its bits from the row's encoding in opcode_table.json -/

theorem test_decode_doubleOperand :
    decodeWord 0b0001010011001110 = .mov ⟨.autoInc, .r3⟩ ⟨.deferred, .r6⟩ ∧
    decodeWord 0b1001110000110011 = .movb ⟨.indexed, .r0⟩ ⟨.indexed, .r3⟩ ∧
    decodeWord 0b0010001101011000 = .cmp ⟨.deferred, .r5⟩ ⟨.autoIncDeferred, .r0⟩ ∧
    decodeWord 0b1010101010111101 = .cmpb ⟨.autoDecDeferred, .r2⟩ ⟨.indexDeferred, .r5⟩ ∧
    decodeWord 0b0011000111100010 = .bit ⟨.register, .r7⟩ ⟨.autoDec, .r2⟩ ∧
    decodeWord 0b1011100100000111 = .bitb ⟨.autoDec, .r4⟩ ⟨.register, .r7⟩ ∧
    decodeWord 0b0100000001101100 = .bic ⟨.register, .r1⟩ ⟨.autoDecDeferred, .r4⟩ ∧
    decodeWord 0b1100011110010001 = .bicb ⟨.autoIncDeferred, .r6⟩ ⟨.autoInc, .r1⟩ ∧
    decodeWord 0b0101111011110110 = .bis ⟨.indexDeferred, .r3⟩ ⟨.indexed, .r6⟩ ∧
    decodeWord 0b1101011000011011 = .bisb ⟨.autoIncDeferred, .r0⟩ ⟨.autoIncDeferred, .r3⟩ ∧
    decodeWord 0b0110110101000000 = .add ⟨.indexed, .r5⟩ ⟨.register, .r0⟩ ∧
    decodeWord 0b1110010010100101 = .sub ⟨.autoInc, .r2⟩ ⟨.autoDec, .r5⟩ := by
  decide

theorem test_decode_illegalJumps :
    decodeWord 0b0000100001000010 = .jsrIllegal .r1 .r2 ∧
    decodeWord 0b0000000001000001 = .jmpIllegal .r1 := by
  decide

theorem test_decode_jsr :
    decodeWord 0b0000100100101111 = .jsr .r4 ⟨.autoDecDeferred, .r7⟩ := by
  decide

theorem test_decode_rts :
    decodeWord 0b0000000010000111 = .rts .r7 := by
  decide

theorem test_decode_operate :
    decodeWord 0b0000000000000000 = .halt ∧
    decodeWord 0b0000000000000001 = .wait ∧
    decodeWord 0b0000000000000010 = .rti ∧
    decodeWord 0b0000000000000011 = .bpt ∧
    decodeWord 0b0000000000000100 = .iot ∧
    decodeWord 0b0000000000000101 = .reset := by
  decide

theorem test_decode_emtAndTrap :
    decodeWord 0b1000100011111000 = .emt 0b11111000 ∧
    decodeWord 0b1000100110011011 = .trap 0b10011011 := by
  decide

theorem test_decode_singleOperand :
    decodeWord 0b0000101000100001 = .clr ⟨.autoDec, .r1⟩ ∧
    decodeWord 0b1000101000000110 = .clrb ⟨.register, .r6⟩ ∧
    decodeWord 0b0000101001101011 = .com ⟨.autoDecDeferred, .r3⟩ ∧
    decodeWord 0b1000101001010000 = .comb ⟨.autoInc, .r0⟩ ∧
    decodeWord 0b0000101010110101 = .inc ⟨.indexed, .r5⟩ ∧
    decodeWord 0b1000101010011010 = .incb ⟨.autoIncDeferred, .r2⟩ ∧
    decodeWord 0b0000101011111111 = .dec ⟨.indexDeferred, .r7⟩ ∧
    decodeWord 0b1000101011100100 = .decb ⟨.autoDec, .r4⟩ ∧
    decodeWord 0b0000101100001001 = .neg ⟨.deferred, .r1⟩ ∧
    decodeWord 0b1000101100101110 = .negb ⟨.autoDecDeferred, .r6⟩ ∧
    decodeWord 0b0000101101010011 = .adc ⟨.autoInc, .r3⟩ ∧
    decodeWord 0b1000101101111000 = .adcb ⟨.indexDeferred, .r0⟩ ∧
    decodeWord 0b0000101110011101 = .sbc ⟨.autoIncDeferred, .r5⟩ ∧
    decodeWord 0b1000101110000010 = .sbcb ⟨.register, .r2⟩ ∧
    decodeWord 0b0000101111100111 = .tst ⟨.autoDec, .r7⟩ ∧
    decodeWord 0b1000101111001100 = .tstb ⟨.deferred, .r4⟩ ∧
    decodeWord 0b0000110000110001 = .ror ⟨.indexed, .r1⟩ ∧
    decodeWord 0b1000110000010110 = .rorb ⟨.autoInc, .r6⟩ ∧
    decodeWord 0b0000110001111011 = .rol ⟨.indexDeferred, .r3⟩ ∧
    decodeWord 0b1000110001100000 = .rolb ⟨.autoDec, .r0⟩ ∧
    decodeWord 0b0000110010000101 = .asr ⟨.register, .r5⟩ ∧
    decodeWord 0b1000110010101010 = .asrb ⟨.autoDecDeferred, .r2⟩ ∧
    decodeWord 0b0000110011001111 = .asl ⟨.deferred, .r7⟩ ∧
    decodeWord 0b1000110011110100 = .aslb ⟨.indexed, .r4⟩ ∧
    decodeWord 0b0000000001111110 = .jmp ⟨.indexDeferred, .r6⟩ ∧
    decodeWord 0b0000000011100011 = .swab ⟨.autoDec, .r3⟩ := by
  decide

theorem test_decode_conditionCodes :
    decodeWord 0b0000000010110110 = .cco true false true true false ∧
    decodeWord 0b0000000010100000 = .nop ∧
    decodeWord 0b0000000010100001 = .clc ∧
    decodeWord 0b0000000010100010 = .clv ∧
    decodeWord 0b0000000010100100 = .clz ∧
    decodeWord 0b0000000010101000 = .cln ∧
    decodeWord 0b0000000010101111 = .ccc ∧
    decodeWord 0b0000000010110000 = .nop260 ∧
    decodeWord 0b0000000010110001 = .sec ∧
    decodeWord 0b0000000010110010 = .sev ∧
    decodeWord 0b0000000010110100 = .sez ∧
    decodeWord 0b0000000010111000 = .sen ∧
    decodeWord 0b0000000010111111 = .scc := by
  decide

theorem test_decode_branches :
    decodeWord 0b0000000110110110 = .br 0b10110110 ∧
    decodeWord 0b0000001001011001 = .bne 0b01011001 ∧
    decodeWord 0b0000001111111100 = .beq 0b11111100 ∧
    decodeWord 0b0000010010011111 = .bge 0b10011111 ∧
    decodeWord 0b0000010101000010 = .blt 0b01000010 ∧
    decodeWord 0b0000011011100101 = .bgt 0b11100101 ∧
    decodeWord 0b0000011110001000 = .ble 0b10001000 ∧
    decodeWord 0b1000000000101011 = .bpl 0b00101011 ∧
    decodeWord 0b1000000111001110 = .bmi 0b11001110 ∧
    decodeWord 0b1000001001110001 = .bhi 0b01110001 ∧
    decodeWord 0b1000001100010100 = .blos 0b00010100 ∧
    decodeWord 0b1000010010110111 = .bvc 0b10110111 ∧
    decodeWord 0b1000010101011010 = .bvs 0b01011010 ∧
    decodeWord 0b1000011011111101 = .bcc 0b11111101 ∧
    decodeWord 0b1000011110100000 = .bcs 0b10100000 ∧
    decodeWord 0b1000011001000011 = .bcc 0b01000011 ∧
    decodeWord 0b1000011111100110 = .bcs 0b11100110 := by
  decide

theorem test_decode_unlisted :
    decodeWord 0b0000000000000111 = .unlisted_000006_000007 0b1 ∧
    decodeWord 0b0000000000001101 = .unlisted_000010_000017 0b101 ∧
    decodeWord 0b0000000000011011 = .unlisted_000020_000037 0b1011 ∧
    decodeWord 0b0000000000110110 = .unlisted_000040_000077 0b10110 ∧
    decodeWord 0b0000000010001101 = .unlisted_000210_000217 0b101 ∧
    decodeWord 0b0000000010011011 = .unlisted_000220_000237 0b1011 ∧
    decodeWord 0b0000110101011011 = .unlisted_006400_006777 0b01011011 ∧
    decodeWord 0b0000111111111110 = .unlisted_007000_007777 0b111111110 ∧
    decodeWord 0b0111001110100001 = .unlisted_070000_077777 0b001110100001 ∧
    decodeWord 0b1000110101000100 = .unlisted_106400_106777 0b01000100 ∧
    decodeWord 0b1000111011100111 = .unlisted_107000_107777 0b011100111 ∧
    decodeWord 0b1111000010001010 = .unlisted_170000_177777 0b000010001010 := by
  decide

theorem test_decode_refuses_short_lists :
    decode [] = .error .truncated ∧ decode [0o5] = .error .truncated := ⟨rfl, rfl⟩

/-- 20_memory.md R52: the low byte comes first. Vector 005037 177776 of 95_test_vectors.md section 3. -/
theorem test_decode_bytes :
    decode [0o037, 0o012, 0o376, 0o377] = .ok (.clr ⟨.autoIncDeferred, .r7⟩, [0o376, 0o377]) := rfl

/-- 30_encoding.md R91 and section 3's lengths. -/
theorem test_words :
    (Instr.sub ⟨.indexed, .r2⟩ ⟨.indexed, .r3⟩).words = 3 ∧
    (Instr.bitb ⟨.autoInc, .r7⟩ ⟨.deferred, .r1⟩).words = 2 ∧ (Instr.rts .r7).words = 1 := by
  decide

theorem test_decodeTableWord :
    decodeTableWord 16 0o000137 = some (.jmp ⟨.autoIncDeferred, .r7⟩) ∧
    decodeTableWord 16 0o004501 = some (.jsrIllegal .r5 .r1) := by
  decide

/-! ## Steps: the spec's vectors -/

/-- The parameters 95_test_vectors.md states its vectors for. -/
def vectorConfig : Config :=
  { startConfig with memSize := .k4, srcRegLate := false, jmpAutoincPost := false }

/-- The state before a vector: the instruction at 0o1000, SP at 0o2000, words of memory, registers, PS. -/
def vector (words : List (Nat × Word)) (regs : List (Reg × Word)) (ps : Word) : State :=
  let s := State.start vectorConfig
  { s with
    mem := words.foldl (fun m x => writeCells m x.1 x.2) []
    regs := regs.foldl (fun g x => g.set x.1 x.2) ((s.regs.set .r7 0o1000).set .r6 0o2000)
    psw := Psw.ofWord ps }

/-- One step is made and its state passes a check. -/
def after (s : State) (check : State → Bool) : Bool :=
  match step s with
  | .next t => check t
  | _ => false

/-- The flags N, Z, V, C as a number. -/
def nzvc (t : State) : Word :=
  t.psw.toWord &&& 0o17

/-- Whether the branch word at 0o1000 goes to 0o1006, its offset being 2. -/
def goes (w : Word) (flags : Word) : Bool :=
  after (vector [(0o1000, w)] [] flags) (fun t => t.regs.r7 == 0o1006)

/-- The flags after the operator word, from these flags. -/
def flagsAfter (w : Word) (flags : Word) (expected : Word) : Bool :=
  after (vector [(0o1000, w)] [] flags) (fun t => nzvc t == expected && t.regs.r7 == 0o1002)

/-- The entry an instruction word makes: the vector's two words are 0o4000 and `ps`. -/
def traps (w : Word) (vec : Nat) (ps : Word) : Bool :=
  after (vector [(vec, 0o4000), (vec + 2, ps), (0o1000, w)] [] 0o5) (fun t =>
    t.regs.r7 == 0o4000 && t.regs.r6 == 0o1774 && t.psw.toWord == ps &&
      readCells t.mem 0o1776 == 0o5 && readCells t.mem 0o1774 == 0o1002)

/-- An instruction in the last word of memory, so that its extra word lies where nothing answers. -/
def atTheTop (w : Word) : State :=
  vector [(0o17776, w)] [(.r7, 0o17776)] 0

/-- Where an instruction word in the last word of memory saves PS and PC. -/
def saves (w ps pc : Word) : Bool :=
  after (atTheTop w) (fun t => readCells t.mem 0o1776 == ps && readCells t.mem 0o1774 == pc)

/-- `TST #n`, `TST @#A` and `CLR #n` whose extra word lies where nothing answers: PC has been stepped when the
access fails (40_addressing_modes.md R112, R122), and CLR has set its flags (44_single_operand.md R190). -/
theorem test_extraWordFails :
    saves 0o005727 0 0o20002 ∧ saves 0o005737 0 0o20002 ∧ saves 0o005027 0o4 0o20002 := by
  decide

/-- `JMP #n` reads no word. -/
theorem test_jmpImmediate :
    after (atTheTop 0o000127) (fun t => t.regs.r7 == 0o20000 && t.regs.r6 == 0o2000) := by
  decide

/-- Vectors: MOV negative, C kept; two index words MOV 2(R1),4(R2). -/
theorem test_mov :
    after (vector [(0o1000, 0o010001)]
      [(.r0, 0o100000), (.r1, 0o0)] 0o7) (fun t =>
      t.regs.r1 == 0o100000 && nzvc t == 0o11) ∧
    after (vector [(0o1000, 0o016162), (0o1002, 0o000002), (0o1004, 0o000004), (0o3002, 0o012345)]
      [(.r1, 0o3000), (.r2, 0o3100)] 0o0) (fun t =>
      readCells t.mem 0o3104 == 0o12345 && t.regs.r7 == 0o1006) := by
  decide

/-- Vectors: MOVB to register sign-extends; MOVB to memory odd byte. -/
theorem test_movb :
    after (vector [(0o1000, 0o110001)]
      [(.r0, 0o200), (.r1, 0o52525)] 0o0) (fun t =>
      t.regs.r1 == 0o177600 && nzvc t == 0o10) ∧
    after (vector [(0o1000, 0o110011), (0o3000, 0o000000)]
      [(.r0, 0o377), (.r1, 0o3001)] 0o0) (fun t =>
      readCells t.mem 0o3000 == 0o177400 && nzvc t == 0o10) := by
  decide

/-- Vectors: CMP 5,7 (borrow); CMP 077777,177777 (overflow, borrow). -/
theorem test_cmp :
    after (vector [(0o1000, 0o020001)]
      [(.r0, 0o5), (.r1, 0o7)] 0o0) (fun t =>
      nzvc t == 0o11) ∧
    after (vector [(0o1000, 0o020001)]
      [(.r0, 0o77777), (.r1, 0o177777)] 0o0) (fun t =>
      nzvc t == 0o13) := by
  decide

/-- Vectors: CMPB 200,1 (byte overflow); CMPB ignores high bytes. -/
theorem test_cmpb :
    after (vector [(0o1000, 0o120001)]
      [(.r0, 0o200), (.r1, 0o1)] 0o0) (fun t =>
      nzvc t == 0o2) ∧
    after (vector [(0o1000, 0o120001)]
      [(.r0, 0o125005), (.r1, 0o52405)] 0o0) (fun t =>
      nzvc t == 0o4) := by
  decide

/-- Vectors: BIT nonzero; BIT zero. -/
theorem test_bit :
    after (vector [(0o1000, 0o030001)]
      [(.r0, 0o300), (.r1, 0o100)] 0o3) (fun t =>
      nzvc t == 0o1) ∧
    after (vector [(0o1000, 0o030001)]
      [(.r0, 0o300), (.r1, 0o3)] 0o12) (fun t =>
      nzvc t == 0o4) := by
  decide

/-- Vectors: BITB bit 7. -/
theorem test_bitb :
    after (vector [(0o1000, 0o130001)]
      [(.r0, 0o200), (.r1, 0o377)] 0o0) (fun t =>
      nzvc t == 0o10) := by
  decide

/-- Vectors: BIC; BIC to zero. -/
theorem test_bic :
    after (vector [(0o1000, 0o040001)]
      [(.r0, 0o17), (.r1, 0o177777)] 0o3) (fun t =>
      t.regs.r1 == 0o177760 && nzvc t == 0o11) ∧
    after (vector [(0o1000, 0o040001)]
      [(.r0, 0o177777), (.r1, 0o123456)] 0o10) (fun t =>
      t.regs.r1 == 0o0 && nzvc t == 0o4) := by
  decide

/-- Vectors: BICB register keeps high byte. -/
theorem test_bicb :
    after (vector [(0o1000, 0o140001)]
      [(.r0, 0o360), (.r1, 0o125377)] 0o0) (fun t =>
      t.regs.r1 == 0o125017) := by
  decide

/-- Vectors: BIS; BIS zero or zero. -/
theorem test_bis :
    after (vector [(0o1000, 0o050001)]
      [(.r0, 0o100000), (.r1, 0o1)] 0o7) (fun t =>
      t.regs.r1 == 0o100001 && nzvc t == 0o11) ∧
    after (vector [(0o1000, 0o050001)]
      [(.r0, 0o0), (.r1, 0o0)] 0o12) (fun t =>
      nzvc t == 0o4) := by
  decide

/-- Vectors: BISB memory. -/
theorem test_bisb :
    after (vector [(0o1000, 0o150011), (0o3000, 0o001000)]
      [(.r0, 0o201), (.r1, 0o3001)] 0o0) (fun t =>
      readCells t.mem 0o3000 == 0o101400 && nzvc t == 0o10) := by
  decide

/-- Vectors: ADD signed overflow; ADD neg+neg overflow and carry. -/
theorem test_add :
    after (vector [(0o1000, 0o060001)]
      [(.r0, 0o77777), (.r1, 0o1)] 0o0) (fun t =>
      t.regs.r1 == 0o100000 && nzvc t == 0o12) ∧
    after (vector [(0o1000, 0o060001)]
      [(.r0, 0o100000), (.r1, 0o100000)] 0o0) (fun t =>
      t.regs.r1 == 0o0 && nzvc t == 0o7) := by
  decide

/-- Vectors: SUB borrow; SUB overflow (100000 - 1). -/
theorem test_sub :
    after (vector [(0o1000, 0o160001)]
      [(.r0, 0o5), (.r1, 0o3)] 0o0) (fun t =>
      t.regs.r1 == 0o177776 && nzvc t == 0o11) ∧
    after (vector [(0o1000, 0o160001)]
      [(.r0, 0o1), (.r1, 0o100000)] 0o0) (fun t =>
      t.regs.r1 == 0o77777 && nzvc t == 0o2) := by
  decide

/-- Vectors: CLR; CLR -(SP) pushes 0. -/
theorem test_clr :
    after (vector [(0o1000, 0o005001)]
      [(.r1, 0o123456)] 0o13) (fun t =>
      t.regs.r1 == 0o0 && nzvc t == 0o4) ∧
    after (vector [(0o1000, 0o005046), (0o1776, 0o177777)]
      [] 0o0) (fun t =>
      t.regs.r6 == 0o1776 && readCells t.mem 0o1776 == 0o0 && nzvc t == 0o4) := by
  decide

/-- Vectors: CLRB memory odd byte. -/
theorem test_clrb :
    after (vector [(0o1000, 0o105011), (0o3000, 0o177777)]
      [(.r1, 0o3001)] 0o0) (fun t =>
      readCells t.mem 0o3000 == 0o377 && nzvc t == 0o4) := by
  decide

/-- Vectors: COM. -/
theorem test_com :
    after (vector [(0o1000, 0o005101)]
      [(.r1, 0o13333)] 0o0) (fun t =>
      t.regs.r1 == 0o164444 && nzvc t == 0o11) := by
  decide

/-- Vectors: COMB. -/
theorem test_comb :
    after (vector [(0o1000, 0o105101)]
      [(.r1, 0o125252)] 0o0) (fun t =>
      t.regs.r1 == 0o125125 && nzvc t == 0o1) := by
  decide

/-- Vectors: INC overflow; INC wrap to 0, C unchanged. -/
theorem test_inc :
    after (vector [(0o1000, 0o005201)]
      [(.r1, 0o77777)] 0o0) (fun t =>
      t.regs.r1 == 0o100000 && nzvc t == 0o12) ∧
    after (vector [(0o1000, 0o005201)]
      [(.r1, 0o177777)] 0o0) (fun t =>
      t.regs.r1 == 0o0 && nzvc t == 0o4) := by
  decide

/-- Vectors: INCB 377 no carry into high byte; INCB via (R1)+ steps 1. -/
theorem test_incb :
    after (vector [(0o1000, 0o105201)]
      [(.r1, 0o1377)] 0o1) (fun t =>
      t.regs.r1 == 0o1000 && nzvc t == 0o5) ∧
    after (vector [(0o1000, 0o105221), (0o3000, 0o000377)]
      [(.r1, 0o3000)] 0o0) (fun t =>
      t.regs.r1 == 0o3001 && readCells t.mem 0o3000 == 0o0 && nzvc t == 0o4) := by
  decide

/-- Vectors: DEC overflow; DEC. -/
theorem test_dec :
    after (vector [(0o1000, 0o005301)]
      [(.r1, 0o100000)] 0o0) (fun t =>
      t.regs.r1 == 0o77777 && nzvc t == 0o2) ∧
    after (vector [(0o1000, 0o005301)]
      [(.r1, 0o1)] 0o1) (fun t =>
      t.regs.r1 == 0o0 && nzvc t == 0o5) := by
  decide

/-- Vectors: DECB 200. -/
theorem test_decb :
    after (vector [(0o1000, 0o105301)]
      [(.r1, 0o200)] 0o0) (fun t =>
      t.regs.r1 == 0o177 && nzvc t == 0o2) := by
  decide

/-- Vectors: NEG 100000; NEG 0. -/
theorem test_neg :
    after (vector [(0o1000, 0o005401)]
      [(.r1, 0o100000)] 0o0) (fun t =>
      nzvc t == 0o13) ∧
    after (vector [(0o1000, 0o005401)]
      [(.r1, 0o0)] 0o13) (fun t =>
      nzvc t == 0o4) := by
  decide

/-- Vectors: NEGB 1 keeps high byte. -/
theorem test_negb :
    after (vector [(0o1000, 0o105401)]
      [(.r1, 0o52401)] 0o0) (fun t =>
      t.regs.r1 == 0o52777 && nzvc t == 0o11) := by
  decide

/-- Vectors: ADC 177777 C=1; ADC 077777 C=1. -/
theorem test_adc :
    after (vector [(0o1000, 0o005501)]
      [(.r1, 0o177777)] 0o1) (fun t =>
      t.regs.r1 == 0o0 && nzvc t == 0o5) ∧
    after (vector [(0o1000, 0o005501)]
      [(.r1, 0o77777)] 0o1) (fun t =>
      t.regs.r1 == 0o100000 && nzvc t == 0o12) := by
  decide

/-- Vectors: ADCB 377 C=1. -/
theorem test_adcb :
    after (vector [(0o1000, 0o105501)]
      [(.r1, 0o377)] 0o1) (fun t =>
      t.regs.r1 == 0o0 && nzvc t == 0o5) := by
  decide

/-- Vectors: SBC 0 C=1; SBC 100000 C=1. -/
theorem test_sbc :
    after (vector [(0o1000, 0o005601)]
      [(.r1, 0o0)] 0o1) (fun t =>
      t.regs.r1 == 0o177777 && nzvc t == 0o11) ∧
    after (vector [(0o1000, 0o005601)]
      [(.r1, 0o100000)] 0o1) (fun t =>
      t.regs.r1 == 0o77777 && nzvc t == 0o2) := by
  decide

/-- Vectors: SBCB 0 C=1. -/
theorem test_sbcb :
    after (vector [(0o1000, 0o105601)]
      [(.r1, 0o52000)] 0o1) (fun t =>
      t.regs.r1 == 0o52377 && nzvc t == 0o11) := by
  decide

/-- Vectors: TST negative; non-existent memory TST @#20000 (4K). -/
theorem test_tst :
    after (vector [(0o1000, 0o005701)]
      [(.r1, 0o100001)] 0o7) (fun t =>
      nzvc t == 0o10) ∧
    after (vector [(0o4, 0o004000), (0o6, 0o000340), (0o1000, 0o005737), (0o1002, 0o020000)]
      [] 0o0) (fun t =>
      t.regs.r6 == 0o1774 && readCells t.mem 0o1776 == 0o0 && readCells t.mem 0o1774 == 0o1004 && t.regs.r7 == 0o4000) := by
  decide

/-- Vectors: TSTB bit 7 only; TSTB high byte ignored. -/
theorem test_tstb :
    after (vector [(0o1000, 0o105701)]
      [(.r1, 0o200)] 0o3) (fun t =>
      nzvc t == 0o10) ∧
    after (vector [(0o1000, 0o105701)]
      [(.r1, 0o177400)] 0o0) (fun t =>
      nzvc t == 0o4) := by
  decide

/-- Vectors: ROR C=0; ROR C=1. -/
theorem test_ror :
    after (vector [(0o1000, 0o006001)]
      [(.r1, 0o1)] 0o0) (fun t =>
      t.regs.r1 == 0o0 && nzvc t == 0o7) ∧
    after (vector [(0o1000, 0o006001)]
      [(.r1, 0o2)] 0o1) (fun t =>
      t.regs.r1 == 0o100001 && nzvc t == 0o12) := by
  decide

/-- Vectors: RORB C=1. -/
theorem test_rorb :
    after (vector [(0o1000, 0o106001)]
      [(.r1, 0o52401)] 0o1) (fun t =>
      t.regs.r1 == 0o52600 && nzvc t == 0o11) := by
  decide

/-- Vectors: ROL C=0; ROL C=1. -/
theorem test_rol :
    after (vector [(0o1000, 0o006101)]
      [(.r1, 0o100000)] 0o0) (fun t =>
      t.regs.r1 == 0o0 && nzvc t == 0o7) ∧
    after (vector [(0o1000, 0o006101)]
      [(.r1, 0o40000)] 0o1) (fun t =>
      t.regs.r1 == 0o100001 && nzvc t == 0o12) := by
  decide

/-- Vectors: ROLB C=1. -/
theorem test_rolb :
    after (vector [(0o1000, 0o106101)]
      [(.r1, 0o200)] 0o1) (fun t =>
      t.regs.r1 == 0o1 && nzvc t == 0o3) := by
  decide

/-- Vectors: ASR negative; ASR 1. -/
theorem test_asr :
    after (vector [(0o1000, 0o006201)]
      [(.r1, 0o100001)] 0o0) (fun t =>
      t.regs.r1 == 0o140000 && nzvc t == 0o11) ∧
    after (vector [(0o1000, 0o006201)]
      [(.r1, 0o1)] 0o0) (fun t =>
      t.regs.r1 == 0o0 && nzvc t == 0o7) := by
  decide

/-- Vectors: ASRB 201. -/
theorem test_asrb :
    after (vector [(0o1000, 0o106201)]
      [(.r1, 0o201)] 0o0) (fun t =>
      t.regs.r1 == 0o300 && nzvc t == 0o11) := by
  decide

/-- Vectors: ASL; ASL 140000. -/
theorem test_asl :
    after (vector [(0o1000, 0o006301)]
      [(.r1, 0o40000)] 0o0) (fun t =>
      t.regs.r1 == 0o100000 && nzvc t == 0o12) ∧
    after (vector [(0o1000, 0o006301)]
      [(.r1, 0o140000)] 0o0) (fun t =>
      t.regs.r1 == 0o100000 && nzvc t == 0o11) := by
  decide

/-- Vectors: ASLB 300. -/
theorem test_aslb :
    after (vector [(0o1000, 0o106301)]
      [(.r1, 0o300)] 0o0) (fun t =>
      t.regs.r1 == 0o200 && nzvc t == 0o11) := by
  decide

/-- Vectors: SWAB; SWAB low byte becomes 0. -/
theorem test_swab :
    after (vector [(0o1000, 0o000301)]
      [(.r1, 0o377)] 0o3) (fun t =>
      t.regs.r1 == 0o177400 && nzvc t == 0o4) ∧
    after (vector [(0o1000, 0o000301)]
      [(.r1, 0o400)] 0o13) (fun t =>
      t.regs.r1 == 0o1 && nzvc t == 0o0) := by
  decide

/-- Vectors: JMP 2(R1); JMP @(R1)+. -/
theorem test_jmp :
    after (vector [(0o1000, 0o000161), (0o1002, 0o000002)]
      [(.r1, 0o3000)] 0o0) (fun t =>
      t.regs.r7 == 0o3002 && nzvc t == 0o0) ∧
    after (vector [(0o1000, 0o000131), (0o3000, 0o003100)]
      [(.r1, 0o3000)] 0o0) (fun t =>
      t.regs.r1 == 0o3002 && t.regs.r7 == 0o3100) := by
  decide

/-- Vectors: JMP R1 (mode 0) traps. -/
theorem test_jmpIllegal :
    after (vector [(0o4, 0o004000), (0o6, 0o000340), (0o1000, 0o000101)]
      [(.r1, 0o3000)] 0o0) (fun t =>
      t.regs.r6 == 0o1774 && readCells t.mem 0o1776 == 0o0 && readCells t.mem 0o1774 == 0o1002 && t.regs.r7 == 0o4000) := by
  decide

/-- Vectors: JSR R5,@#3000; JSR PC,@(SP)+ (coroutine swap). -/
theorem test_jsr :
    after (vector [(0o1000, 0o004537), (0o1002, 0o003000)]
      [(.r5, 0o55555)] 0o0) (fun t =>
      t.regs.r5 == 0o1004 && t.regs.r6 == 0o1776 && readCells t.mem 0o1776 == 0o55555 && t.regs.r7 == 0o3000) ∧
    after (vector [(0o1000, 0o004736), (0o2000, 0o003000)]
      [] 0o0) (fun t =>
      t.regs.r6 == 0o2000 && readCells t.mem 0o2000 == 0o1002 && t.regs.r7 == 0o3000) := by
  decide

/-- Vectors: JSR R5,R1 (mode 0) traps. -/
theorem test_jsrIllegal :
    after (vector [(0o4, 0o004000), (0o6, 0o000340), (0o1000, 0o004501)]
      [(.r1, 0o3000), (.r5, 0o5)] 0o0) (fun t =>
      t.regs.r6 == 0o1774 && readCells t.mem 0o1776 == 0o0 && readCells t.mem 0o1774 == 0o1002 && t.regs.r7 == 0o4000) := by
  decide

/-- Vectors: RTS PC; RTS R5. -/
theorem test_rts :
    after (vector [(0o1000, 0o000207), (0o2000, 0o001234)]
      [] 0o5) (fun t =>
      t.regs.r6 == 0o2002 && t.regs.r7 == 0o1234) ∧
    after (vector [(0o1000, 0o000205), (0o2000, 0o055555)]
      [(.r5, 0o3000)] 0o0) (fun t =>
      t.regs.r5 == 0o55555 && t.regs.r6 == 0o2002 && t.regs.r7 == 0o3000) := by
  decide

/-- Vectors: HALT. -/
theorem test_halt :
    after (vector [(0o1000, 0o000000)]
      [] 0o0) (fun t =>
      t.regs.r6 == 0o2000 && t.regs.r7 == 0o1002 && t.run == .halted) := by
  decide

/-- Vectors: WAIT. -/
theorem test_wait :
    after (vector [(0o1000, 0o000001)]
      [] 0o0) (fun t =>
      t.regs.r6 == 0o2000 && t.regs.r7 == 0o1002 && t.run == .waiting) := by
  decide

/-- Vectors: RTI; RTI PS high byte discarded. -/
theorem test_rti :
    after (vector [(0o1000, 0o000002), (0o2000, 0o003000), (0o2002, 0o000357)]
      [] 0o0) (fun t =>
      t.regs.r6 == 0o2004 && t.regs.r7 == 0o3000 && nzvc t == 0o17) ∧
    after (vector [(0o1000, 0o000002), (0o2000, 0o003000), (0o2002, 0o177417)]
      [] 0o0) (fun t =>
      t.regs.r6 == 0o2004 && t.regs.r7 == 0o3000 && nzvc t == 0o17) := by
  decide

/-- Vectors: BPT 000003. -/
theorem test_bpt :
    after (vector [(0o14, 0o004014), (0o16, 0o000017), (0o1000, 0o000003)]
      [] 0o12) (fun t =>
      t.regs.r6 == 0o1774 && readCells t.mem 0o1776 == 0o12 && readCells t.mem 0o1774 == 0o1002 && t.regs.r7 == 0o4014 && nzvc t == 0o17) := by
  decide

/-- Vectors: IOT 000004. -/
theorem test_iot :
    after (vector [(0o20, 0o004020), (0o22, 0o000200), (0o1000, 0o000004)]
      [] 0o5) (fun t =>
      t.regs.r6 == 0o1774 && readCells t.mem 0o1776 == 0o5 && readCells t.mem 0o1774 == 0o1002 && t.regs.r7 == 0o4020 && nzvc t == 0o0) := by
  decide

/-- Vectors: RESET. -/
theorem test_reset :
    after (vector [(0o1000, 0o000005)]
      [(.r0, 0o1)] 0o17) (fun t =>
      t.regs.r6 == 0o2000 && t.regs.r7 == 0o1002) := by
  decide

/-- Vectors: EMT 104377. -/
theorem test_emt :
    after (vector [(0o30, 0o004030), (0o32, 0o000000), (0o1000, 0o104377)]
      [] 0o0) (fun t =>
      t.regs.r6 == 0o1774 && readCells t.mem 0o1776 == 0o0 && readCells t.mem 0o1774 == 0o1002 && t.regs.r7 == 0o4030) := by
  decide

/-- Vectors: TRAP 104777. -/
theorem test_trap :
    after (vector [(0o34, 0o004034), (0o36, 0o000357), (0o1000, 0o104777)]
      [] 0o0) (fun t =>
      t.regs.r6 == 0o1774 && readCells t.mem 0o1776 == 0o0 && readCells t.mem 0o1774 == 0o1002 && t.regs.r7 == 0o4034 && nzvc t == 0o17) := by
  decide

/-! The rows of the table of 95_test_vectors.md section 9: a flag state that branches and one that does not. -/

/-- Vectors: BR -200, BR at 017776. -/
theorem test_br :
    after (vector [(0o1000, 0o000600)] [] 0) (fun t => t.regs.r7 == 0o402) ∧
    after (vector [(0o17776, 0o000401)] [(.r7, 0o17776)] 0) (fun t => t.regs.r7 == 0o20002) := by
  decide

theorem test_bne : goes 0o001002 0b0000 ∧ !goes 0o001002 0b0100 := by decide
theorem test_beq : goes 0o001402 0b0100 ∧ !goes 0o001402 0b0000 := by decide
theorem test_bge : goes 0o002002 0b1010 ∧ !goes 0o002002 0b1000 := by decide
theorem test_blt : goes 0o002402 0b0010 ∧ !goes 0o002402 0b1010 := by decide
theorem test_bgt : goes 0o003002 0b1010 ∧ !goes 0o003002 0b0100 := by decide
theorem test_ble : goes 0o003402 0b0010 ∧ !goes 0o003402 0b1010 := by decide
theorem test_bpl : goes 0o100002 0b0111 ∧ !goes 0o100002 0b1000 := by decide
theorem test_bmi : goes 0o100402 0b1000 ∧ !goes 0o100402 0b0111 := by decide
theorem test_bhi : goes 0o101002 0b1010 ∧ !goes 0o101002 0b0001 := by decide
theorem test_blos : goes 0o101402 0b0100 ∧ !goes 0o101402 0b1010 := by decide
theorem test_bvc : goes 0o102002 0b1101 ∧ !goes 0o102002 0b0010 := by decide
theorem test_bvs : goes 0o102402 0b0010 ∧ !goes 0o102402 0b1101 := by decide
theorem test_bcc : goes 0o103002 0b1110 ∧ !goes 0o103002 0b0001 := by decide
theorem test_bcs : goes 0o103402 0b0001 ∧ !goes 0o103402 0b1110 := by decide

/-- BHIS and BLO, by their own names (46_branches.md R246, R247). -/
theorem test_bhis_blo :
    exec (.bhis 2) (vector [] [] 0b1110) = .next (vector [] [(.r7, 0o1004)] 0b1110) ∧
    exec (.blo 2) (vector [] [] 0b1110) = .next (vector [] [] 0b1110) ∧
    exec (.blo 2) (vector [] [] 0b0001) = .next (vector [] [(.r7, 0o1004)] 0b0001) := ⟨rfl, rfl, rfl⟩

/-! The vectors of section 8. -/

theorem test_nop : flagsAfter 0o000240 0b1010 0b1010 := by decide
theorem test_clc : flagsAfter 0o000241 0b1111 0b1110 := by decide
theorem test_clv : flagsAfter 0o000242 0b1111 0b1101 := by decide
theorem test_clz : flagsAfter 0o000244 0b1111 0b1011 := by decide
theorem test_cln : flagsAfter 0o000250 0b1111 0b0111 := by decide
theorem test_ccc : flagsAfter 0o000257 0b1111 0b0000 := by decide
theorem test_nop260 : flagsAfter 0o000260 0b0101 0b0101 := by decide
theorem test_sec : flagsAfter 0o000261 0b0000 0b0001 := by decide
theorem test_sev : flagsAfter 0o000262 0b0000 0b0010 := by decide
theorem test_sez : flagsAfter 0o000264 0b0000 0b0100 := by decide
theorem test_sen : flagsAfter 0o000270 0b0000 0b1000 := by decide
theorem test_scc : flagsAfter 0o000277 0b0000 0b1111 := by decide
theorem test_cco : flagsAfter 0o000265 0b0000 0b0101 ∧ flagsAfter 0o000254 0b1111 0b0011 := by decide

/-- The first or last code of each range, section 10; the codes of the second and third range from
30_encoding.md R100. -/
theorem test_unlisted_low :
    traps 0o000006 0o10 0o341 ∧ traps 0o000010 0o10 0o341 ∧ traps 0o000037 0o10 0o341 ∧
    traps 0o000077 0o10 0o341 ∧ traps 0o000210 0o10 0o341 ∧ traps 0o000237 0o10 0o341 := by
  decide

theorem test_unlisted_high :
    traps 0o006400 0o10 0o341 ∧ traps 0o007777 0o10 0o341 ∧ traps 0o070000 0o10 0o341 ∧
    traps 0o106400 0o10 0o341 ∧ traps 0o107777 0o10 0o341 ∧ traps 0o170000 0o10 0o341 := by
  decide

/-! The machine's own events, section 10. -/

/-- Trace and stack overflow together. -/
theorem test_trace_then_overflow :
    after (vector [(0o4, 0o4000), (0o6, 0o340), (0o14, 0o4014), (0o16, 0o17), (0o1000, 0o005046)]
        [(.r6, 0o400)] 0o20) (fun t =>
      t.regs.r6 == 0o366 && t.regs.r7 == 0o4000 && t.psw.toWord == 0o340 &&
        readCells t.mem 0o374 == 0o24 && readCells t.mem 0o372 == 0o1002 &&
        readCells t.mem 0o370 == 0o17 && readCells t.mem 0o366 == 0o4014) := by
  decide

/-- Odd SP push: the second bus error halts, SP decreased twice. -/
theorem test_double_bus_error :
    after (vector [(0o1000, 0o004737), (0o1002, 0o3000)] [(.r6, 0o2001)] 0) (fun t =>
      t.run == .halted && t.regs.r6 == 0o1775 && t.regs.r7 == 0o1004) := by
  decide

/-- The odd PC fetch. -/
theorem test_odd_fetch :
    after (vector [(0o4, 0o4000), (0o6, 0o340)] [(.r7, 0o1001)] 0) (fun t =>
      t.regs.r7 == 0o4000 && readCells t.mem 0o1774 == 0o1001) := by
  decide

/-- MOV #177777, @#177776 sets T as well. -/
theorem test_store_to_ps :
    after (vector [(0o1000, 0o012737), (0o1002, 0o177777), (0o1004, 0o177776)] [] 0) (fun t =>
      t.psw.toWord == 0o377) := by
  decide

/-- P5 of section 11: a waiting processor takes the clock's interrupt. -/
theorem test_wait_ends :
    after
      { vector [(0o100, 0o3000), (0o102, 0o300)] [(.r7, 0o1010), (.r6, 0o1000)] 0o4 with
        run := .waiting, busEvents := [[.request .lineClock]],
        cfg := { vectorConfig with devices := [.lineClock] } }
      (fun t => t.run == .running && t.regs.r7 == 0o3000 && t.psw.toWord == 0o300 &&
        readCells t.mem 0o776 == 0o4 && readCells t.mem 0o774 == 0o1010) := by
  decide

/-! Device stores between the processor's accesses, 20_memory.md R67, R68. -/

/-- A machine with the tape: R1 points to a word 0o1234, and the tape stores `v` there before the second
access after the fetch of `w`. -/
def withTape (w : Nat) (v : Word) : State :=
  { vector [(0o1000, w), (0o3000, 0o1234)] [(.r1, 0o3000)] 0 with
    cfg := { vectorConfig with devices := [.dectape] }
    busEvents := [[], [], [.storeWord .dectape 0o3000 v]] }

/-- CMP (R1), (R1) reads two different values. -/
theorem test_dma_between_two_reads :
    after (withTape 0o021111 0o1235) (fun t => !t.psw.z && t.psw.n && t.psw.c) := by
  decide

/-- INCB (R1) writes its byte over the word stored after it had read. -/
theorem test_dma_between_read_and_write :
    after (withTape 0o105211 0o100000) (fun t => readCells t.mem 0o3000 == 0o100235) := by
  decide

/-- 43_operate.md R171: a halted machine stands still. -/
theorem test_halted : step { vector [] [] 0 with run := .halted } = .fault .halted := rfl

/-- The bootstrap's words in a 4K machine, section 1. -/
theorem test_bootstrap :
    let s := depositBootstrap (vector [] [] 0)
    readCells s.mem 0o17744 = 0o016701 ∧ readCells s.mem 0o17766 = 0o17400 ∧
    readCells s.mem 0o17776 = 0o177550 := by
  decide

/-! ## Cases that meet the statements' hypotheses

Each theorem is named after its statement and shows, for each of the statement's clauses, values that meet
the hypotheses, at the ends of the ranges they name. -/

/-- The state the cases start from: 4K of memory, R1 = 0o3000 and a word there. -/
def here : State :=
  vector [(0o1000, 0o3000), (0o3000, 0o1234)] [(.r1, 0o3000)] 0

/-- Memory empty, and an SP of choice. -/
def withSp (v : Word) : State :=
  vector [] [(.r6, v)] 0

/-- An operand that can be evaluated and read. -/
def Readable (w : Width) (dst : Operand) : Prop :=
  ∃ s l s1 d s2, loc w dst s = .ok l s1 ∧ readLoc w l s1 = .ok d s2

/-- Two operands that can be evaluated and read. -/
def ReadableBoth (w : Width) (src dst : Operand) : Prop :=
  ∃ s v l s1 d s2, sourceAndDest w src dst s = .ok (v, l) s1 ∧ readLoc w l s1 = .ok d s2

theorem readable_word : Readable .word ⟨.deferred, .r1⟩ :=
  ⟨here, .mem 0o3000, here, 0o1234, here, rfl, rfl⟩

theorem readable_byte : Readable .byte ⟨.deferred, .r1⟩ :=
  ⟨here, .mem 0o3000, here, 0o234, here, rfl, rfl⟩

theorem readableBoth_word : ReadableBoth .word ⟨.autoInc, .r1⟩ ⟨.register, .r2⟩ :=
  ⟨here, 0o1234, .reg .r2, here.setReg .r1 0o3002, 0, _, rfl, rfl⟩

theorem readableBoth_byte : ReadableBoth .byte ⟨.autoInc, .r1⟩ ⟨.register, .r2⟩ :=
  ⟨here, 0o234, .reg .r2, here.setReg .r1 0o3001, 0, _, rfl, rfl⟩

theorem witness_DecodeOfEncode :
    (Instr.jmp ⟨.deferred, .r0⟩).wellFormed = true ∧
    (Instr.cco true true true true false).wellFormed = true ∧ (Instr.blo 0xff).wellFormed = true := by
  decide

/-- The source register read late and not, each part of the evaluation failing; R1 at the first and the last
word of memory, for each clause. -/
theorem witness_SourceReadOrder :
    (let s := { withSp 0o20000 with cfg := { vectorConfig with srcRegLate := true } }
    (∃ e t, loc .word ⟨.autoIncDeferred, .r6⟩ s = .error e t) ∧
      ∃ l s1 v t, loc .word ⟨.autoInc, .r6⟩ s = .ok l s1 ∧ readLoc .word (.reg .r6) s1 = .ok v t) ∧
    (let s := { withSp 0o20000 with cfg := { vectorConfig with srcRegLate := false } }
    (∃ e t, loc .byte ⟨.autoIncDeferred, .r6⟩ s = .error e t) ∧
      (∃ l s1 e t, loc .byte ⟨.autoInc, .r6⟩ s = .ok l s1 ∧ readLoc .byte l s1 = .error e t) ∧
      (∃ l s1 v s2 e t, loc .byte ⟨.register, .r6⟩ s = .ok l s1 ∧ readLoc .byte l s1 = .ok v s2 ∧
        loc .byte ⟨.autoIncDeferred, .r6⟩ s2 = .error e t) ∧
      ∃ l s1 v s2 l' t, loc .byte ⟨.register, .r6⟩ s = .ok l s1 ∧ readLoc .byte l s1 = .ok v s2 ∧
        loc .byte ⟨.autoInc, .r6⟩ s2 = .ok l' t) ∧
    Memory.wf here.mem = true ∧
    wordInMemory here 0 ∧ wordInMemory here 0o17776 ∧
    (vector [] [(.r1, 0o20000)] 0).regs.get .r1 - 2 = 0o17776 ∧
    wordInMemory here 0o17774 ∧ wordInMemory here (0o17774 + 2) :=
  ⟨⟨⟨_, _, rfl⟩, _, _, _, _, rfl, rfl⟩,
    ⟨⟨_, _, rfl⟩, ⟨_, _, _, _, rfl, rfl⟩, ⟨_, _, _, _, _, _, rfl, rfl, rfl⟩,
      _, _, _, _, _, _, rfl, rfl, rfl⟩,
    rfl, ⟨rfl, by decide⟩, ⟨rfl, by decide⟩, rfl, ⟨rfl, by decide⟩, ⟨rfl, by decide⟩⟩

theorem witness_MemoryReads :
    ((0o177700 : Word).toNat ≤ (0o177707 : Word).toNat) ∧
    ((0o17777 : Word).toNat % 2 = 1 ∧ (0o17777 : Word).toNat < memTop here.cfg) ∧
    existsAt here.cfg 0o20000 = false ∧
    ((0o17776 : Word).toNat < memTop here.cfg ∧ (0o17776 : Word).toNat % 2 = 0) ∧
    (existsAt here.cfg 0o177776 = true ∧ (0o177776 : Word).toNat % 2 = 0) ∧
    existsAt here.cfg 0o177571 = true := by
  decide

theorem witness_MemoryWrites :
    Memory.wf here.mem = true ∧ (0o177777 : Word).toNat % 2 = 1 ∧
    existsAt here.cfg 0o20000 = false ∧ (0o17777 : Word).toNat < memTop here.cfg ∧
    ((0o17776 : Word).toNat < memTop here.cfg ∧ (0o17776 : Word).toNat % 2 = 0) := by
  decide

/-- The last word of memory written, another read below it, and PC there; the tape storing elsewhere. -/
theorem witness_StoreThenLoad :
    let s : State :=
      { vector [] [(.r7, 0o17776)] 0 with
        cfg := { vectorConfig with devices := [.dectape] }
        busEvents := [[], [.storeWord .dectape 0o17772 1]] }
    Memory.wf s.mem = true ∧ (0o17776 : Word).toNat < memTop s.cfg ∧
    ∃ t, memWrite .word 0o17776 0o123456 s = .ok () t ∧ t.regs.r7 = 0o17776 ∧
      wordUndisturbed t 0o17776 ∧ wordUndisturbed s 0o17774 ∧
      (0o17774 : Word).toNat + widthBytes .word ≤ (0o17776 : Word).toNat ∧
      ∃ x u, memRead .word 0o17774 s = .ok x u :=
  ⟨rfl, by decide, _, rfl, rfl, by unfold wordUndisturbed undisturbed; decide,
    by unfold wordUndisturbed undisturbed; decide, by decide, _, _, rfl⟩

theorem witness_MoveToPsOverridesFlags :
    let s := vector [(0o1000, 0o340), (0o1002, 0o177776)] [] 0
    (∃ v s1, sourceAndDest .word ⟨.autoInc, .r7⟩ ⟨.autoIncDeferred, .r7⟩ s =
      .ok (v, .mem 0o177776) s1) ∧
    ∃ v s1, sourceAndDest .byte ⟨.autoInc, .r7⟩ ⟨.autoIncDeferred, .r7⟩ s =
      .ok (v, .mem 0o177776) s1 :=
  ⟨⟨_, _, rfl⟩, _, _, rfl⟩

theorem witness_KeReads :
    here.cfg.hasKe11a = false ∧ ({ vectorConfig with hasKe11a := true } : Config).hasKe11a = true ∧
    (0o177300 : Word).toNat ≤ (0o177317 : Word).toNat := by
  decide

theorem witness_KeWrites :
    ({ here with cfg := { vectorConfig with hasKe11a := true } } : State).cfg.hasKe11a = true ∧
    (0o177316 : Word) ∈ [0o177300, 0o177306, 0o177312, 0o177314, (0o177316 : Word)] := by
  decide

theorem witness_MovCopiesWord :
    ∃ v l s1, sourceAndDest .word ⟨.autoInc, .r7⟩ ⟨.deferred, .r1⟩ here = .ok (v, l) s1 ∧
      reachable .word s1 l :=
  ⟨_, _, _, rfl, rfl⟩

theorem witness_MovbCopiesByte :
    (∃ v s1, sourceAndDest .byte ⟨.deferred, .r1⟩ ⟨.register, .r2⟩ here = .ok (v, .reg .r2) s1) ∧
    ∃ v a s1, sourceAndDest .byte ⟨.register, .r2⟩ ⟨.deferred, .r1⟩ here = .ok (v, .mem a) s1 ∧
      reachable .byte s1 (.mem a) :=
  ⟨⟨_, _, rfl⟩, _, _, _, rfl, rfl⟩

theorem witness_CompareSetsFlags :
    ReadableBoth .word ⟨.autoInc, .r1⟩ ⟨.register, .r2⟩ ∧
    ReadableBoth .byte ⟨.autoInc, .r1⟩ ⟨.register, .r2⟩ :=
  ⟨readableBoth_word, readableBoth_byte⟩

theorem witness_LogicalInstructions :
    ReadableBoth .word ⟨.autoInc, .r1⟩ ⟨.register, .r2⟩ ∧
    ReadableBoth .byte ⟨.autoInc, .r1⟩ ⟨.register, .r2⟩ :=
  ⟨readableBoth_word, readableBoth_byte⟩

theorem witness_AddAddsWords : ReadableBoth .word ⟨.autoInc, .r1⟩ ⟨.register, .r2⟩ :=
  readableBoth_word

theorem witness_SubSubtractsWords : ReadableBoth .word ⟨.autoInc, .r1⟩ ⟨.register, .r2⟩ :=
  readableBoth_word

theorem witness_ClearWritesZero :
    (∃ l s1, loc .word ⟨.autoDec, .r6⟩ here = .ok l s1 ∧ reachable .word s1 l) ∧
    ∃ l s1, loc .byte ⟨.deferred, .r1⟩ here = .ok l s1 ∧ reachable .byte s1 l :=
  ⟨⟨_, _, rfl, rfl⟩, _, _, rfl, rfl⟩

theorem witness_ComplementInverts :
    Readable .word ⟨.deferred, .r1⟩ ∧ Readable .byte ⟨.deferred, .r1⟩ :=
  ⟨readable_word, readable_byte⟩

theorem witness_IncrementAndDecrement :
    Readable .word ⟨.deferred, .r1⟩ ∧ Readable .byte ⟨.deferred, .r1⟩ :=
  ⟨readable_word, readable_byte⟩

theorem witness_NegateNegates :
    Readable .word ⟨.deferred, .r1⟩ ∧ Readable .byte ⟨.deferred, .r1⟩ :=
  ⟨readable_word, readable_byte⟩

theorem witness_AddAndSubtractCarry :
    Readable .word ⟨.deferred, .r1⟩ ∧ Readable .byte ⟨.deferred, .r1⟩ :=
  ⟨readable_word, readable_byte⟩

theorem witness_TestSetsFlags :
    Readable .word ⟨.deferred, .r1⟩ ∧ Readable .byte ⟨.deferred, .r1⟩ :=
  ⟨readable_word, readable_byte⟩

theorem witness_RotatesThroughCarry :
    Readable .word ⟨.deferred, .r1⟩ ∧ Readable .byte ⟨.deferred, .r1⟩ :=
  ⟨readable_word, readable_byte⟩

theorem witness_ArithmeticShifts :
    Readable .word ⟨.deferred, .r1⟩ ∧ Readable .byte ⟨.deferred, .r1⟩ :=
  ⟨readable_word, readable_byte⟩

theorem witness_SwabSwapsBytes : Readable .word ⟨.deferred, .r1⟩ :=
  readable_word

theorem witness_WritingFrame :
    (singleWriting (.incb ⟨.deferred, .r1⟩) = some (.byte, ⟨.deferred, .r1⟩) ∧
      ∃ l s1, loc .byte ⟨.deferred, .r1⟩ here = .ok l s1 ∧ reachable .byte s1 l) ∧
    (doubleWriting (.add ⟨.autoInc, .r7⟩ ⟨.deferred, .r1⟩) =
        some (.word, ⟨.autoInc, .r7⟩, ⟨.deferred, .r1⟩) ∧
      ∃ v l s1, sourceAndDest .word ⟨.autoInc, .r7⟩ ⟨.deferred, .r1⟩ here = .ok (v, l) s1 ∧
        reachable .word s1 l) :=
  ⟨⟨rfl, _, _, rfl, rfl⟩, rfl, _, _, _, rfl, rfl⟩

theorem witness_TestingFrame :
    (singleTesting (.tstb ⟨.deferred, .r1⟩) = some (.byte, ⟨.deferred, .r1⟩) ∧
      ∃ l s1, loc .byte ⟨.deferred, .r1⟩ here = .ok l s1 ∧ reachable .byte s1 l) ∧
    (doubleTesting (.cmp ⟨.autoInc, .r7⟩ ⟨.deferred, .r1⟩) =
        some (.word, ⟨.autoInc, .r7⟩, ⟨.deferred, .r1⟩) ∧
      ∃ v l s1, sourceAndDest .word ⟨.autoInc, .r7⟩ ⟨.deferred, .r1⟩ here = .ok (v, l) s1 ∧
        reachable .word s1 l) :=
  ⟨⟨rfl, _, _, rfl, rfl⟩, rfl, _, _, _, rfl, rfl⟩

/-- R2 is 0o20000, the first address above memory, and R3 is odd. -/
theorem witness_OperandFaults :
    let s := vector [] [(.r2, 0o20000), (.r3, 1)] 0
    (singleWriting (.clr ⟨.autoIncDeferred, .r2⟩) = some (.word, ⟨.autoIncDeferred, .r2⟩) ∧
      ∃ e t, loc .word ⟨.autoIncDeferred, .r2⟩ s = .error e t) ∧
    (doubleTesting (.cmpb ⟨.deferred, .r2⟩ ⟨.register, .r1⟩) =
        some (.byte, ⟨.deferred, .r2⟩, ⟨.register, .r1⟩) ∧
      ∃ e t, sourceAndDest .byte ⟨.deferred, .r2⟩ ⟨.register, .r1⟩ s = .error e t) ∧
    (∃ a s1, loc .word ⟨.deferred, .r3⟩ s = .ok (.mem a) s1 ∧ accessFails .word s1.cfg a = true) ∧
    (∃ v a s1, sourceAndDest .word ⟨.register, .r1⟩ ⟨.autoInc, .r3⟩ s = .ok (v, .mem a) s1 ∧
      accessFails .word s1.cfg a = true) ∧
    ∃ e t, loc .word ⟨.indexDeferred, .r3⟩ s = .error e t :=
  ⟨⟨rfl, _, _, rfl⟩, ⟨rfl, _, _, rfl⟩, ⟨_, _, rfl, rfl⟩, ⟨_, _, _, rfl, rfl⟩, _, _, rfl⟩

theorem witness_JmpLoadsPc :
    (∃ a s1, loc .word ⟨.autoInc, .r1⟩ here = .ok (.mem a) s1) ∧
    ∃ a s1, loc .word ⟨.indexed, .r7⟩ here = .ok (.mem a) s1 :=
  ⟨⟨_, _, rfl⟩, _, _, rfl⟩

/-- SP = 2, the least with a word of memory below it, and SP = 0o177776, below which nothing answers. -/
theorem witness_JsrLinksAndJumps :
    (∃ a s1, loc .word ⟨.deferred, .r1⟩ (withSp 2) = .ok (.mem a) s1 ∧
      accessible .word s1 (s1.regs.r6 - 2)) ∧
    ∃ a s1, loc .word ⟨.deferred, .r1⟩ (withSp 0o177776) = .ok (.mem a) s1 ∧
      accessFails .word s1.cfg (s1.regs.r6 - 2) = true :=
  ⟨⟨_, _, rfl, rfl⟩, _, _, rfl, rfl⟩

theorem witness_RtsReturns :
    (∃ v s1, memRead .word (withSp 0o17776).regs.r6 (withSp 0o17776) = .ok v s1) ∧
    accessFails .word (withSp 0o20000).cfg (withSp 0o20000).regs.r6 = true :=
  ⟨⟨_, _, rfl⟩, rfl⟩

/-- The subroutine that returns at once. -/
theorem witness_CallThenReturn :
    Reg.r5 ≠ .r6 ∧ Memory.wf here.mem = true ∧
    ∃ s1 a, loc .word ⟨.deferred, .r1⟩ here = .ok (.mem a) s1 ∧ wordInMemory s1 (s1.regs.r6 - 2) ∧
      ∃ t, exec (.jsr .r5 ⟨.deferred, .r1⟩) here = .next t ∧
        ∃ h : State, h = t ∧ wordUndisturbed h t.regs.r6 :=
  ⟨by decide, rfl, _, _, rfl, ⟨rfl, by decide⟩, _, rfl, _, rfl, wordUndisturbed_of_idle rfl _⟩

/-- The least and the greatest SP of a ready stack. -/
theorem stackReady_ends :
    Memory.wf (withSp 4).mem = true ∧ stackReady (withSp 4) ∧ stackReady (withSp 0o20000) :=
  ⟨rfl, ⟨rfl, by decide, by decide⟩, ⟨rfl, by decide, by decide⟩⟩

theorem witness_IllegalJumpsTrap :
    Memory.wf (withSp 4).mem = true ∧ stackReady (withSp 4) ∧ stackReady (withSp 0o20000) :=
  stackReady_ends

theorem witness_ResetInitialisesDevices : here.cfg.hasKe11a = false := rfl

theorem witness_RtiRestores :
    (∃ pc s1 ps s2, memRead .word (withSp 0).regs.r6 (withSp 0) = .ok pc s1 ∧
      memRead .word ((withSp 0).regs.r6 + 2) s1 = .ok ps s2) ∧
    accessFails .word (withSp 0o20000).cfg (withSp 0o20000).regs.r6 = true ∧
    (∃ pc s1, memRead .word (withSp 0o17776).regs.r6 (withSp 0o17776) = .ok pc s1) ∧
    accessFails .word (withSp 0o17776).cfg ((withSp 0o17776).regs.r6 + 2) = true :=
  ⟨⟨_, _, _, _, rfl, rfl⟩, rfl, ⟨_, _, rfl⟩, rfl⟩

theorem witness_TrapInstructions :
    Memory.wf (withSp 4).mem = true ∧ stackReady (withSp 4) ∧ stackReady (withSp 0o20000) :=
  stackReady_ends

theorem witness_UnlistedCodesTrap :
    isUnlisted (.unlisted_000006_000007 0) = true ∧ isUnlisted (.unlisted_170000_177777 0xfff) = true ∧
    Memory.wf (withSp 4).mem = true ∧ stackReady (withSp 4) ∧ stackReady (withSp 0o20000) :=
  ⟨rfl, rfl, stackReady_ends⟩

theorem witness_ConditionCodeOperators :
    isConditionCodeOperator (.cco true true true true false) = true ∧
    isConditionCodeOperator .nop = true ∧ isConditionCodeOperator .scc = true := by
  decide

theorem witness_BranchesAfterCompare : ReadableBoth .word ⟨.autoInc, .r1⟩ ⟨.register, .r2⟩ :=
  readableBoth_word

/-- The first vector and the last that lies in memory. -/
theorem witness_TrapEntryEnters :
    Memory.wf (withSp 4).mem = true ∧ stackReady (withSp 4) ∧ stackReady (withSp 0o20000) ∧
    isOdd 0 = false ∧ (0 : Word).toNat + 4 ≤ memTop (withSp 4).cfg ∧
    isOdd 0o17774 = false ∧ (0o17774 : Word).toNat + 4 ≤ memTop (withSp 4).cfg :=
  ⟨rfl, stackReady_ends.2.1, stackReady_ends.2.2, by decide⟩

/-- A handler that returns at once. -/
theorem witness_RtiUndoesEntry :
    Memory.wf here.mem = true ∧ stackReady here ∧
    ∃ h : State, h = takeException .ioTrap here ∧ h.cfg = here.cfg ∧
      h.regs.r6 = (takeException .ioTrap here).regs.r6 ∧
      ∀ k, undisturbed here k ∧ undisturbed h k :=
  ⟨rfl, ⟨rfl, by decide, by decide⟩, _, rfl, rfl, rfl, fun k =>
    ⟨undisturbed_of_idle rfl k, undisturbed_of_idle rfl k⟩⟩

/-- An odd SP, and SP = 0o20002, just above memory, fail at the first push; SP = 0 succeeds there, in PS, and
fails at the second. -/
theorem witness_DoubleBusErrorHalts :
    accessFails .word (withSp 0o2001).cfg ((withSp 0o2001).regs.r6 - 2) = true ∧
    accessFails .word (withSp 0o20002).cfg ((withSp 0o20002).regs.r6 - 2) = true ∧
    accessFails .word (withSp 0).cfg ((withSp 0).regs.r6 - 2) = false ∧
    accessFails .word (withSp 0).cfg ((withSp 0).regs.r6 - 4) = true := by
  decide

/-- A push to the last word below the limit and to the first at it. -/
theorem witness_StackOverflowTaken :
    (∃ t, push 1 (withSp 0o400) = .ok () t) ∧ (∃ t, push 1 (withSp 0o402) = .ok () t) ∧
    (let s : State := { withSp 0o376 with stackOverflowPending := true }
    Memory.wf s.mem = true ∧ s.stackOverflowPending = true ∧ s.tracePending = false ∧
      s.run = .running ∧ busIdle s ∧ stackReady s) :=
  ⟨⟨_, rfl⟩, ⟨_, rfl⟩, rfl, rfl, rfl, rfl, ⟨rfl, rfl⟩, ⟨rfl, by decide, by decide⟩⟩

/-- What the statement asks of the word `w`, fetched and executed with T set. -/
def TracedTo (w : Nat) (run : RunState) : Prop :=
  ∃ u v : State, fetch { vector [(0o1000, w)] [(.r6, 0o404)] 0o20 with tracePending := true } =
      .ok (BitVec.ofNat 16 w) u ∧ exec (decodeWord (BitVec.ofNat 16 w)) u = .next v ∧
    Memory.wf v.mem = true ∧ v.run = run ∧ v.stackOverflowPending = false ∧ busIdle v ∧
    v.tracePending = true ∧ stackReady v ∧ 0o404 ≤ v.regs.r6.toNat

/-- NOP, WAIT and HALT with T set, and NOP with T clear. -/
theorem witness_TraceTakenAfterInstruction :
    TracedTo 0o240 .running ∧ TracedTo 1 .waiting ∧ TracedTo 0 .halted ∧
    ∃ u v : State, fetch { vector [(0o1000, 0o240)] [] 0 with tracePending := false } =
        .ok 0o240 u ∧ exec (decodeWord 0o240) u = .next v ∧ Memory.wf v.mem = true ∧
        v.run = .running ∧ v.stackOverflowPending = false ∧ busIdle v :=
  ⟨⟨_, _, rfl, rfl, rfl, rfl, rfl, ⟨rfl, rfl⟩, rfl, ⟨rfl, by decide, by decide⟩, by decide⟩,
    ⟨_, _, rfl, rfl, rfl, rfl, rfl, ⟨rfl, rfl⟩, rfl, ⟨rfl, by decide, by decide⟩, by decide⟩,
    ⟨_, _, rfl, rfl, rfl, rfl, rfl, ⟨rfl, rfl⟩, rfl, ⟨rfl, by decide, by decide⟩, by decide⟩,
    _, _, rfl, rfl, rfl, rfl, rfl, ⟨rfl, rfl⟩⟩

theorem witness_TraceThenOverflow :
    let s : State := { withSp 0o30 with tracePending := true, stackOverflowPending := true }
    Memory.wf s.mem = true ∧ s.tracePending = true ∧ s.stackOverflowPending = true ∧
    s.run ≠ .halted ∧ busIdle s ∧ isOdd s.regs.r6 = false ∧ 0o30 ≤ s.regs.r6.toNat ∧
    s.regs.r6.toNat ≤ memTop s.cfg :=
  ⟨rfl, rfl, rfl, by decide, ⟨rfl, rfl⟩, rfl, by decide, by decide⟩

/-- The line clock and, before and after it in bus order, two devices of lower level, that request just
before the next check; SP at its least. -/
def requesting : State :=
  { withSp 0o404 with
    cfg := { vectorConfig with devices := [.keyboard, .lineClock, .dectape] }
    busEvents := [[.request .dectape, .request .lineClock, .request .keyboard]] }

theorem witness_InterruptGranted :
    let u := busStep requesting
    Memory.wf requesting.mem = true ∧ stackReady requesting ∧ 0o404 ≤ requesting.regs.r6.toNat ∧
    requesting.run ≠ .halted ∧ requesting.tracePending = false ∧
    requesting.stackOverflowPending = false ∧
    requesting.cfg.devices = [.keyboard] ++ .lineClock :: [.dectape] ∧
    .lineClock ∈ u.irq ∧ Device.lineClock ∉ [Device.keyboard] ∧
    (∀ e ∈ u.irq, e ∈ requesting.cfg.devices → deviceLevel e ≤ deviceLevel .lineClock) ∧
    (∀ e ∈ u.irq, e ∈ [Device.keyboard] → deviceLevel e < deviceLevel .lineClock) ∧
    requesting.psw.pri.toNat < deviceLevel .lineClock :=
  ⟨rfl, ⟨rfl, by decide, by decide⟩, by decide, by decide, rfl, rfl, rfl, by decide, by decide,
    by decide, by decide, by decide⟩

/-- Priority 6 withholds level 6; priority 7 withholds every level; a waiting processor among them. -/
theorem witness_InterruptWithheld :
    (let s : State := { requesting with psw := Psw.ofWord 0o300, run := .waiting }
    s.tracePending = false ∧ s.stackOverflowPending = false ∧
      (∀ d ∈ (busStep s).irq, d ∈ s.cfg.devices → deviceLevel d ≤ s.psw.pri.toNat) ∧
      s.run = .waiting) ∧
    (let s : State := { requesting with psw := Psw.ofWord 0o340 }
    s.tracePending = false ∧ s.stackOverflowPending = false ∧ s.psw.pri = 7) := by
  decide

theorem witness_WaitEndsByInterrupt :
    let s : State :=
      { requesting with
        busEvents := [[.request .lineClock]], run := .waiting, psw := Psw.ofWord 0o240 }
    Memory.wf s.mem = true ∧ stackReady s ∧ 0o404 ≤ s.regs.r6.toNat ∧ s.run = .waiting ∧
    s.tracePending = false ∧ s.stackOverflowPending = false ∧ (busStep s).irq = [.lineClock] ∧
    .lineClock ∈ s.cfg.devices ∧ s.psw.pri.toNat < deviceLevel .lineClock :=
  ⟨rfl, ⟨rfl, by decide, by decide⟩, by decide, rfl, rfl, rfl, rfl, by decide, by decide⟩

/-- Devices without DMA, with requests; none with steps to come; the tape at work on a word. -/
theorem witness_DeviceSteps :
    (let s : State :=
      { requesting with
        cfg := { vectorConfig with devices := [.keyboard, .lineClock] }
        busEvents := [[.request .lineClock, .storeWord .dectape 0 1]] }
    (∀ d ∈ s.cfg.devices, deviceHasDma d = false) ∧ Device.lineClock ∈ (busStep s).irq) ∧
    here.busEvents = [] ∧
    (let s := withTape 0o021111 0o1235
    wordInMemory s (s.regs.get .r1) ∧
      readCells (busStep (busStep (busStep s))).mem 0o3000 ≠ readCells (busStep (busStep s)).mem 0o3000) :=
  ⟨by decide, rfl, ⟨rfl, by decide⟩, by decide⟩

/-- The instruction in the last word of memory, stored there by the tape just before the fetch, and PC just
above it. -/
theorem witness_StepRunsDecoded :
    (let s : State :=
      { vector [] [(.r7, 0o17776)] 0 with
        cfg := { vectorConfig with devices := [.dectape] }
        busEvents := [[.storeWord .dectape 0o17776 0o000240]] }
    let u := busStep s
    s.run = .running ∧ wordInMemory s s.regs.r7 ∧
      decode [readCell u.mem s.regs.r7.toNat, readCell u.mem (s.regs.r7.toNat + 1)] = .ok (.nop, [])) ∧
    (let s := vector [] [(.r7, 0o20000)] 0
    s.run = .running ∧ accessFails .word s.cfg s.regs.r7 = true) :=
  ⟨⟨rfl, ⟨rfl, by decide⟩, rfl⟩, rfl, rfl⟩

theorem witness_OnlyHaltedStops :
    ({ here with run := .halted } : State).run = .halted ∧ here.run ≠ .halted := by
  decide

theorem witness_StepKeepsCanonicalMemory :
    Memory.wf here.mem = true ∧ ∃ t, step here = .next t :=
  ⟨rfl, _, rfl⟩

theorem witness_StepKeepsSound :
    (let s : State := { requesting with busEvents := [[.storeByte .dectape 0o17777 1]] }
    s.sound = true ∧ ∃ t, step s = .next t) :=
  ⟨rfl, _, rfl⟩

theorem witness_StartState : (consoleStart here).cfg = vectorConfig ∧ here.cfg = vectorConfig :=
  ⟨rfl, rfl⟩

end Sys2Proof.Tests
end

section
/-! Registers and memory words as operands of each width (40_addressing_modes.md R124, R125). -/

namespace Sys2Proof.Machine

/-! ### A register's part of each width -/

@[simp] theorem regPart_word (x : Word) : regPart .word x = x := rfl

@[simp] theorem regPart_byte (x : Word) : regPart .byte x = x.extractLsb' 0 8 := rfl

@[simp] theorem withRegPart_word (old v : Word) : withRegPart .word old v = v := rfl

@[simp] theorem withRegPart_byte (old : Word) (v : Byte) :
    withRegPart .byte old v = old.extractLsb' 8 8 ++ v := rfl

/-! ### Writes to a register -/

/-- R125, `n = 16`: the write replaces all of the register. -/
theorem writeLoc_word_reg (r : Reg) (v : Word) (s : State) :
    writeLoc .word (.reg r) v s = .ok () (s.setReg r v) := by
  rw [writeLoc_reg, withRegPart_word]

/-- R125, `n = 8`: the write replaces the low byte and keeps the high one. -/
theorem writeLoc_byte_reg (r : Reg) (v : Byte) (s : State) :
    writeLoc .byte (.reg r) v s =
      .ok () (s.setReg r ((s.regs.get r).extractLsb' 8 8 ++ v)) := by
  rw [writeLoc_reg, withRegPart_byte]

/-- R125, MOVB: the register takes the word of the byte's signed value. -/
theorem writeLocMovb_reg_ofInt (r : Reg) (v : Byte) (s : State) :
    writeLocMovb (.reg r) v s = .ok () (s.setReg r (BitVec.ofInt 16 v.toInt)) := by
  rw [writeLocMovb_reg, BitVec.signExtend]

/-- Settles O6: a register's reads and writes from its part of each width, and a memory location's from
MemRead and MemWrite. -/
theorem registerOperands : Obligations.RegisterOperands := by
  intro r s
  have readWord : readLoc .word (.reg r) s = .ok (s.regs.get r) s := by
    rw [readLoc_reg, regPart_word]
  have readByte : readLoc .byte (.reg r) s = .ok ((s.regs.get r).extractLsb' 0 8) s := by
    rw [readLoc_reg, regPart_byte]
  exact ⟨readWord, readByte, fun v => writeLoc_word_reg r v s, fun v => writeLoc_byte_reg r v s,
    fun v => writeLocMovb_reg_ofInt r v s,
    fun w a => ⟨readLoc_mem w a s, fun v => writeLoc_mem w a v s, fun v => writeLocMovb_mem a v s⟩⟩

end Sys2Proof.Machine
end

section
/-! The double operand group (41_double_operand.md): the results and flags of the model as the statements
write them, from the operands as numbers. -/

namespace Sys2Proof.Machine

/-! ### Results from the operands as numbers -/

section
variable {n : Nat} (a b : BitVec n)

theorem ofNat_toNat_add_toNat : BitVec.ofNat n (a.toNat + b.toNat) = a + b := by
  rw [BitVec.ofNat_add, BitVec.ofNat_toNat, BitVec.ofNat_toNat, BitVec.setWidth_eq, BitVec.setWidth_eq]

/-- A difference taken in the integers and cut to the width is the difference of that width. -/
theorem ofInt_toNat_sub_toNat : BitVec.ofInt n ((a.toNat : Int) - b.toNat) = a - b := by
  rw [eq_sub_iff_add_eq]
  calc BitVec.ofInt n ((a.toNat : Int) - b.toNat) + b
      = BitVec.ofInt n ((a.toNat : Int) - b.toNat) + BitVec.ofInt n b.toNat := by
        rw [BitVec.ofInt_natCast n b.toNat, BitVec.ofNat_toNat, BitVec.setWidth_eq]
    _ = BitVec.ofInt n a.toNat := by rw [← BitVec.ofInt_add, sub_add_cancel]
    _ = a := by rw [BitVec.ofInt_natCast, BitVec.ofNat_toNat, BitVec.setWidth_eq]

theorem ofNat_toNat_and_toNat : BitVec.ofNat n (a.toNat &&& b.toNat) = a &&& b := by
  rw [← BitVec.toNat_and, BitVec.ofNat_toNat, BitVec.setWidth_eq]

theorem ofNat_toNat_or_toNat : BitVec.ofNat n (a.toNat ||| b.toNat) = a ||| b := by
  rw [← BitVec.toNat_or, BitVec.ofNat_toNat, BitVec.setWidth_eq]

/-- The complement as a number is the distance from the greatest number of the width. -/
theorem ofNat_toNat_and_complement :
    BitVec.ofNat n (a.toNat &&& (2 ^ n - 1 - b.toNat)) = a &&& ~~~b := by
  rw [← BitVec.toNat_not, ofNat_toNat_and_toNat]

end

/-- MOVB's sign extension as arithmetic: a byte with bit 7 set gets 0o377 above it. -/
theorem signExtend_byte (v : Byte) :
    v.signExtend 16 = BitVec.ofNat 16 (if v.getLsbD 7 then v.toNat + 0o177400 else v.toNat) := by
  have hlt : v.toNat < 256 := v.isLt
  have hmsb : v.msb = v.getLsbD 7 := BitVec.msb_eq_getLsbD_last v
  apply BitVec.eq_of_toNat_eq
  rw [BitVec.toNat_signExtend, BitVec.toNat_setWidth, BitVec.toNat_ofNat, hmsb]
  split <;> omega

/-! ### Flags -/

section
variable {n : Nat}

/-- R151, at every width. -/
theorem addFlags_flagged (s d : BitVec n) (p : Psw) :
    addFlags s d p =
      flagged (BitVec.ofNat n (s.toNat + d.toNat))
        (s.getLsbD (n - 1) == d.getLsbD (n - 1) &&
          (BitVec.ofNat n (s.toNat + d.toNat)).getLsbD (n - 1) != s.getLsbD (n - 1))
        (decide (2 ^ n ≤ s.toNat + d.toNat)) p := by
  simp only [addFlags, setNZ_flagged, ofNat_toNat_add_toNat, BitVec.msb_eq_getLsbD_last]

/-- R143, at every width: the flags of `a - b`. -/
theorem subFlags_flagged (a b : BitVec n) (p : Psw) :
    subFlags a b p =
      flagged (BitVec.ofInt n ((a.toNat : Int) - b.toNat))
        (a.getLsbD (n - 1) != b.getLsbD (n - 1) &&
          (BitVec.ofInt n ((a.toNat : Int) - b.toNat)).getLsbD (n - 1) == b.getLsbD (n - 1))
        (decide (a.toNat < b.toNat)) p := by
  simp only [subFlags, setNZ_flagged, ofInt_toNat_sub_toNat, BitVec.msb_eq_getLsbD_last]

end

/-! ### MOV and MOVB -/

section
variable {src dst : Operand} {l : Loc} {s s1 t : State}

/-- MOV runs to the end of its write, which follows the flags. -/
theorem exec_mov_of_write {v : Word} (h : sourceAndDest .word src dst s = .ok (v, l) s1)
    (hw : writeLoc .word l v (s1.setPsw (flagged v false s1.psw.c s1.psw)) = .ok () t) :
    exec (.mov src dst) s = .next t := by
  show execMov src dst s = .next t
  rw [← logicFlags_flagged] at hw
  rw [execMov, perform_ok]
  rw [Exec.bind_eq h]
  simp only
  rw [Exec.bind_eq (modifyPsw_apply _ _), hw]

/-- MOVB runs to the end of its write, which follows the flags. -/
theorem exec_movb_of_write {v : Byte} (h : sourceAndDest .byte src dst s = .ok (v, l) s1)
    (hw : writeLocMovb l v (s1.setPsw (flagged v false s1.psw.c s1.psw)) = .ok () t) :
    exec (.movb src dst) s = .next t := by
  show execMovb src dst s = .next t
  rw [← logicFlags_flagged] at hw
  rw [execMovb, perform_ok]
  rw [Exec.bind_eq h]
  simp only
  rw [Exec.bind_eq (modifyPsw_apply _ _), hw]

end

/-- Settles O13: a reachable destination takes the write, and MOV ends in it. -/
theorem movCopiesWord : Obligations.MovCopiesWord := by
  intro src dst
  refine ⟨rfl, fun s v l s1 h hl => ?_⟩
  obtain ⟨t, ht⟩ := writeLoc_of_reachable v
    (reachable_setPsw (flagged v false s1.psw.c s1.psw) hl)
  exact ⟨t, ht, exec_mov_of_write h ht⟩

/-- Settles O14: a register takes the sign-extended byte, a reachable byte of memory the byte. -/
theorem movbCopiesByte : Obligations.MovbCopiesByte := by
  intro src dst
  refine ⟨rfl, fun s v i s1 h => ?_, fun s v a s1 h hl => ?_⟩
  · have hw := writeLocMovb_reg i v (s1.setPsw (flagged v false s1.psw.c s1.psw))
    rw [signExtend_byte] at hw
    exact exec_movb_of_write h hw
  · obtain ⟨t, ht⟩ := writeLoc_of_reachable v
      (reachable_setPsw (flagged v false s1.psw.c s1.psw) hl)
    exact ⟨t, ht, exec_movb_of_write h ht⟩

/-! ### The instructions that compare -/

/-- Settles O15: CMP and CMPB are the comparing shape with the flags of a subtraction. -/
theorem compareSetsFlags : Obligations.CompareSetsFlags := fun _ _ =>
  ⟨rfl, rfl,
    comparesOperands_of_testBoth (fun _ => rfl) subFlags_flagged,
    comparesOperands_of_testBoth (fun _ => rfl) subFlags_flagged⟩

/-! ### The logical instructions -/

section
variable {w : Width} {src dst : Operand} {i : Instr}

/-- An instruction that tests by the flags of a logical result, the result written otherwise. -/
theorem comparesOperands_of_logicFlags {result result' : BitVec w.bits → BitVec w.bits → BitVec w.bits}
    (hi : ∀ s, exec i s = perform (testBoth w src dst fun a b => logicFlags (result' a b)) s)
    (hr : ∀ a b, result a b = result' a b) :
    comparesOperands w src dst i fun a b p => flagged (result a b) false p.c p :=
  comparesOperands_of_testBoth hi fun a b p => by rw [logicFlags_flagged, hr]

/-- An instruction that writes a logical result and sets its flags, the result written otherwise. -/
theorem combinesOperands_of_logicFlags {result result' : BitVec w.bits → BitVec w.bits → BitVec w.bits}
    (hi : ∀ s, exec i s =
      perform (combine w src dst result' fun a b => logicFlags (result' a b)) s)
    (hr : ∀ a b, result a b = result' a b) :
    combinesOperands w src dst i result fun a b p => flagged (result a b) false p.c p :=
  combinesOperands_of_combine hi (fun a b => (hr a b).symm) fun a b p => by
    rw [logicFlags_flagged, hr]

end

/-- Settles O16: BIT is the comparing shape, BIC and BIS the combining one, each with the flags of its
logical result. -/
theorem logicalInstructions : Obligations.LogicalInstructions := fun _ _ =>
  ⟨rfl, rfl, rfl, rfl, rfl, rfl,
    comparesOperands_of_logicFlags (fun _ => rfl) ofNat_toNat_and_toNat,
    comparesOperands_of_logicFlags (fun _ => rfl) ofNat_toNat_and_toNat,
    combinesOperands_of_logicFlags (fun _ => rfl) fun s d => ofNat_toNat_and_complement d s,
    combinesOperands_of_logicFlags (fun _ => rfl) fun s d => ofNat_toNat_and_complement d s,
    combinesOperands_of_logicFlags (fun _ => rfl) fun s d => ofNat_toNat_or_toNat d s,
    combinesOperands_of_logicFlags (fun _ => rfl) fun s d => ofNat_toNat_or_toNat d s⟩

/-! ### ADD and SUB -/

/-- Settles O17: ADD is the combining shape with the sum and its flags. -/
theorem addAddsWords : Obligations.AddAddsWords := fun _ _ =>
  ⟨rfl, combinesOperands_of_combine (fun _ => rfl) (fun s d => (ofNat_toNat_add_toNat s d).symm)
    addFlags_flagged⟩

/-- Settles O18: SUB is the combining shape with the flags of destination minus source; whether the two
signs differ does not depend on their order. -/
theorem subSubtractsWords : Obligations.SubSubtractsWords := by
  intro src dst
  refine ⟨rfl, combinesOperands_of_combine (fun _ => rfl)
    (fun s d => (ofInt_toNat_sub_toNat d s).symm) fun s d p => ?_⟩
  have signs : (d.getLsbD 15 != s.getLsbD 15) = (s.getLsbD 15 != d.getLsbD 15) := bne_comm
  rw [← signs]
  exact subFlags_flagged d s p

end Sys2Proof.Machine
end

section
/-! RTS (42_subroutine.md R161): PC takes the link register before the pop, which is made from there. -/

namespace Sys2Proof.Machine

section
variable {r : Reg} {s t : State}

/-- RTS whose pop completes ends with the link register loaded. -/
theorem exec_rts_of_pop {v : Word} (h : pop (s.setReg .r7 (s.regs.get r)) = .ok v t) :
    exec (.rts r) s = .next (t.setReg r v) := by
  show execRts r s = _
  apply perform_ok
  rw [Exec.bind_eq (getReg_apply r s), Exec.bind_eq (setReg_apply _ _ _), Exec.bind_eq h,
    setReg_apply]

/-- RTS whose pop raises leaves the link register as it was, PC being loaded already. -/
theorem exec_rts_of_pop_error {e : Exception}
    (h : pop (s.setReg .r7 (s.regs.get r)) = .error e t) :
    exec (.rts r) s = .next (takeException e t) := by
  show execRts r s = _
  apply perform_error
  rw [Exec.bind_eq (getReg_apply r s), Exec.bind_eq (setReg_apply _ _ _), Exec.bind_eq_error h]

/-- A pop reads through SP, so it does not see PC, which it keeps as loaded. -/
theorem pop_setReg_r7 {v x : Word} (h : memRead .word s.regs.r6 s = .ok v t) :
    pop (s.setReg .r7 x) =
      .ok v { t with regs := (s.regs.set .r7 x).set .r6 (s.regs.r6 + 2) } :=
  pop_eq (memRead_withRegs (s.regs.set .r7 x) h)

/-- A pop that fails fails for SP, whatever PC holds. -/
theorem pop_setReg_r7_error {x : Word} (h : accessFails .word s.cfg s.regs.r6 = true) :
    pop (s.setReg .r7 x) =
      .error (.busError s.regs.r6) { busStep s with regs := s.regs.set .r7 x } :=
  pop_eq_error (s := s.setReg .r7 x) h

end

/-- Settles O34: the pop after PC is loaded reads as it would have before, or fails as it would have. -/
theorem rtsReturns : Obligations.RtsReturns := fun _ _ =>
  ⟨rfl, fun _ _ h => exec_rts_of_pop (pop_setReg_r7 h),
    fun h => exec_rts_of_pop_error (pop_setReg_r7_error h)⟩

end Sys2Proof.Machine
end

section
/-! The single operand group (44_single_operand.md): each instruction as its template's shape, and the results
and flags of the model as the statements write them, from the operand as a number or as a row of bits. -/

namespace Sys2Proof.Machine

/-! ### Constants as numbers -/

section
variable {n : Nat}

/-- A comparison with a constant of the width compares numbers. -/
theorem beq_ofNat_eq_decide (a : BitVec n) {k : Nat} (hk : k < 2 ^ n) :
    (a == BitVec.ofNat n k) = decide (a.toNat = k) := by
  rw [beq_eq_decide]
  simp only [BitVec.toNat_eq, BitVec.toNat_ofNat, Nat.mod_eq_of_lt hk]

theorem beq_maxSigned (a : BitVec n) :
    (a == maxSigned n) = decide (a.toNat = 2 ^ (n - 1) - 1) := by
  have hle : 2 ^ (n - 1) ≤ 2 ^ n := Nat.pow_le_pow_right (by decide) (Nat.sub_le n 1)
  have hpos : 0 < 2 ^ (n - 1) := Nat.two_pow_pos _
  exact beq_ofNat_eq_decide a (by omega)

theorem beq_minSigned (hn : 0 < n) (a : BitVec n) :
    (a == minSigned n) = decide (a.toNat = 2 ^ (n - 1)) :=
  beq_ofNat_eq_decide a (Nat.pow_lt_pow_right (by decide) (Nat.sub_lt hn Nat.one_pos))

theorem beq_allOnes (a : BitVec n) :
    (a == BitVec.allOnes n) = decide (a.toNat = 2 ^ n - 1) := by
  rw [beq_eq_decide]
  simp only [BitVec.toNat_eq, BitVec.toNat_allOnes]

/-- C as a number of any width is C as a number. -/
theorem carryIn_eq_ofNat (p : Psw) : carryIn n p = BitVec.ofNat n p.c.toNat := by
  cases hc : p.c <;> simp [carryIn, hc]

end

/-! ### Results from the operand as a number -/

section
variable {n : Nat} (a : BitVec n)

theorem ofNat_complement : BitVec.ofNat n (2 ^ n - 1 - a.toNat) = ~~~a := by
  rw [← BitVec.toNat_not, BitVec.ofNat_toNat, BitVec.setWidth_eq]

theorem ofNat_toNat_add (k : Nat) : BitVec.ofNat n (a.toNat + k) = a + BitVec.ofNat n k := by
  rw [BitVec.ofNat_add, BitVec.ofNat_toNat, BitVec.setWidth_eq]

theorem ofInt_toNat_sub (k : Nat) :
    BitVec.ofInt n ((a.toNat : Int) - k) = a - BitVec.ofNat n k := by
  rw [eq_sub_iff_add_eq, ← BitVec.ofInt_natCast, ← BitVec.ofInt_add, sub_add_cancel,
    BitVec.ofInt_natCast, BitVec.ofNat_toNat, BitVec.setWidth_eq]

theorem ofInt_zero_sub_toNat : BitVec.ofInt n (0 - (a.toNat : Int)) = -a := by
  have h := ofInt_toNat_sub_toNat 0 a
  rwa [BitVec.ofNat_eq_ofNat, BitVec.toNat_zero, Int.natCast_zero, BitVec.zero_sub] at h

theorem ofNat_toNat_add_carry (p : Psw) :
    BitVec.ofNat n (a.toNat + p.c.toNat) = a + carryIn n p := by
  rw [ofNat_toNat_add, carryIn_eq_ofNat]

theorem ofInt_toNat_sub_carry (p : Psw) :
    BitVec.ofInt n ((a.toNat : Int) - p.c.toNat) = a - carryIn n p := by
  rw [ofInt_toNat_sub, carryIn_eq_ofNat]

end

/-! ### Results as rows of bits -/

section
variable {m : Nat}

/-- The least signed value has the top bit alone. -/
theorem getLsbD_minSigned (i : Nat) : (minSigned (1 + m)).getLsbD i = decide (i = m) := by
  have htop : 1 + m - 1 = m := by omega
  rw [minSigned, htop, BitVec.getLsbD_ofNat, Nat.testBit_two_pow]
  grind

/-- R207: C above the bits of the datum but its lowest. -/
theorem rorResult_eq_append (d : BitVec (1 + m)) (c : Bool) :
    rorResult d c = BitVec.ofBool c ++ d.extractLsb' 1 m := by
  apply BitVec.eq_of_getLsbD_eq
  intro i hi
  have carry : (if c then minSigned (1 + m) else 0).getLsbD i = (decide (i = m) && c) := by
    cases c <;> simp [getLsbD_minSigned]
  rw [rorResult, BitVec.getLsbD_or, carry, BitVec.getLsbD_ushiftRight, BitVec.getLsbD_append]
  by_cases htop : i = m
  · simp [htop, BitVec.getLsbD_of_ge]
  · have hlt : i < m := by omega
    simp [htop, hlt]

/-- R209: the bits of the datum but its highest, above C. -/
theorem rolResult_eq_append (d : BitVec (m + 1)) (c : Bool) :
    rolResult d c = d.extractLsb' 0 m ++ BitVec.ofBool c := by
  apply BitVec.eq_of_getLsbD_eq
  intro i hi
  have carry : (if c then 1 else 0 : BitVec (m + 1)).getLsbD i = (decide (i = 0) && c) := by
    cases c <;> simp [BitVec.getLsbD_one]
  rw [rolResult, BitVec.getLsbD_or, carry, BitVec.getLsbD_shiftLeft, BitVec.getLsbD_append]
  cases i with
  | zero => simp
  | succ j =>
    have hj : j < m := by omega
    simp [hj, hi]

/-- R211: the sign above the bits of the datum but its lowest, as ROR would put C there. -/
theorem asrResult_eq_append (d : BitVec (1 + m)) :
    asrResult d = BitVec.ofBool (d.getLsbD (1 + m - 1)) ++ d.extractLsb' 1 m := by
  rw [← BitVec.msb_eq_getLsbD_last, ← rorResult_eq_append]; rfl

/-- R213: the bits of the datum but its highest, above 0, as ROL would put C there. -/
theorem aslResult_eq_append (d : BitVec (m + 1)) :
    aslResult d = d.extractLsb' 0 m ++ BitVec.ofBool false := by
  rw [← rolResult_eq_append]
  exact (BitVec.or_zero).symm

end

/-! ### Flags -/

section
variable {n : Nat}

/-- R193, at every width. -/
theorem comFlags_flagged (d : BitVec n) (p : Psw) :
    comFlags (~~~d) p = flagged (BitVec.ofNat n (2 ^ n - 1 - d.toNat)) false true p := by
  rw [ofNat_complement]
  exact setNZ_flagged (~~~d) false true p

/-- R195, at every width: V at the greatest signed value, C kept. -/
theorem incFlags_flagged (d : BitVec n) (p : Psw) :
    incFlags d p =
      flagged (BitVec.ofNat n (d.toNat + 1)) (decide (d.toNat = 2 ^ (n - 1) - 1)) p.c p := by
  rw [ofNat_toNat_add, ← beq_maxSigned]
  exact setNZ_flagged (d + 1) (d == maxSigned n) p.c p

/-- R197, at every width: V at the least signed value, C kept. -/
theorem decFlags_flagged (hn : 0 < n) (d : BitVec n) (p : Psw) :
    decFlags d p =
      flagged (BitVec.ofInt n ((d.toNat : Int) - 1)) (decide (d.toNat = 2 ^ (n - 1))) p.c p := by
  have result : BitVec.ofInt n ((d.toNat : Int) - 1) = d - 1 := ofInt_toNat_sub d 1
  rw [result, ← beq_minSigned hn]
  exact setNZ_flagged (d - 1) (d == minSigned n) p.c p

/-- R199, at every width: V and C are of the result. -/
theorem negFlags_flagged (hn : 0 < n) (d : BitVec n) (p : Psw) :
    negFlags d p =
      flagged (BitVec.ofInt n (0 - (d.toNat : Int)))
        (decide ((BitVec.ofInt n (0 - (d.toNat : Int))).toNat = 2 ^ (n - 1)))
        (decide ((BitVec.ofInt n (0 - (d.toNat : Int))).toNat ≠ 0)) p := by
  have carry : (-d != 0#n) = decide ((-d).toNat ≠ 0) := by
    rw [bne, beq_ofNat_eq_decide (-d) (Nat.two_pow_pos n), decide_not]
  rw [ofInt_zero_sub_toNat, ← beq_minSigned hn, ← carry]
  exact setNZ_flagged (-d) (-d == minSigned n) (-d != 0) p

/-- R201, at every width: V at the greatest signed value and C at the greatest, if C was set. -/
theorem adcFlags_flagged (d : BitVec n) (p : Psw) :
    adcFlags d p =
      flagged (BitVec.ofNat n (d.toNat + p.c.toNat)) (decide (d.toNat = 2 ^ (n - 1) - 1) && p.c)
        (decide (d.toNat = 2 ^ n - 1) && p.c) p := by
  rw [ofNat_toNat_add_carry, ← beq_maxSigned, ← beq_allOnes]
  exact setNZ_flagged (d + carryIn n p) (d == maxSigned n && p.c) (d == BitVec.allOnes n && p.c) p

/-- R203, at every width: V at the least signed value and C at zero, if C was set. -/
theorem sbcFlags_flagged (hn : 0 < n) (d : BitVec n) (p : Psw) :
    sbcFlags d p =
      flagged (BitVec.ofInt n ((d.toNat : Int) - p.c.toNat))
        (decide (d.toNat = 2 ^ (n - 1)) && p.c) (decide (d.toNat = 0) && p.c) p := by
  rw [ofInt_toNat_sub_carry, ← beq_minSigned hn, ← beq_ofNat_eq_decide d (Nat.two_pow_pos n)]
  exact setNZ_flagged (d - carryIn n p) (d == minSigned n && p.c) (d == 0 && p.c) p

/-- R205, at every width. -/
theorem tstFlags_flagged (d : BitVec n) (p : Psw) : tstFlags d p = flagged d false false p :=
  setNZ_flagged d false false p

/-- R207 to R214, at every width: C is the bit that fell out, V is N xor C. -/
theorem shiftFlags_flagged (r : BitVec n) (out : Bool) (p : Psw) :
    shiftFlags r out p = flagged r (r.getLsbD (n - 1) ^^ out) out p := by
  rw [← BitVec.msb_eq_getLsbD_last, ← Bool.bne_eq_xor]
  exact setNZ_flagged r (r.msb != out) out p

end

/-- R216: N and Z are of the low byte of the exchanged word. -/
theorem swabFlags_eq (d : Word) (p : Psw) :
    swabFlags d p =
      { p with
        n := (swabResult d).getLsbD 7
        z := decide ((swabResult d).extractLsb' 0 8 = 0)
        v := false
        c := false } := by
  have sign : (lowByte (swabResult d)).msb = (swabResult d).getLsbD 7 := by
    rw [lowByte, BitVec.msb_eq_getLsbD_last, BitVec.getLsbD_extractLsb']; rfl
  rw [← sign]; rfl

/-! ### Shapes -/

section
variable {w : Width} {dst : Operand} {i : Instr}

/-- R191: CLR writes where its operand denotes, if that takes a write, and does not read there. -/
theorem setsWrites_of_clear (hi : ∀ s, exec i s = perform (clear w dst) s) :
    setsWrites w dst i 0 clrFlags := by
  intro s l s1 h hl
  obtain ⟨t, ht⟩ := writeLoc_of_reachable 0 (reachable_setPsw (clrFlags s1.psw) hl)
  refine ⟨t, ht, ?_⟩
  rw [hi, perform_ok]
  rw [clear_eq h]; exact ht

/-- A shift or rotate by one place, its result and the bit that falls out written otherwise. -/
theorem readsSetsWrites_of_shiftFlags {result result' : BitVec w.bits → Psw → BitVec w.bits}
    {out out' : BitVec w.bits → Bool}
    (hi : ∀ s, exec i s =
      perform (update w dst result' fun d p => shiftFlags (result' d p) (out' d) p) s)
    (hr : ∀ d p, result' d p = result d p) (ho : ∀ d, out' d = out d) :
    readsSetsWrites w dst i result fun d p =>
      flagged (result d p) ((result d p).getLsbD (w.bits - 1) ^^ out d) (out d) p :=
  readsSetsWrites_of_update hi hr fun d p => by rw [shiftFlags_flagged, hr, ho]

end

/-! ### The instructions -/

/-- Settles O20: CLR and CLRB are the clearing shape. -/
theorem clearWritesZero : Obligations.ClearWritesZero := fun _ =>
  ⟨rfl, rfl, setsWrites_of_clear fun _ => rfl, setsWrites_of_clear fun _ => rfl⟩

/-- Settles O21: COM and COMB are the updating shape with the complement, which as a number is the distance
from the greatest of the width. -/
theorem complementInverts : Obligations.ComplementInverts := fun _ =>
  ⟨rfl, rfl,
    readsSetsWrites_of_update (fun _ => rfl) (fun d _ => (ofNat_complement d).symm) comFlags_flagged,
    readsSetsWrites_of_update (fun _ => rfl) (fun d _ => (ofNat_complement d).symm) comFlags_flagged⟩

/-- Settles O22: INC and DEC are the updating shape, one added or subtracted modulo the width. -/
theorem incrementAndDecrement : Obligations.IncrementAndDecrement := fun _ =>
  ⟨rfl, rfl, rfl, rfl,
    readsSetsWrites_of_update (fun _ => rfl) (fun d _ => (ofNat_toNat_add d 1).symm) incFlags_flagged,
    readsSetsWrites_of_update (fun _ => rfl) (fun d _ => (ofNat_toNat_add d 1).symm) incFlags_flagged,
    readsSetsWrites_of_update (fun _ => rfl) (fun d _ => (ofInt_toNat_sub d 1).symm)
      (decFlags_flagged (by decide)),
    readsSetsWrites_of_update (fun _ => rfl) (fun d _ => (ofInt_toNat_sub d 1).symm)
      (decFlags_flagged (by decide))⟩

/-- Settles O23: NEG and NEGB are the updating shape with the difference from zero. -/
theorem negateNegates : Obligations.NegateNegates := fun _ =>
  ⟨rfl, rfl,
    readsSetsWrites_of_update (fun _ => rfl) (fun d _ => (ofInt_zero_sub_toNat d).symm)
      (negFlags_flagged (by decide)),
    readsSetsWrites_of_update (fun _ => rfl) (fun d _ => (ofInt_zero_sub_toNat d).symm)
      (negFlags_flagged (by decide))⟩

/-- Settles O24: ADC and SBC are the updating shape, the number that C is added or subtracted. -/
theorem addAndSubtractCarry : Obligations.AddAndSubtractCarry := fun _ =>
  ⟨rfl, rfl, rfl, rfl,
    readsSetsWrites_of_update (fun _ => rfl) (fun d p => (ofNat_toNat_add_carry d p).symm)
      adcFlags_flagged,
    readsSetsWrites_of_update (fun _ => rfl) (fun d p => (ofNat_toNat_add_carry d p).symm)
      adcFlags_flagged,
    readsSetsWrites_of_update (fun _ => rfl) (fun d p => (ofInt_toNat_sub_carry d p).symm)
      (sbcFlags_flagged (by decide)),
    readsSetsWrites_of_update (fun _ => rfl) (fun d p => (ofInt_toNat_sub_carry d p).symm)
      (sbcFlags_flagged (by decide))⟩

/-- Settles O25: TST and TSTB are the testing shape. -/
theorem testSetsFlags : Obligations.TestSetsFlags := fun _ =>
  ⟨rfl, rfl,
    readsSets_of_testOne (fun _ => rfl) tstFlags_flagged,
    readsSets_of_testOne (fun _ => rfl) tstFlags_flagged⟩

/-- Settles O26: ROR and ROL are the shifting shape, C at the place that falls free. -/
theorem rotatesThroughCarry : Obligations.RotatesThroughCarry := fun _ =>
  ⟨rfl, rfl, rfl, rfl,
    readsSetsWrites_of_shiftFlags (fun _ => rfl) (fun d p => rorResult_eq_append (m := 15) d p.c)
      fun _ => rfl,
    readsSetsWrites_of_shiftFlags (fun _ => rfl) (fun d p => rorResult_eq_append (m := 7) d p.c)
      fun _ => rfl,
    readsSetsWrites_of_shiftFlags (fun _ => rfl) (fun d p => rolResult_eq_append (m := 15) d p.c)
      BitVec.msb_eq_getLsbD_last,
    readsSetsWrites_of_shiftFlags (fun _ => rfl) (fun d p => rolResult_eq_append (m := 7) d p.c)
      BitVec.msb_eq_getLsbD_last⟩

/-- Settles O27: ASR and ASL are the shifting shape, the sign or 0 at the place that falls free. -/
theorem arithmeticShifts : Obligations.ArithmeticShifts := fun _ =>
  ⟨rfl, rfl, rfl, rfl,
    readsSetsWrites_of_shiftFlags (fun _ => rfl) (fun d _ => asrResult_eq_append (m := 15) d)
      fun _ => rfl,
    readsSetsWrites_of_shiftFlags (fun _ => rfl) (fun d _ => asrResult_eq_append (m := 7) d)
      fun _ => rfl,
    readsSetsWrites_of_shiftFlags (fun _ => rfl) (fun d _ => aslResult_eq_append (m := 15) d)
      BitVec.msb_eq_getLsbD_last,
    readsSetsWrites_of_shiftFlags (fun _ => rfl) (fun d _ => aslResult_eq_append (m := 7) d)
      BitVec.msb_eq_getLsbD_last⟩

/-- Settles O28: SWAB is the updating shape with the bytes exchanged, its flags those of the low byte. -/
theorem swabSwapsBytes : Obligations.SwabSwapsBytes := fun _ =>
  ⟨rfl, readsSetsWrites_of_update (fun _ => rfl) (fun _ _ => rfl) swabFlags_eq⟩

end Sys2Proof.Machine
end

section
/-! The condition-code operators (45_condition_code_operators.md R220, R221): the decoder gives the family to the
codes whose bits 15 to 5 are 00000000101, and every named code is another name of the general row. -/

namespace Sys2Proof.Machine

/-! ### The codes of the family -/

section
variable (n : Nat)

theorem isConditionCodeOperator_decodeCco : isConditionCodeOperator (decodeCco n) = true := by
  unfold decodeCco
  split <;> rfl

theorem isConditionCodeOperator_decodeOperate : isConditionCodeOperator (decodeOperate n) = false := by
  unfold decodeOperate
  repeat' split
  all_goals rfl

theorem isConditionCodeOperator_decodeJmp : isConditionCodeOperator (decodeJmp n) = false := by
  unfold decodeJmp
  split <;> rfl

theorem isConditionCodeOperator_decodeJsr : isConditionCodeOperator (decodeJsr n) = false := by
  unfold decodeJsr
  split <;> rfl

theorem isConditionCodeOperator_decodeHigh : isConditionCodeOperator (decodeHigh n) = false := by
  unfold decodeHigh
  repeat' split
  all_goals rfl

/-- Of 000200 to 000277, the upper half. -/
theorem isConditionCodeOperator_decodeReturn :
    isConditionCodeOperator (decodeReturn n) = decide (n / 32 % 2 = 1) := by
  unfold decodeReturn
  split
  case h_5 =>
    rw [isConditionCodeOperator_decodeCco, decide_eq_true]
    simp only [imp_false] at *
    omega
  all_goals exact (decide_eq_false (by omega)).symm

/-- Of 000000 to 000377, the third quarter's upper half. -/
theorem isConditionCodeOperator_decodeLow_of_eq (h : n / 256 % 16 = 0) :
    isConditionCodeOperator (decodeLow n) = decide (n / 32 % 8 = 5) := by
  simp only [decodeLow, h]
  split
  · rw [isConditionCodeOperator_decodeOperate, decide_eq_false]
    omega
  · rw [isConditionCodeOperator_decodeJmp, decide_eq_false]
    omega
  · rw [isConditionCodeOperator_decodeReturn, decide_eq_decide]
    omega
  · simp only [imp_false] at *
    exact (decide_eq_false (by omega)).symm

theorem isConditionCodeOperator_decodeLow_of_ne (h : n / 256 % 16 ≠ 0) :
    isConditionCodeOperator (decodeLow n) = false := by
  unfold decodeLow
  split
  case h_1 => contradiction
  case h_9 | h_10 => exact isConditionCodeOperator_decodeJsr n
  case h_11 | h_12 | h_13 => split <;> rfl
  all_goals rfl

/-- Of 000000 to 007777, 000240 to 000277. -/
theorem isConditionCodeOperator_decodeLow :
    isConditionCodeOperator (decodeLow n) = decide (n / 32 % 128 = 5) := by
  by_cases h : n / 256 % 16 = 0
  · rw [isConditionCodeOperator_decodeLow_of_eq n h, decide_eq_decide]
    omega
  · rw [isConditionCodeOperator_decodeLow_of_ne n h, decide_eq_false]
    omega

/-- Of all codes, those with bits 15 to 5 equal to 00000000101. -/
theorem isConditionCodeOperator_decodeCode :
    isConditionCodeOperator (decodeCode n) = decide (n / 32 % 2048 = 5) := by
  unfold decodeCode
  split
  case h_1 =>
    rw [isConditionCodeOperator_decodeLow, decide_eq_decide]
    omega
  case h_9 =>
    rw [isConditionCodeOperator_decodeHigh, decide_eq_false]
    omega
  case h_16 =>
    simp only [imp_false] at *
    exact (decide_eq_false (by omega)).symm
  all_goals exact (decide_eq_false (by omega)).symm

end

theorem isConditionCodeOperator_decodeWord (w : Word) :
    isConditionCodeOperator (decodeWord w) = decide (0o000240 ≤ w.toNat ∧ w.toNat ≤ 0o000277) := by
  have hw : w.toNat < 65536 := w.isLt
  rw [decodeWord, isConditionCodeOperator_decodeCode, decide_eq_decide]
  omega

/-! ### What an operator does -/

/-- The named codes are other names of the general row (30_encoding.md R106): each has the word and the
meaning of the row with its own selectors. -/
theorem exists_cco_of_isConditionCodeOperator {i : Instr} (h : isConditionCodeOperator i = true) :
    ∃ k n z v c, encode i = encode (.cco k n z v c) ∧ exec i = exec (.cco k n z v c) := by
  cases i
  case cco k n z v c => exact ⟨k, n, z, v, c, rfl, rfl⟩
  case nop => exact ⟨false, false, false, false, false, rfl, rfl⟩
  case clc => exact ⟨false, false, false, false, true, rfl, rfl⟩
  case clv => exact ⟨false, false, false, true, false, rfl, rfl⟩
  case clz => exact ⟨false, false, true, false, false, rfl, rfl⟩
  case cln => exact ⟨false, true, false, false, false, rfl, rfl⟩
  case ccc => exact ⟨false, true, true, true, true, rfl, rfl⟩
  case nop260 => exact ⟨true, false, false, false, false, rfl, rfl⟩
  case sec => exact ⟨true, false, false, false, true, rfl, rfl⟩
  case sev => exact ⟨true, false, false, true, false, rfl, rfl⟩
  case sez => exact ⟨true, false, true, false, false, rfl, rfl⟩
  case sen => exact ⟨true, true, false, false, false, rfl, rfl⟩
  case scc => exact ⟨true, true, true, true, true, rfl, rfl⟩
  all_goals cases h

/-- S and the selectors stand in bits 4 to 0 of the word, R220. -/
theorem getLsbD_encode_cco : ∀ k n z v c,
    (encode (.cco k n z v c)).getLsbD 4 = k ∧ (encode (.cco k n z v c)).getLsbD 3 = n ∧
    (encode (.cco k n z v c)).getLsbD 2 = z ∧ (encode (.cco k n z v c)).getLsbD 1 = v ∧
    (encode (.cco k n z v c)).getLsbD 0 = c := by
  decide

theorem exec_cco (k n z v c : Bool) (s : State) :
    exec (.cco k n z v c) s = .next (s.setPsw (ccoFlags k n z v c s.psw)) :=
  perform_ok (modifyPsw_apply _ _)

/-- Settles O42: the decoder's family is the range of codes, and each operator is the general row of its word. -/
theorem conditionCodeOperators : Obligations.ConditionCodeOperators := by
  refine ⟨isConditionCodeOperator_decodeWord, fun i s h => ?_⟩
  obtain ⟨k, n, z, v, c, hcode, hexec⟩ := exists_cco_of_isConditionCodeOperator h
  obtain ⟨hk, hn, hz, hv, hc⟩ := getLsbD_encode_cco k n z v c
  simp only [hcode, hexec, exec_cco, hk, hn, hz, hv, hc]
  rfl

end Sys2Proof.Machine
end

section
/-! The branches (46_branches.md): every one is `branchIf` of its condition, so what they have in common, the
target and the frame, is said once, and each adds only what its condition says of the flags. -/

namespace Sys2Proof.Machine

/-- R232's target as the model forms it, in words, and as the statements write it, in the integers. -/
theorem branchTarget_eq_ofInt (pc : Word) (off : BitVec 8) :
    branchTarget pc off = BitVec.ofInt 16 (pc.toNat + 2 * off.toInt) := by
  have hpc : BitVec.ofInt 16 pc.toNat = pc := by
    rw [BitVec.ofInt_natCast, BitVec.ofNat_toNat, BitVec.setWidth_eq]
  rw [BitVec.ofInt_add, BitVec.ofInt_mul, hpc]
  rfl

theorem branchIf_apply (cond : Psw → Bool) (off : BitVec 8) (s : State) :
    branchIf cond off s = .ok () (if cond s.psw then jumpBy s off else s) := by
  rw [branchIf, branchTarget_eq_ofInt, Regs.get_r7, jumpBy]

/-- An instruction that performs `branchIf` of a condition branches when that condition holds. -/
theorem branchesWhen_of_branchIf {i : Instr} {off : BitVec 8} {cond cond' : Psw → Bool}
    (hi : ∀ s, exec i s = perform (branchIf cond' off) s) (hc : ∀ p, cond' p = cond p) :
    branchesWhen i off cond := by
  intro s
  rw [hi, perform_ok (branchIf_apply cond' off s), hc]

/-! ### Conditions on one flag -/

section
variable {i : Instr} {off : BitVec 8} {flag : Psw → Bool}

theorem branchesWhen_set (hi : ∀ s, exec i s = perform (branchIf flag off) s) :
    branchesWhen i off (fun p => flag p = true) :=
  branchesWhen_of_branchIf hi fun _ => Bool.decide_eq_true.symm

theorem branchesWhen_clear (hi : ∀ s, exec i s = perform (branchIf (fun p => !flag p) off) s) :
    branchesWhen i off (fun p => flag p = false) :=
  branchesWhen_of_branchIf hi fun _ => Bool.decide_eq_false.symm

end

/-- Settles O43: the conditions are one flag set or clear, and BR's is always. -/
theorem simpleBranches : Obligations.SimpleBranches := fun _ =>
  ⟨rfl, rfl, rfl, rfl, rfl, rfl, rfl,
    branchesWhen_of_branchIf (fun _ => rfl) fun _ => rfl,
    branchesWhen_clear (flag := Psw.z) fun _ => rfl,
    branchesWhen_set (flag := Psw.z) fun _ => rfl,
    branchesWhen_clear (flag := Psw.n) fun _ => rfl,
    branchesWhen_set (flag := Psw.n) fun _ => rfl,
    branchesWhen_clear (flag := Psw.v) fun _ => rfl,
    branchesWhen_set (flag := Psw.v) fun _ => rfl⟩

/-! ### Conditions on several flags -/

/-- R237: N xor V is 1 when the flags differ. -/
theorem xor_eq_decide_ne (n v : Bool) : (n ^^ v) = decide (n ≠ v) := by
  rw [Bool.eq_iff_iff, Bool.xor_iff_ne, decide_eq_true_iff]

/-- R236: N xor V is 0 when the flags agree. -/
theorem not_xor_eq_decide_eq (n v : Bool) : (!(n ^^ v)) = decide (n = v) := by
  rw [xor_eq_decide_ne, decide_not, Bool.not_not]

/-- R239. -/
theorem or_xor_eq_decide (z n v : Bool) : (z || (n ^^ v)) = decide (z = true ∨ n ≠ v) := by
  rw [xor_eq_decide_ne, Bool.decide_or, Bool.decide_eq_true]

/-- R238. -/
theorem not_or_xor_eq_decide (z n v : Bool) :
    (!(z || (n ^^ v))) = decide (z = false ∧ n = v) := by
  rw [Bool.not_or, not_xor_eq_decide_eq, Bool.decide_and, Bool.decide_eq_false]

/-- R243. -/
theorem or_eq_decide (c z : Bool) : (c || z) = decide (c = true ∨ z = true) := by
  rw [Bool.decide_or, Bool.decide_eq_true, Bool.decide_eq_true]

/-- R242. -/
theorem not_or_eq_decide (c z : Bool) : (!(c || z)) = decide (c = false ∧ z = false) := by
  rw [Bool.not_or, Bool.decide_and, Bool.decide_eq_false, Bool.decide_eq_false]

/-- Settles O44: N xor V is whether N and V differ, and Or of flags is 0 when each is; BHIS and BLO have the
words and the conditions of BCC and BCS. -/
theorem orderBranches : Obligations.OrderBranches := fun _ =>
  ⟨rfl, rfl, rfl, rfl, rfl, rfl, rfl, rfl, rfl, rfl,
    branchesWhen_of_branchIf (fun _ => rfl) fun _ => not_xor_eq_decide_eq _ _,
    branchesWhen_of_branchIf (fun _ => rfl) fun _ => xor_eq_decide_ne _ _,
    branchesWhen_of_branchIf (fun _ => rfl) fun _ => not_or_xor_eq_decide _ _ _,
    branchesWhen_of_branchIf (fun _ => rfl) fun _ => or_xor_eq_decide _ _ _,
    branchesWhen_of_branchIf (fun _ => rfl) fun _ => not_or_eq_decide _ _,
    branchesWhen_of_branchIf (fun _ => rfl) fun _ => or_eq_decide _ _,
    branchesWhen_clear (flag := Psw.c) fun _ => rfl,
    branchesWhen_set (flag := Psw.c) fun _ => rfl,
    branchesWhen_clear (flag := Psw.c) fun _ => rfl,
    branchesWhen_set (flag := Psw.c) fun _ => rfl⟩

end Sys2Proof.Machine
end

section
/-! The invariants of a step (10_state.md section 5, 20_memory.md sections 2 and 3): each is checked on the state's
updates, the devices' steps among them, and `step_keeps` carries it over a whole step. -/

namespace Sys2Proof.Machine

/-! ### Accesses -/

/-- R60, R62: an access succeeds where something answers, a word's only at an even address. -/
theorem accessFails_eq_false_iff (w : Width) (c : Config) (a : Word) :
    accessFails w c a = false ↔ (w = .word → a.toNat % 2 = 0) ∧ existsAt c a = true := by
  simp only [accessFails, isOdd_eq, Bool.or_eq_false_iff, Bool.and_eq_false_imp, decide_eq_true_eq,
    decide_eq_false_iff_not, Bool.not_eq_false', Nat.mod_two_not_eq_one]

/-! ### Memory -/

/-- A store leaves memory as it was, or stores its datum there if the address is one of memory. -/
theorem State.store_mem_cases (s : State) (w : Width) (a : Word) (v : BitVec w.bits) :
    (s.store w a v).mem = s.mem ∨
      place s.cfg a = .memory ∧ (s.store w a v).mem = memStore w s.mem a v := by
  by_cases h : place s.cfg a = .memory
  · exact .inr ⟨h, by rw [State.store_memory s w a v h]⟩
  · exact .inl (State.store_mem_of_ne s w a v h)

/-- The canonical form of memory is kept by every update. -/
theorem closed_wf : Closed fun s => Memory.wf s.mem = true where
  reg _ _ _ h := h
  psw _ _ h := h
  draw _ _ h := h
  overflow _ _ h := h
  trace _ h := h
  devices _ h := h
  run _ _ h := h
  bus _ h := busStep_wf h
  store s w a v _ h := by
    obtain e | ⟨-, e⟩ := s.store_mem_cases w a v
    · rw [e]; exact h
    · rw [e]; exact memStore_wf w s.mem a v h

/-- Settles O58: no update leaves the canonical form, so no step does. -/
theorem stepKeepsCanonicalMemory : Obligations.StepKeepsCanonicalMemory := fun _ _ h hstep =>
  step_keeps closed_wf (fun _ h => h) (fun _ _ h => h) hstep h

/-- A datum stored at an accessible address of memory lies below `MEM_TOP`: a word's address is even, and so is
`MEM_TOP`. -/
theorem memStore_below {c : Config} {w : Width} {a : Word} (v : BitVec w.bits) {m : Memory}
    (hf : accessFails w c a = false) (hp : place c a = .memory)
    (h : (m.all fun x => decide (x.1 < memTop c)) = true) :
    ((memStore w m a v).all fun x => decide (x.1 < memTop c)) = true := by
  have hlt : a.toNat < memTop c := (place_memory_iff c a).1 hp
  cases w with
  | byte => exact all_lt_writeCell _ _ h hlt
  | word =>
    have heven : a.toNat % 2 = 0 := ((accessFails_eq_false_iff _ _ _).1 hf).1 rfl
    have htop := memTop_even c
    exact all_lt_writeCell _ _ (all_lt_writeCell _ _ h hlt) (by omega)

/-! ### Requests -/

theorem mem_allDevices (d : Device) : d ∈ allDevices := by cases d <;> decide

/-- A part of the list of all devices is the part its own members make. -/
theorem filter_allDevices_contains (p : Device → Bool) :
    allDevices.filter (allDevices.filter p).contains = allDevices.filter p := by
  refine List.filter_congr fun d _ => ?_
  rw [Bool.eq_iff_iff, List.contains_iff_mem, List.mem_filter]
  exact and_iff_right (mem_allDevices d)

/-- Requests are sound if they are some of all devices, in that order, and all configured. -/
theorem irqSound_iff (s : State) :
    irqSound s = true ↔
      (∃ p, s.irq = allDevices.filter p) ∧ ∀ d ∈ s.irq, d ∈ s.cfg.devices := by
  simp only [irqSound, Bool.and_eq_true, beq_iff_eq, List.all_eq_true, List.contains_iff_mem]
  refine and_congr_left fun _ => ⟨fun h => ⟨_, h⟩, fun ⟨p, h⟩ => ?_⟩
  rw [h, filter_allDevices_contains]

theorem irqSound_addDevice {s : State} {d : Device} (hd : d ∈ s.cfg.devices) (h : irqSound s = true) :
    irqSound { s with irq := addDevice d s.irq } = true := by
  obtain ⟨-, hcfg⟩ := (irqSound_iff s).1 h
  refine (irqSound_iff _).2 ⟨⟨fun x => x = d || s.irq.contains x, rfl⟩, fun x hx => ?_⟩
  obtain ⟨-, hx⟩ := List.mem_filter.1 (show x ∈ addDevice d s.irq from hx)
  rw [Bool.or_eq_true, decide_eq_true_eq, List.contains_iff_mem] at hx
  rcases hx with rfl | hx
  · exact hd
  · exact hcfg x hx

theorem irqSound_removeDevice {s : State} (d : Device) (h : irqSound s = true) :
    irqSound { s with irq := removeDevice d s.irq } = true := by
  obtain ⟨⟨p, hp⟩, hcfg⟩ := (irqSound_iff s).1 h
  refine (irqSound_iff _).2 ⟨?_, fun x hx => ?_⟩
  · simp only [removeDevice, hp, List.filter_filter]
    exact ⟨_, rfl⟩
  · exact hcfg x (List.mem_of_mem_filter (show x ∈ removeDevice d s.irq from hx))

theorem irqSound_requestsAfter {s : State} (e : BusEvent) (h : irqSound s = true) :
    irqSound { s with irq := requestsAfter s.cfg s.irq e } = true := by
  cases e with
  | request d =>
    by_cases hd : s.cfg.devices.contains d = true
    · simp only [requestsAfter, if_pos hd]
      exact irqSound_addDevice (List.contains_iff_mem.1 hd) h
    · simp only [requestsAfter, if_neg hd]
      exact h
  | withdraw d => exact irqSound_removeDevice d h
  | storeByte _ _ _ | storeWord _ _ _ => exact h

/-! ### Sound states -/

/-- What of a sound state holds also within an instruction, for one configuration. -/
structure SoundWithin (c : Config) (s : State) : Prop where
  wf : Memory.wf s.mem = true
  below : memBelowTop s = true
  irq : irqSound s = true
  cfg : s.cfg = c

theorem sound_iff (s : State) :
    s.sound = true ↔
      SoundWithin s.cfg s ∧ s.tracePending = false ∧ s.stackOverflowPending = false := by
  simp only [State.sound, Bool.and_eq_true, Bool.not_eq_true']
  exact ⟨fun ⟨⟨⟨⟨hwf, hb⟩, hi⟩, ht⟩, ho⟩ => ⟨⟨hwf, hb, hi, rfl⟩, ht, ho⟩,
    fun ⟨⟨hwf, hb, hi, _⟩, ht, ho⟩ => ⟨⟨⟨⟨hwf, hb⟩, hi⟩, ht⟩, ho⟩⟩

theorem SoundWithin.removeDevice {c : Config} {s : State} (d : Device) (h : SoundWithin c s) :
    SoundWithin c { s with irq := removeDevice d s.irq } :=
  ⟨h.wf, h.below, irqSound_removeDevice d h.irq, h.cfg⟩

theorem SoundWithin.memStore {c : Config} {s : State} {w : Width} {a : Word} (v : BitVec w.bits)
    (hf : accessFails w s.cfg a = false) (hp : place s.cfg a = .memory) (h : SoundWithin c s) :
    SoundWithin c { s with mem := memStore w s.mem a v } :=
  ⟨memStore_wf w s.mem a v h.wf, memStore_below v hf hp h.below, h.irq, h.cfg⟩

theorem closed_soundWithin (c : Config) : Closed (SoundWithin c) where
  reg _ _ _ h := ⟨h.wf, h.below, h.irq, h.cfg⟩
  psw _ _ h := ⟨h.wf, h.below, h.irq, h.cfg⟩
  draw _ _ h := ⟨h.wf, h.below, h.irq, h.cfg⟩
  overflow _ _ h := ⟨h.wf, h.below, h.irq, h.cfg⟩
  trace _ h := ⟨h.wf, h.below, h.irq, h.cfg⟩
  devices _ h := ⟨h.wf, h.below, (irqSound_iff _).2 ⟨⟨fun _ => false, rfl⟩, nofun⟩, h.cfg⟩
  run _ _ h := ⟨h.wf, h.below, h.irq, h.cfg⟩
  bus _ h := busStep_keeps (fun _ h => ⟨h.wf, h.below, h.irq, h.cfg⟩)
    (fun _ e h => ⟨h.wf, h.below, irqSound_requestsAfter e h.irq, h.cfg⟩)
    (fun _ _ _ v hf hp h => h.memStore v hf hp) h
  store s w a v hf h := by
    by_cases hp : place s.cfg a = .memory
    · rw [State.store_memory s w a v hp]
      exact h.memStore v hf hp
    · have hm := State.store_mem_of_ne s w a v hp
      refine ⟨hm ▸ h.wf, ?_, ?_, (State.store_cfg s w a v).trans h.cfg⟩
      · rw [memBelowTop, hm, State.store_cfg]; exact h.below
      · rw [irqSound, State.store_irq, State.store_cfg]; exact h.irq

/-- A step ends with the end of an instruction. -/
theorem step_next_endOfInstruction {s t : State} (h : step s = .next t) :
    ∃ u, t = endOfInstruction u := by
  have ends : ∀ o : Host.Outcome State Fault Refusal, finish o = .next t →
      ∃ u, t = endOfInstruction u := by
    intro o ho
    cases o with
    | next u => cases ho; exact ⟨u, rfl⟩
    | fault r => cases ho
    | refused r => cases ho
  unfold step at h
  split at h
  · unfold runInstruction at h
    split at h <;> exact ends _ h
  · cases h; exact ⟨s, rfl⟩
  · cases h

/-- Settles O59: what a sound state is within an instruction every update keeps, and the end of the instruction
consumes the pending flags. -/
theorem stepKeepsSound : Obligations.StepKeepsSound := by
  intro s t hs hstep
  obtain ⟨hw, -, -⟩ := (sound_iff s).1 hs
  have ht : SoundWithin s.cfg t :=
    step_keeps (closed_soundWithin s.cfg) (fun _ h => ⟨h.wf, h.below, h.irq, h.cfg⟩)
      (fun _ d h => h.removeDevice d) hstep hw
  obtain ⟨u, rfl⟩ := step_next_endOfInstruction hstep
  exact ⟨(sound_iff _).2 ⟨⟨ht.wf, ht.below, ht.irq, rfl⟩, rfl, rfl⟩, ht.cfg⟩

/-! ### The start state -/

/-- PS from a word: its fields stand at their places of 10_state.md R30 in the word too. -/
theorem Psw.ofWord_eq (x : Word) :
    Psw.ofWord x =
      { pri := x.extractLsb' 5 3, t := x.getLsbD 4, n := x.getLsbD 3, z := x.getLsbD 2,
        v := x.getLsbD 1, c := x.getLsbD 0 } := by
  have field : (lowByte x).extractLsb' 5 3 = x.extractLsb' 5 3 := by
    apply BitVec.eq_of_getLsbD_eq
    intro i hi
    have hlt : 5 + i < 8 := by omega
    simp only [lowByte, BitVec.getLsbD_extractLsb', hi, hlt, decide_true, Bool.true_and, Nat.zero_add]
  have bit : ∀ i, i < 8 → (lowByte x).getLsbD i = x.getLsbD i := by
    intro i hi
    simp only [lowByte, BitVec.getLsbD_extractLsb', hi, decide_true, Bool.true_and, Nat.zero_add]
  simp only [Psw.ofWord, Psw.ofByte, field, bit, Nat.reduceLT]

/-- A state just started has empty memory and no request. -/
theorem start_sound (c : Config) : (State.start c).sound = true :=
  (sound_iff _).2 ⟨⟨rfl, rfl, (irqSound_iff _).2 ⟨⟨fun _ => false, rfl⟩, nofun⟩, rfl⟩, rfl, rfl⟩

/-- Settles O60: both starts set PC and PS from the configuration and leave nothing pending; the console's sets no
other register. -/
theorem startState : Obligations.StartState := by
  refine ⟨rfl, fun c s => ⟨start_sound c, fun t ht => ?_, fun r hr => ?_, rfl⟩⟩
  · rcases ht with rfl | ⟨rfl, rfl⟩ <;> exact ⟨rfl, Psw.ofWord_eq _, rfl, rfl, rfl, rfl, rfl⟩
  · exact Regs.get_set_ne s.regs s.cfg.entryPc (by simpa using hr)

end Sys2Proof.Machine
end

section
/-! The decoder and the encoder (30_encoding.md sections 2, 4 and 5) undo each other. An instruction's code is its
row's base plus its last field, and the base is a multiple of the field's range, so a digit above the field is one
of the base (`Operand.add_code_div` and its like); and every decoder keeps the digits it has read. -/

namespace Sys2Proof

/-! ### The digits of a code above its last field -/

/-- A number below `f` added to a multiple of `f` changes no digit above it. -/
theorem add_div_of_dvd {b c m f : Nat} (hc : c < f) (hb : b % f = 0) (hm : m % f = 0) :
    (b + c) / m = b / m := by
  obtain ⟨p, rfl⟩ := Nat.dvd_of_mod_eq_zero hb
  obtain ⟨q, rfl⟩ := Nat.dvd_of_mod_eq_zero hm
  rw [← Nat.div_div_eq_div_mul, ← Nat.div_div_eq_div_mul, Nat.mul_add_div (by omega),
    Nat.div_eq_of_lt hc, Nat.add_zero, Nat.mul_div_cancel_left p (by omega)]

theorem Operand.add_code_div (o : Operand) {b m : Nat} (hb : b % 64 = 0) (hm : m % 64 = 0) :
    (b + o.code) / m = b / m :=
  add_div_of_dvd o.code_lt hb hm

/-- The digits above the source field. -/
theorem Operand.add_code_mul_div (o : Operand) {b m : Nat} (hb : b % 4096 = 0) (hm : m % 4096 = 0) :
    (b + o.code * 64) / m = b / m :=
  have := o.code_lt
  add_div_of_dvd (by omega) hb hm

theorem Reg.add_code_div (r : Reg) {b m : Nat} (hb : b % 8 = 0) (hm : m % 8 = 0) :
    (b + r.code) / m = b / m :=
  add_div_of_dvd r.code_lt hb hm

theorem add_toNat_div {k : Nat} (x : BitVec k) {b m : Nat} (hb : b % 2 ^ k = 0) (hm : m % 2 ^ k = 0) :
    (b + x.toNat) / m = b / m :=
  add_div_of_dvd x.isLt hb hm

/-! ### The last field of a code -/

theorem Operand.ofCode_add_code (o : Operand) {b : Nat} (hb : b % 64 = 0) :
    Operand.ofCode (b + o.code) = o :=
  have := o.code_lt
  Operand.ofCode_of_mod (by omega)

theorem Operand.ofCode_add_code_mul_div (o : Operand) {b : Nat} (hb : b % 4096 = 0) :
    Operand.ofCode ((b + o.code * 64) / 64) = o :=
  have := o.code_lt
  Operand.ofCode_of_mod (by omega)

theorem Reg.ofCode_add_code (r : Reg) {b : Nat} (hb : b % 8 = 0) : Reg.ofCode (b + r.code) = r :=
  have := r.code_lt
  Reg.ofCode_of_mod (by omega)

theorem ofNat_add_toNat {k : Nat} (x : BitVec k) {b : Nat} (hb : b % 2 ^ k = 0) :
    BitVec.ofNat k (b + x.toNat) = x := by
  apply BitVec.eq_of_toNat_eq
  rw [BitVec.toNat_ofNat, Nat.add_mod, hb, Nat.zero_add, Nat.mod_mod, Nat.mod_eq_of_lt x.isLt]

/-! ### The digit of the mode -/

/-- Mode 0 is the digit 0. -/
theorem Mode.code_eq_zero_iff (m : Mode) : m.code = 0 ↔ m = .register := by cases m <;> decide

theorem Operand.add_code_div_mode (o : Operand) {b : Nat} (hb : b % 64 = 0) :
    (b + o.code) / 8 % 8 = o.mode.code := by
  have := o.mode.code_lt
  have := o.reg.code_lt
  unfold Operand.code
  omega

/-- A destination that names an address has a mode digit other than 0. -/
theorem Operand.mode_code_ne_zero {o : Operand} (h : o.namesAddress = true) : o.mode.code ≠ 0 := by
  rw [Ne, Mode.code_eq_zero_iff]
  simpa [Operand.namesAddress] using h

theorem decodeJmp_of_ne {n : Nat} (h : n / 8 % 8 ≠ 0) : decodeJmp n = .jmp (Operand.ofCode n) := by
  unfold decodeJmp
  split
  · contradiction
  · rfl

theorem decodeJsr_of_ne {n : Nat} (h : n / 8 % 8 ≠ 0) :
    decodeJsr n = .jsr (Reg.ofCode (n / 64)) (Operand.ofCode n) := by
  unfold decodeJsr
  split
  · contradiction
  · rfl

/-! ### Decoding what was encoded -/

theorem decodeCode_jmp {dst : Operand} (h : dst.namesAddress = true) :
    decodeCode (0o000100 + dst.code) = .jmp dst := by
  have hmode : (0o000100 + dst.code) / 8 % 8 ≠ 0 := by
    rw [dst.add_code_div_mode rfl]; exact Operand.mode_code_ne_zero h
  simp only [decodeCode, decodeLow, Operand.add_code_div, Nat.reduceDiv, Nat.reduceMod,
    decodeJmp_of_ne hmode, Operand.ofCode_add_code]

theorem decodeCode_jmpIllegal (d : Reg) : decodeCode (0o000100 + d.code) = .jmpIllegal d := by
  cases d <;> rfl

/-- The digits of JSR's code: its row's three, then the link register. -/
theorem jsr_digits (r : Reg) {c : Nat} (hc : c < 64) :
    (0o004000 + r.code * 64 + c) / 4096 % 16 = 0 ∧
      ((0o004000 + r.code * 64 + c) / 256 % 16 = 8 ∨ (0o004000 + r.code * 64 + c) / 256 % 16 = 9) ∧
      Reg.ofCode ((0o004000 + r.code * 64 + c) / 64) = r := by
  have hr := r.code_lt
  exact ⟨by omega, by omega, Reg.ofCode_of_mod (by omega)⟩

theorem decodeCode_jsr_row (r : Reg) {c : Nat} (hc : c < 64) :
    decodeCode (0o004000 + r.code * 64 + c) = decodeJsr (0o004000 + r.code * 64 + c) := by
  obtain ⟨htop, hrow | hrow, -⟩ := jsr_digits r hc <;> simp only [decodeCode, htop, decodeLow, hrow]

theorem decodeCode_jsr (r : Reg) {dst : Operand} (h : dst.namesAddress = true) :
    decodeCode (0o004000 + r.code * 64 + dst.code) = .jsr r dst := by
  have hbase : (0o004000 + r.code * 64) % 64 = 0 := by omega
  have hmode : (0o004000 + r.code * 64 + dst.code) / 8 % 8 ≠ 0 := by
    rw [dst.add_code_div_mode hbase]; exact Operand.mode_code_ne_zero h
  obtain ⟨-, -, hlink⟩ := jsr_digits r dst.code_lt
  rw [decodeCode_jsr_row r dst.code_lt, decodeJsr_of_ne hmode, hlink, Operand.ofCode_add_code _ hbase]

theorem decodeCode_jsrIllegal (r d : Reg) :
    decodeCode (0o004000 + r.code * 64 + d.code) = .jsrIllegal r d := by
  cases r <;> cases d <;> rfl

/-- The two rows of nine free bits take up two values of the digit above them. -/
theorem decodeCode_unlisted_007000 (x : BitVec 9) :
    decodeCode (0o007000 + x.toNat) = .unlisted_007000_007777 x := by
  have hx := x.isLt
  have htop : (0o007000 + x.toNat) / 4096 % 16 = 0 := by omega
  have hrow : (0o007000 + x.toNat) / 256 % 16 = 14 ∨ (0o007000 + x.toNat) / 256 % 16 = 15 := by omega
  obtain hrow | hrow := hrow <;>
    simp only [decodeCode, htop, decodeLow, hrow, ofNat_add_toNat, Nat.reducePow, Nat.reduceMod]

theorem decodeCode_unlisted_107000 (x : BitVec 9) :
    decodeCode (0o107000 + x.toNat) = .unlisted_107000_107777 x := by
  have hx := x.isLt
  have htop : (0o107000 + x.toNat) / 4096 % 16 = 8 := by omega
  have hrow : (0o107000 + x.toNat) / 256 % 16 = 14 ∨ (0o107000 + x.toNat) / 256 % 16 = 15 := by omega
  obtain hrow | hrow := hrow <;>
    simp only [decodeCode, htop, decodeHigh, hrow, ofNat_add_toNat, Nat.reducePow, Nat.reduceMod]

/-- Decoding a well-formed instruction's code, row by row: the decoder's digits are the base's. -/
theorem decodeCode_code {i : Instr} (h : i.wellFormed = true) : decodeCode i.code = i.canonical := by
  cases i
  case mov s d | movb s d | cmp s d | cmpb s d | bit s d | bitb s d | bic s d | bicb s d | bis s d
      | bisb s d | add s d | sub s d =>
    simp only [Instr.code, decodeCode, Operand.add_code_div, Operand.add_code_mul_div,
      Operand.ofCode_add_code, Operand.ofCode_add_code_mul_div, Nat.add_mul_mod_self_right,
      Nat.reduceDiv, Nat.reduceMod, Instr.canonical]
  case clr d | clrb d | com d | comb d | inc d | incb d | dec d | decb d | neg d | negb d | adc d
      | adcb d | sbc d | sbcb d | tst d | tstb d | ror d | rorb d | rol d | rolb d | asr d | asrb d
      | asl d | aslb d | swab d =>
    simp only [Instr.code, decodeCode, decodeLow, decodeHigh, Operand.add_code_div,
      Operand.ofCode_add_code, Nat.reduceDiv, Nat.reduceMod, Instr.canonical]
  case br x | bne x | beq x | bge x | blt x | bgt x | ble x | bpl x | bmi x | bhi x | blos x | bvc x
      | bvs x | bcc x | bcs x | bhis x | blo x | emt x | trap x | unlisted_006400_006777 x
      | unlisted_106400_106777 x | unlisted_070000_077777 x | unlisted_170000_177777 x =>
    simp only [Instr.code, decodeCode, decodeLow, decodeHigh, add_toNat_div, ofNat_add_toNat,
      Nat.reduceDiv, Nat.reduceMod, Nat.reducePow, Instr.canonical]
  case unlisted_000006_000007 x | unlisted_000010_000017 x | unlisted_000020_000037 x
      | unlisted_000040_000077 x | unlisted_000210_000217 x | unlisted_000220_000237 x =>
    clear h
    revert x
    decide
  case unlisted_007000_007777 x => exact decodeCode_unlisted_007000 x
  case unlisted_107000_107777 x => exact decodeCode_unlisted_107000 x
  case rts r => cases r <;> rfl
  case jmpIllegal d => exact decodeCode_jmpIllegal d
  case jmp dst => exact decodeCode_jmp h
  case jsrIllegal r d => exact decodeCode_jsrIllegal r d
  case jsr r dst => exact decodeCode_jsr r h
  case cco k n z v c =>
    revert h k n z v c
    decide
  all_goals rfl

/-- Decoding reads the code of the word. -/
theorem decodeWord_encode (i : Instr) : decodeWord (encode i) = decodeCode i.code := by
  rw [decodeWord, Laws.encode_toNat]

/-- Decoding bytes that begin with the two of a word. -/
theorem decode_bytes (w : Word) (rest : List Byte) :
    decode (lowByte w :: highByte w :: rest) = .ok (decodeWord w, rest) := by
  rw [decode, Machine.wordOfBytes_low_high]

/-- Settles O1: the decoder reads a well-formed instruction's code as the instruction. -/
theorem decodeOfEncode : Obligations.DecodeOfEncode := by
  intro i rest h
  have hword : decodeWord (encode i) = i.canonical := by rw [decodeWord_encode, decodeCode_code h]
  exact ⟨hword, by rw [decode_bytes, hword]⟩

end Sys2Proof
end

section
/-! Every word is an instruction's (30_encoding.md section 4, R92, R93): each decoder answers a well-formed
instruction, whose code puts back the digits that decoder has read. -/

namespace Sys2Proof

/-! ### The code of what a decoder answers

A split of a digit takes its values in order; `iterate k` closes the next `k` of them. -/

section
variable (n : Nat)

theorem decodeOperate_code : (decodeOperate n).code = n % 64 := by
  have row : n % 64 = n / 8 % 8 * 8 + n % 8 := by omega
  have hrow : n / 8 % 8 < 8 := Nat.mod_lt _ (by decide)
  have hlast : n % 8 < 8 := Nat.mod_lt _ (by decide)
  unfold decodeOperate
  generalize hd : n / 8 % 8 = d at hrow row ⊢
  interval_cases d
  · rw [row]
    generalize hl : n % 8 = last at hlast ⊢
    clear row hd
    interval_cases last
    iterate 6 · rfl
    all_goals
      simp only [Instr.code, BitVec.toNat_ofNat]
      omega
  all_goals
    simp only [Instr.code, BitVec.toNat_ofNat]
    omega

/-- The operators' decoder looks at the lowest five bits alone. -/
theorem decodeCco_mod : decodeCco n = decodeCco (n % 32) := by
  have h16 : n % 32 / 16 % 2 = n / 16 % 2 := by omega
  have h8 : n % 32 / 8 % 2 = n / 8 % 2 := by omega
  have h4 : n % 32 / 4 % 2 = n / 4 % 2 := by omega
  have h2 : n % 32 / 2 % 2 = n / 2 % 2 := by omega
  have h1 : n % 32 % 2 = n % 2 := by omega
  simp only [decodeCco, Nat.mod_mod, h16, h8, h4, h2, h1]

theorem decodeCco_code : (decodeCco n).code = 0o240 + n % 32 := by
  have digits : ∀ m, m < 32 → (decodeCco m).code = 0o240 + m := by decide
  rw [decodeCco_mod]
  exact digits _ (Nat.mod_lt n (by decide))

theorem decodeReturn_code : (decodeReturn n).code = 0o200 + n % 64 := by
  unfold decodeReturn
  split
  case h_5 =>
    rw [decodeCco_code]
    simp only [imp_false] at *
    omega
  all_goals
    simp only [Instr.code, BitVec.toNat_ofNat, Reg.code_ofCode]
    omega

theorem decodeJmp_code : (decodeJmp n).code = 0o100 + n % 64 := by
  unfold decodeJmp
  split <;> simp only [Instr.code, Operand.code_ofCode, Reg.code_ofCode]
  omega

theorem decodeJsr_code : (decodeJsr n).code = 0o4000 + n % 512 := by
  unfold decodeJsr
  split <;> simp only [Instr.code, Operand.code_ofCode, Reg.code_ofCode] <;> omega

/-- A code in base 256: its row, and what the row leaves free. -/
theorem row_digits : n % 4096 = n / 256 % 16 * 256 + n % 256 := by omega

/-- What a row of four leaves free. -/
theorem quarter_digits (b : Nat) : b + n % 256 = b + n / 64 % 4 * 64 + n % 64 := by omega

theorem decodeLow_code : (decodeLow n).code = n % 4096 := by
  have hrow : n / 256 % 16 < 16 := Nat.mod_lt _ (by decide)
  have hquarter : n / 64 % 4 < 4 := Nat.mod_lt _ (by decide)
  have quarter := quarter_digits n
  rw [row_digits]
  unfold decodeLow
  generalize hd : n / 256 % 16 = d at hrow ⊢
  generalize n / 64 % 4 = q at hquarter quarter ⊢
  interval_cases d
  · rw [quarter]
    interval_cases q
    · exact (decodeOperate_code n).trans (by omega)
    · exact decodeJmp_code n
    · exact decodeReturn_code n
    · exact congrArg (0o300 + ·) (Operand.code_ofCode n)
  iterate 7 · rfl
  iterate 2 · exact (decodeJsr_code n).trans (by omega)
  iterate 3
    · rw [quarter]
      interval_cases q <;> exact congrArg (_ + ·) (Operand.code_ofCode n)
  · rfl
  all_goals
    simp only [Instr.code, BitVec.toNat_ofNat]
    omega

theorem decodeHigh_code : (decodeHigh n).code = 0o100000 + n % 4096 := by
  have hrow : n / 256 % 16 < 16 := Nat.mod_lt _ (by decide)
  have hquarter : n / 64 % 4 < 4 := Nat.mod_lt _ (by decide)
  have quarter := quarter_digits n
  rw [row_digits, ← Nat.add_assoc]
  unfold decodeHigh
  generalize hd : n / 256 % 16 = d at hrow ⊢
  generalize n / 64 % 4 = q at hquarter quarter ⊢
  interval_cases d
  iterate 10 · rfl
  iterate 3
    · rw [quarter]
      interval_cases q <;> exact congrArg (_ + ·) (Operand.code_ofCode n)
  · rfl
  all_goals
    simp only [Instr.code, BitVec.toNat_ofNat]
    omega

/-- The codes with two operand fields: the top four bits and the fields. -/
theorem operands_digits (d : Nat) :
    d * 4096 + (Operand.ofCode (n / 64)).code * 64 + (Operand.ofCode n).code = d * 4096 + n % 4096 := by
  rw [Operand.code_ofCode, Operand.code_ofCode]
  omega

theorem decodeCode_code_eq_mod : (decodeCode n).code = n % 65536 := by
  have digits : n % 65536 = n / 4096 % 16 * 4096 + n % 4096 := by omega
  have hlt : n / 4096 % 16 < 16 := Nat.mod_lt _ (by decide)
  rw [digits]
  unfold decodeCode
  generalize n / 4096 % 16 = d at hlt ⊢
  interval_cases d
  · exact (decodeLow_code n).trans (by omega)
  iterate 6 · rw [← operands_digits]; rfl
  · rfl
  · exact decodeHigh_code n
  iterate 6 · rw [← operands_digits]; rfl
  · rfl

end

/-! ### What a decoder answers is well formed -/

section
variable (n : Nat)

theorem decodeOperate_wellFormed : (decodeOperate n).wellFormed = true := by
  unfold decodeOperate
  repeat' split
  all_goals rfl

/-- The general row is left the codes that have no name. -/
theorem decodeCco_wellFormed : (decodeCco n).wellFormed = true := by
  have digits : ∀ m, m < 32 → (decodeCco m).wellFormed = true := by decide
  rw [decodeCco_mod]
  exact digits _ (Nat.mod_lt n (by decide))

theorem decodeReturn_wellFormed : (decodeReturn n).wellFormed = true := by
  unfold decodeReturn
  split
  case h_5 => exact decodeCco_wellFormed n
  all_goals rfl

/-- An operand whose mode digit is not 0 names an address. -/
theorem ofCode_namesAddress {n : Nat} (h : n / 8 % 8 ≠ 0) : (Operand.ofCode n).namesAddress = true := by
  rw [Operand.namesAddress, decide_eq_true_iff, Ne, ← Mode.code_eq_zero_iff]
  show ¬ (Mode.ofCode (n / 8)).code = 0
  rwa [Mode.code_ofCode]

theorem decodeJmp_wellFormed : (decodeJmp n).wellFormed = true := by
  unfold decodeJmp
  split
  · rfl
  · exact ofCode_namesAddress ‹_›

theorem decodeJsr_wellFormed : (decodeJsr n).wellFormed = true := by
  unfold decodeJsr
  split
  · rfl
  · exact ofCode_namesAddress ‹_›

theorem decodeLow_wellFormed : (decodeLow n).wellFormed = true := by
  unfold decodeLow
  split
  case h_1 =>
    split
    · exact decodeOperate_wellFormed n
    · exact decodeJmp_wellFormed n
    · exact decodeReturn_wellFormed n
    · rfl
  case h_9 | h_10 => exact decodeJsr_wellFormed n
  case h_11 | h_12 | h_13 => split <;> rfl
  all_goals rfl

theorem decodeHigh_wellFormed : (decodeHigh n).wellFormed = true := by
  unfold decodeHigh
  repeat' split
  all_goals rfl

theorem decodeCode_wellFormed : (decodeCode n).wellFormed = true := by
  unfold decodeCode
  split
  case h_1 => exact decodeLow_wellFormed n
  case h_9 => exact decodeHigh_wellFormed n
  all_goals rfl

end

/-- Settles O2: no digit is lost in decoding, and no row is answered for a word of another. -/
theorem encodeOfDecode : Obligations.EncodeOfDecode := fun w =>
  ⟨decodeCode_wellFormed w.toNat, BitVec.eq_of_toNat_eq (by
    rw [Laws.encode_toNat, decodeWord, decodeCode_code_eq_mod, Nat.mod_eq_of_lt w.isLt])⟩

/-- Settles O3: the words written out decode as the spec's examples say. -/
theorem sampleWordsDecode : Obligations.SampleWordsDecode := by
  refine ⟨?_, ?_, ?_, ?_, ?_, ?_, ?_, ?_, ?_, ?_, ?_, ?_, ?_, ?_⟩ <;> rfl

/-! ### The unlisted codes -/

section
variable (n : Nat)

open Machine

theorem isUnlisted_decodeOperate : isUnlisted (decodeOperate n) = decide (6 ≤ n % 64) := by
  have row : n % 64 = n / 8 % 8 * 8 + n % 8 := by omega
  have hrow : n / 8 % 8 < 8 := Nat.mod_lt _ (by decide)
  have hlast : n % 8 < 8 := Nat.mod_lt _ (by decide)
  rw [row]
  unfold decodeOperate
  generalize n / 8 % 8 = d at hrow ⊢
  generalize n % 8 = last at hlast ⊢
  interval_cases d
  · interval_cases last <;> rfl
  all_goals exact (decide_eq_true (by omega)).symm

theorem isUnlisted_decodeCco : isUnlisted (decodeCco n) = false := by
  unfold decodeCco
  split <;> rfl

theorem isUnlisted_decodeReturn :
    isUnlisted (decodeReturn n) = decide (0o10 ≤ n % 64 ∧ n % 64 ≤ 0o37) := by
  unfold decodeReturn
  split
  case h_1 => exact (decide_eq_false (by omega)).symm
  case h_5 =>
    rw [isUnlisted_decodeCco]
    simp only [imp_false] at *
    exact (decide_eq_false (by omega)).symm
  all_goals exact (decide_eq_true (by omega)).symm

theorem isUnlisted_decodeJmp : isUnlisted (decodeJmp n) = false := by
  unfold decodeJmp
  split <;> rfl

theorem isUnlisted_decodeJsr : isUnlisted (decodeJsr n) = false := by
  unfold decodeJsr
  split <;> rfl

/-- Of 000000 to 007777. -/
theorem isUnlisted_decodeLow :
    isUnlisted (decodeLow n) =
      decide ((6 ≤ n % 4096 ∧ n % 4096 ≤ 0o77) ∨ (0o210 ≤ n % 4096 ∧ n % 4096 ≤ 0o237) ∨
        0o6400 ≤ n % 4096) := by
  have hrow : n / 256 % 16 < 16 := Nat.mod_lt _ (by decide)
  have hquarter : n / 64 % 4 < 4 := Nat.mod_lt _ (by decide)
  have quarter := quarter_digits n
  have hfree : n % 256 < 256 := Nat.mod_lt _ (by decide)
  have hlast : n % 64 < 64 := Nat.mod_lt _ (by decide)
  have operate := isUnlisted_decodeOperate n
  have rts := isUnlisted_decodeReturn n
  rw [row_digits]
  unfold decodeLow
  generalize n / 256 % 16 = d at hrow ⊢
  generalize n / 64 % 4 = q at hquarter quarter ⊢
  generalize n % 256 = free at hfree quarter ⊢
  generalize n % 64 = last at hlast operate rts quarter
  interval_cases d
  · rw [quarter]
    interval_cases q
    · exact operate.trans (decide_eq_decide.2 (by omega))
    · exact (isUnlisted_decodeJmp n).trans (decide_eq_false (by omega)).symm
    · exact rts.trans (decide_eq_decide.2 (by omega))
    · exact (decide_eq_false (by omega)).symm
  iterate 7 · exact (decide_eq_false (by omega)).symm
  iterate 2 · exact (isUnlisted_decodeJsr n).trans (decide_eq_false (by omega)).symm
  iterate 3 · interval_cases q <;> exact (decide_eq_false (by omega)).symm
  all_goals exact (decide_eq_true (by omega)).symm

/-- Of 100000 to 107777. -/
theorem isUnlisted_decodeHigh : isUnlisted (decodeHigh n) = decide (0o6400 ≤ n % 4096) := by
  have hrow : n / 256 % 16 < 16 := Nat.mod_lt _ (by decide)
  have hquarter : n / 64 % 4 < 4 := Nat.mod_lt _ (by decide)
  have hfree : n % 256 < 256 := Nat.mod_lt _ (by decide)
  rw [row_digits]
  unfold decodeHigh
  generalize n / 256 % 16 = d at hrow ⊢
  generalize n / 64 % 4 = q at hquarter ⊢
  generalize n % 256 = free at hfree ⊢
  interval_cases d
  iterate 10 · exact (decide_eq_false (by omega)).symm
  iterate 3 · interval_cases q <;> exact (decide_eq_false (by omega)).symm
  all_goals exact (decide_eq_true (by omega)).symm

end

/-- R100's ranges are the codes the decoder answers an unlisted row for. -/
theorem isUnlisted_decodeWord (w : Word) :
    Machine.isUnlisted (decodeWord w) = Machine.unlistedCode w := by
  have hw : w.toNat < 65536 := w.isLt
  simp only [decodeWord, Machine.unlistedCode, ← Bool.decide_or]
  generalize w.toNat = n at hw
  have low := isUnlisted_decodeLow n
  have high := isUnlisted_decodeHigh n
  have digits : n = n / 4096 % 16 * 4096 + n % 4096 := by omega
  have hlt : n / 4096 % 16 < 16 := Nat.mod_lt _ (by decide)
  have hrest : n % 4096 < 4096 := Nat.mod_lt _ (by decide)
  unfold decodeCode
  generalize n / 4096 % 16 = d at hlt digits ⊢
  generalize n % 4096 = rest at hrest digits low high
  clear hw
  interval_cases d
  · exact low.trans (decide_eq_decide.2 (by omega))
  iterate 6 · exact (decide_eq_false (by omega)).symm
  · exact (decide_eq_true (by omega)).symm
  · exact high.trans (decide_eq_decide.2 (by omega))
  iterate 6 · exact (decide_eq_false (by omega)).symm
  · exact (decide_eq_true (by omega)).symm

end Sys2Proof
end

section
/-! MemRead and MemWrite over the address map (20_memory.md sections 3 to 5, 10_state.md section 3): who answers at
an address, and what each of them answers and takes. -/

namespace Sys2Proof.Machine

/-! ### Even addresses -/

theorem evenAddress_toNat (a : Word) : (evenAddress a).toNat = a.toNat / 2 * 2 := by
  have shifted : evenAddress a = a >>> 1 <<< 1 := by
    apply BitVec.eq_of_getLsbD_eq
    intro i hi
    simp only [evenAddress, BitVec.getLsbD_and, BitVec.getLsbD_shiftLeft, BitVec.getLsbD_ushiftRight]
    interval_cases i <;> simp
  have := a.isLt
  rw [shifted, BitVec.toNat_shiftLeft, BitVec.toNat_ushiftRight, Nat.shiftLeft_eq,
    Nat.shiftRight_eq_div_pow]
  omega

/-- The two bytes of the word at an even address. -/
theorem evenAddress_eq_iff {b : Word} (hb : b.toNat % 2 = 0) (a : Word) :
    evenAddress a = b ↔ a.toNat = b.toNat ∨ a.toNat = b.toNat + 1 := by
  rw [← BitVec.toNat_inj, evenAddress_toNat]
  omega

/-! ### Who answers -/

theorem existsAt_of_place {c : Config} {a : Word} {p : Place} (h : place c a = p) (hp : p ≠ .nothing) :
    existsAt c a = true := by
  rw [existsAt, h]; exact decide_eq_true hp

/-- R56: memory, PS, the switch register, the KE11-A if present and the configured devices answer. -/
theorem existsAt_iff (c : Config) (a : Word) :
    existsAt c a = true ↔
      a.toNat < memTop c ∨ a = 0o177776 ∨ a = 0o177777 ∨ a = 0o177570 ∨ a = 0o177571 ∨
        (c.hasKe11a = true ∧ 0o177300 ≤ a.toNat ∧ a.toNat ≤ 0o177317) ∨
        ∃ d ∈ c.devices, a &&& 0o177776 ∈ deviceRegisters d := by
  have owns : ∀ d, deviceOwns a d = true ↔ a &&& 0o177776 ∈ deviceRegisters d :=
    fun d => List.contains_iff_mem
  have hps := evenAddress_eq_iff (b := psAddress) rfl a
  have hswr := evenAddress_eq_iff (b := swrAddress) rfl a
  have psNat : psAddress.toNat = 65534 := rfl
  have swrNat : swrAddress.toNat = 65400 := rfl
  have keNat : keBase.toNat = 65216 ∧ keLast.toNat = 65231 := ⟨rfl, rfl⟩
  simp only [psNat, swrNat] at hps hswr
  simp only [existsAt, decide_eq_true_eq, place, hps, hswr, keNat, Bool.and_eq_true, ← BitVec.toNat_inj,
    BitVec.reduceToNat]
  split
  · exact iff_of_true nofun (.inl ‹_›)
  split
  · exact iff_of_true nofun (by omega)
  split
  · exact iff_of_true nofun (by omega)
  split
  · rename_i hke
    exact iff_of_true nofun (.inr (.inr (.inr (.inr (.inr (.inl ⟨hke.1.1, hke.1.2, hke.2⟩))))))
  split
  · rename_i d hd
    exact iff_of_true nofun (.inr (.inr (.inr (.inr (.inr (.inr
      ⟨d, List.mem_of_find?_eq_some hd, (owns d).1 (List.find?_some hd)⟩))))))
  · rename_i hmem hnps hnswr hnke _ hnone
    refine iff_of_false (fun h => h rfl) ?_
    rintro (h | h | h | h | h | ⟨hk, h⟩ | ⟨d, hd, h⟩)
    · exact hmem h
    · exact hnps (.inl h)
    · exact hnps (.inr h)
    · exact hnswr (.inl h)
    · exact hnswr (.inr h)
    · exact hnke ⟨⟨hk, h.1⟩, h.2⟩
    · exact List.find?_eq_none.1 hnone d hd ((owns d).2 h)

/-- The devices' registers lie between the KE11-A's and the console addresses, 60_exceptions.md R299. -/
theorem deviceRegisters_range (d : Device) :
    ∀ x ∈ deviceRegisters d, 0o177340 ≤ x.toNat ∧ x.toNat ≤ 0o177566 := by
  cases d <;> simp [deviceRegisters]

/-- No device answers elsewhere. -/
theorem not_mem_deviceRegisters {a : Word} (h : a.toNat < 0o177340 ∨ 0o177570 ≤ a.toNat) (d : Device) :
    a &&& 0o177776 ∉ deviceRegisters d := by
  intro hd
  have hr := deviceRegisters_range d _ hd
  have he : (a &&& 0o177776).toNat = a.toNat / 2 * 2 := evenAddress_toNat a
  omega

/-- R21: the registers' console addresses are nobody's. -/
theorem existsAt_consoleRegister (c : Config) {a : Word} (h : 0o177700 ≤ a.toNat)
    (h' : a.toNat ≤ 0o177707) : existsAt c a = false := by
  have htop := memTop_le c
  rw [← Bool.not_eq_true, existsAt_iff]
  simp only [← BitVec.toNat_inj, BitVec.reduceToNat]
  rintro (_ | _ | _ | _ | _ | _ | ⟨d, -, hd⟩)
  case inr.inr.inr.inr.inr.inr => exact not_mem_deviceRegisters (.inr (by omega)) d hd
  all_goals omega

/-- R250: the KE11-A's addresses are nobody's where it is absent. -/
theorem existsAt_ke11a_absent {c : Config} {a : Word} (hk : c.hasKe11a = false) (h : 0o177300 ≤ a.toNat)
    (h' : a.toNat ≤ 0o177317) : existsAt c a = false := by
  have htop := memTop_le c
  rw [← Bool.not_eq_true, existsAt_iff, hk]
  simp only [← BitVec.toNat_inj, BitVec.reduceToNat]
  rintro (_ | _ | _ | _ | _ | ⟨_, _⟩ | ⟨d, -, hd⟩)
  case inr.inr.inr.inr.inr.inr => exact not_mem_deviceRegisters (.inl (by omega)) d hd
  case inr.inr.inr.inr.inr.inl => contradiction
  all_goals omega

/-! ### Accesses that fail -/

theorem accessFails_of_not_exists {c : Config} {a : Word} (w : Width) (h : existsAt c a = false) :
    accessFails w c a = true := by
  rw [← Bool.not_eq_false, accessFails_eq_false_iff, h]
  exact fun hf => nomatch hf.2

theorem accessFails_of_odd {a : Word} (c : Config) (h : a.toNat % 2 = 1) :
    accessFails .word c a = true := by
  rw [← Bool.not_eq_false, accessFails_eq_false_iff]
  intro hf
  have := hf.1 rfl
  omega

/-! ### What each place answers -/

section
variable {w : Width} {a : Word} {s : State}

theorem memRead_ps (h : accessFails w s.cfg a = false) (hp : place s.cfg a = .ps) :
    memRead w a s = .ok (narrow w a s.psw.toWord) (busStep s) := by
  simp [memRead, readNow, h, hp]

theorem memRead_swr (h : accessFails w s.cfg a = false) (hp : place s.cfg a = .swr) :
    memRead w a s =
      .ok (narrow w a (Config.switchDraw s.draws)) { busStep s with draws := s.draws + 1 } := by
  simp [memRead, readNow, h, hp]

theorem memRead_ke11a (h : accessFails w s.cfg a = false) (hp : place s.cfg a = .ke11a) :
    memRead w a s = .ok (narrow w a (keRead s.ke (evenAddress a))) (busStep s) := by
  simp [memRead, readNow, h, hp]

/-! ### What each place takes -/

variable {v : BitVec w.bits}

theorem memWrite_memory (h : accessFails w s.cfg a = false) (hp : place s.cfg a = .memory) :
    memWrite w a v s = .ok () { busStep s with mem := memStore w (busStep s).mem a v } := by
  rw [memWrite_eq h, State.store_memory (busStep s) w a v hp]

theorem memWrite_ps (h : accessFails w s.cfg a = false) (hp : place s.cfg a = .ps) :
    memWrite w a v s = .ok () ((busStep s).setPsw (pswStore w s.psw s.cfg.tWritableByStore a v)) := by
  rw [memWrite_eq h, State.store_ps (busStep s) w a v hp]; rfl

theorem memWrite_swr (h : accessFails w s.cfg a = false) (hp : place s.cfg a = .swr) :
    memWrite w a v s = .ok () (busStep s) := by
  rw [memWrite_eq h, State.store]; simp [hp]

theorem memWrite_ke11a (h : accessFails w s.cfg a = false) (hp : place s.cfg a = .ke11a) :
    memWrite w a v s = .ok () { busStep s with ke := keWrite w s.ke a v } := by
  rw [memWrite_eq h, State.store_ke11a (busStep s) w a v hp]; rfl

end

/-! ### Reads -/

/-- R30: PS as a number. -/
theorem Psw.toWord_toNat (p : Psw) :
    p.toWord.toNat =
      p.pri.toNat * 32 + p.t.toNat * 16 + p.n.toNat * 8 + p.z.toNat * 4 + p.v.toNat * 2 + p.c.toNat := by
  obtain ⟨pri, t, n, z, v, c⟩ := p
  revert pri
  cases t <;> cases n <;> cases z <;> cases v <;> cases c <;> decide

/-- PS's two byte addresses take byte accesses, and the first a word's. -/
theorem accessFails_ps {c : Config} {w : Width} {a : Word} (h : a = 0o177776 ∨ a = 0o177777)
    (hw : w = .word → a.toNat % 2 = 0) : accessFails w c a = false :=
  (accessFails_eq_false_iff w c a).2 ⟨hw, existsAt_of_place (place_ps c h) nofun⟩

theorem accessFails_swr {c : Config} {w : Width} {a : Word} (h : a = 0o177570 ∨ a = 0o177571)
    (hw : w = .word → a.toNat % 2 = 0) : accessFails w c a = false :=
  (accessFails_eq_false_iff w c a).2 ⟨hw, existsAt_of_place (place_swr c h) nofun⟩

theorem accessFails_memory {c : Config} {w : Width} {a : Word} (h : a.toNat < memTop c)
    (hw : w = .word → a.toNat % 2 = 0) : accessFails w c a = false :=
  (accessFails_eq_false_iff w c a).2
    ⟨hw, existsAt_of_place ((place_memory_iff c a).2 h) nofun⟩

/-- Settles O7: the accessible addresses are those where something answers, and each place answers in its own
way, changing at most the count of draws. -/
theorem memoryReads : Obligations.MemoryReads := by
  intro s a
  refine ⟨existsAt_iff s.cfg a, existsAt_consoleRegister s.cfg,
    fun h => memRead_eq_error (accessFails_of_odd s.cfg h),
    fun w h => memRead_eq_error (accessFails_of_not_exists w h), rfl, fun h => ?_, fun h he => ?_, ?_, ?_, ?_,
    Psw.toWord_toNat s.psw, ?_, fun w hx he => ?_⟩
  · exact memRead_memory (accessFails_memory h nofun) ((place_memory_iff _ _).2 h)
  · exact memRead_memory (accessFails_memory h fun _ => he) ((place_memory_iff _ _).2 h)
  · exact memRead_ps (accessFails_ps (.inl rfl) fun _ => rfl) (place_ps _ (.inl rfl))
  · rw [memRead_ps (w := .byte) (accessFails_ps (.inl rfl) nofun) (place_ps _ (.inl rfl))]
    exact congrArg (EStateM.Result.ok · _) (lowByte_wordOfBytes s.psw.toByte 0)
  · rw [memRead_ps (w := .byte) (accessFails_ps (.inr rfl) nofun) (place_ps _ (.inr rfl))]
    exact congrArg (EStateM.Result.ok · _) (highByte_wordOfBytes s.psw.toByte 0)
  · exact ⟨_, memRead_swr (accessFails_swr (.inl rfl) fun _ => rfl) (place_swr _ (.inl rfl))⟩
  · obtain ⟨v, t, h⟩ := memRead_of_accessible ((accessFails_eq_false_iff w s.cfg a).2 ⟨he, hx⟩)
    exact ⟨v, t.draws, h.trans (congrArg _ (memRead_ok h).2.1)⟩

/-! ### Writes -/

/-- R36: PS takes a byte at its even address. -/
theorem memWrite_byte_ps (b : Byte) (s : State) :
    memWrite .byte 0o177776 b s =
      .ok () ((busStep s).setPsw (s.psw.store s.cfg.tWritableByStore b)) := by
  rw [memWrite_ps (w := .byte) (accessFails_ps (.inl rfl) nofun) (place_ps _ (.inl rfl))]
  exact congrArg (fun b => EStateM.Result.ok () ((busStep s).setPsw (s.psw.store _ b)))
    (BitVec.setWidth_eq b)

/-- R36: PS takes the low byte of a word. -/
theorem memWrite_word_ps (v : Word) (s : State) :
    memWrite .word 0o177776 v s =
      .ok () ((busStep s).setPsw (s.psw.store s.cfg.tWritableByStore (lowByte v))) := by
  have low : v.setWidth 8 = lowByte v := by
    apply BitVec.eq_of_toNat_eq
    rw [BitVec.toNat_setWidth, lowByte, BitVec.extractLsb'_toNat, Nat.shiftRight_zero]
  rw [memWrite_ps (accessFails_ps (.inl rfl) fun _ => rfl) (place_ps _ (.inl rfl))]
  exact congrArg (fun b => EStateM.Result.ok () ((busStep s).setPsw (s.psw.store _ b))) low

/-- R31: PS's high byte takes nothing. -/
theorem memWrite_byte_psHigh (b : Byte) (s : State) :
    memWrite .byte 0o177777 b s = .ok () (busStep s) :=
  memWrite_ps (accessFails_ps (.inr rfl) nofun) (place_ps _ (.inr rfl))

/-- Settles O8: memory takes the bytes stored, PS what R36 says, and the switch register nothing. -/
theorem memoryWrites : Obligations.MemoryWrites := by
  intro s a hwf
  have hwf' : Memory.wf (busStep s).mem = true := busStep_wf hwf
  refine ⟨fun v h => memWrite_eq_error (accessFails_of_odd s.cfg h),
    fun w v h => memWrite_eq_error (accessFails_of_not_exists w h), fun v h => ?_, fun v h he => ?_,
    fun b => ⟨memWrite_byte_ps b s, fun hi => ?_, memWrite_byte_psHigh b s, ?_, ?_⟩, fun v => ?_⟩
  · exact ⟨_, memWrite_memory (accessFails_memory h nofun) ((place_memory_iff _ _).2 h),
      fun k => readCell_writeCell _ hwf' _ k v⟩
  · exact ⟨_, memWrite_memory (accessFails_memory h fun _ => he) ((place_memory_iff _ _).2 h),
      fun k => readCell_writeCells _ hwf' _ k v⟩
  · rw [memWrite_word_ps]
    exact congrArg (fun b => EStateM.Result.ok () ((busStep s).setPsw (s.psw.store _ b)))
      (lowByte_wordOfBytes b hi)
  · exact memWrite_swr (accessFails_swr (.inl rfl) nofun) (place_swr _ (.inl rfl))
  · exact memWrite_swr (accessFails_swr (.inr rfl) nofun) (place_swr _ (.inr rfl))
  · exact memWrite_swr (accessFails_swr (.inl rfl) fun _ => rfl) (place_swr _ (.inl rfl))

/-- Settles O10: the store to PS follows the instruction's own flags, of which it keeps at most T, that no flag
computation changes. -/
theorem moveToPsOverridesFlags : Obligations.MoveToPsOverridesFlags := by
  intro src dst s s1
  refine ⟨fun v h => ?_, fun v h => ?_⟩
  · obtain ⟨k, -⟩ := sourceAndDest_ok h
    rw [exec_mov_of_write h (memWrite_word_ps v _), ← k.psw, ← k.cfg]
    rfl
  · obtain ⟨k, -⟩ := sourceAndDest_ok h
    rw [exec_movb_of_write h (memWrite_byte_ps v _), ← k.psw, ← k.cfg]
    rfl

end Sys2Proof.Machine
end

section
/-! What was stored is read back (20_memory.md R63, R66, R70), bytes that no device stores to standing still between
the accesses; and the KE11-A's READ and WRITE columns (47_ke11a_multiply_divide.md R250 to R260). -/

namespace Sys2Proof.Machine

/-! ### Data and their bytes -/

/-- A datum is determined by its bytes. -/
theorem memDatum_congr {w : Width} {m m' : Memory} {a : Word}
    (h : ∀ k, a.toNat ≤ k → k < a.toNat + widthBytes w → readCell m k = readCell m' k) :
    memDatum w m a = memDatum w m' a := by
  cases w with
  | byte => exact h _ (Nat.le_refl _) (by simp only [widthBytes]; omega)
  | word =>
    have lo := h a.toNat (Nat.le_refl _) (by simp only [widthBytes]; omega)
    have hi := h (a.toNat + 1) (by omega) (by simp only [widthBytes]; omega)
    simp only [memDatum, readCells, lo, hi]

/-- The devices' steps leave a datum alone none of whose bytes they store to. -/
theorem memDatum_busStep {w : Width} {s : State} {a : Word}
    (h : ∀ k, a.toNat ≤ k → k < a.toNat + widthBytes w → undisturbed s k) :
    memDatum w (busStep s).mem a = memDatum w s.mem a :=
  memDatum_congr fun k hk hk' => busStep_readCell (h k hk hk')

/-- A datum that does not meet the one stored. -/
theorem memDatum_memStore_disjoint {w w' : Width} (m : Memory) {a b : Word} (v : BitVec w.bits)
    (h : b.toNat + widthBytes w' ≤ a.toNat ∨ a.toNat + widthBytes w ≤ b.toNat) :
    memDatum w' (memStore w m a v) b = memDatum w' m b :=
  memDatum_congr fun k _ _ => readCell_memStore_outside w m a v k (by omega)

/-- Reading a datum of memory that no device stores to. -/
theorem memRead_undisturbed {w : Width} {s : State} {a : Word} (hf : accessFails w s.cfg a = false)
    (hm : a.toNat < memTop s.cfg)
    (h : ∀ k, a.toNat ≤ k → k < a.toNat + widthBytes w → undisturbed s k) :
    memRead w a s = .ok (memDatum w s.mem a) (busStep s) := by
  rw [memRead_memory hf ((place_memory_iff _ _).2 hm), memDatum_busStep h]

/-- What a write to memory leaves. -/
theorem memWrite_memory_ok {w : Width} {s t : State} {a : Word} {v : BitVec w.bits}
    (hm : a.toNat < memTop s.cfg) (h : memWrite w a v s = .ok () t) :
    accessFails w s.cfg a = false ∧ t.cfg = s.cfg ∧ t.busEvents = s.busEvents.tail ∧
      t.mem = memStore w (busStep s).mem a v := by
  obtain ⟨hf, rfl⟩ := memWrite_ok h
  rw [State.store_memory (busStep s) w a v ((place_memory_iff _ _).2 hm)]
  exact ⟨hf, rfl, rfl, rfl⟩

/-! ### Reading back -/

section
variable {s t : State} {a : Word}

/-- R63: the datum written is the datum read. -/
theorem memRead_of_memWrite {w : Width} {v : BitVec w.bits} (hwf : Memory.wf s.mem = true)
    (hm : a.toNat < memTop s.cfg) (h : memWrite w a v s = .ok () t)
    (hu : ∀ k, a.toNat ≤ k → k < a.toNat + widthBytes w → undisturbed t k) :
    memRead w a t = .ok v (busStep t) := by
  obtain ⟨hf, hcfg, -, hmem⟩ := memWrite_memory_ok hm h
  rw [memRead_undisturbed (hcfg ▸ hf) (hcfg ▸ hm) hu, hmem, memDatum_memStore_same w _ (busStep_wf hwf)]

/-- R52: the bytes of a word written, the low one first. -/
theorem memRead_bytes_of_memWrite {v : Word} (hwf : Memory.wf s.mem = true)
    (hm : a.toNat < memTop s.cfg) (h : memWrite .word a v s = .ok () t) (hu : wordUndisturbed t a) :
    memRead .byte a t = .ok (lowByte v) (busStep t) ∧
      memRead .byte (a + 1) t = .ok (highByte v) (busStep t) := by
  obtain ⟨hf, hcfg, -, hmem⟩ := memWrite_memory_ok hm h
  have heven : a.toNat % 2 = 0 := ((accessFails_eq_false_iff _ _ _).1 hf).1 rfl
  have htop := memTop_even s.cfg
  have hle := memTop_le s.cfg
  have hnext : (a + 1).toNat = a.toNat + 1 := BitVec.toNat_add_of_lt (by simp; omega)
  have byte : ∀ b : Word, b.toNat < memTop s.cfg → undisturbed t b.toNat →
      memRead .byte b t = .ok (readCell (writeCells (busStep s).mem a.toNat v) b.toNat) (busStep t) := by
    intro b hb hu
    rw [← hcfg] at hb
    rw [memRead_undisturbed (w := .byte) (accessFails_memory hb nofun) hb fun k _ _ => ?_, hmem]
    · rfl
    · have : k = b.toNat := by simp only [widthBytes] at *; omega
      exact this ▸ hu
  have stored := readCell_writeCells _ (busStep_wf hwf) a.toNat (v := v)
  refine ⟨?_, ?_⟩
  · rw [byte a hm hu.1, stored, if_pos rfl]
  · rw [byte (a + 1) (by omega) (hnext ▸ hu.2), stored, hnext, if_neg (by omega), if_pos rfl]

/-- R66: a datum that does not meet the one written is read as it would have been. -/
theorem memRead_disjoint_of_memWrite {w w' : Width} {v : BitVec w.bits} {b : Word} {x : BitVec w'.bits}
    {u : State} (hm : a.toNat < memTop s.cfg) (h : memWrite w a v s = .ok () t)
    (hd : b.toNat + widthBytes w' ≤ a.toNat ∨ a.toNat + widthBytes w ≤ b.toNat)
    (hu : ∀ k, b.toNat ≤ k → k < b.toNat + widthBytes w' → undisturbed s k)
    (hr : memRead w' b s = .ok x u) (hb : b.toNat < memTop s.cfg) :
    memRead w' b t = .ok x (busStep t) := by
  obtain ⟨-, hcfg, hev, hmem⟩ := memWrite_memory_ok hm h
  obtain ⟨hf, -, hx⟩ := memRead_ok hr
  obtain ⟨rfl, -⟩ := hx ((place_memory_iff _ _).2 hb)
  rw [memRead_undisturbed (hcfg ▸ hf) (hcfg ▸ hb) fun k hk hk' =>
      undisturbed_of_suffix (hev ▸ List.tail_suffix _) hcfg (hu k hk hk'),
    hmem, memDatum_memStore_disjoint _ v hd]

end

/-- Settles O9: what was written is read back whole, by bytes and by a fetch, and nothing else has changed. -/
theorem storeThenLoad : Obligations.StoreThenLoad := by
  intro s t w a v hwf hm h
  refine ⟨fun hu => ?_, fun w' b hd hu x u hr hb => memRead_disjoint_of_memWrite hm h hd hu hr hb⟩
  have whole : memRead w a t = .ok v (busStep t) := memRead_of_memWrite hwf hm h hu
  refine ⟨whole, ?_, ?_⟩
  · rintro rfl
    exact memRead_bytes_of_memWrite hwf hm h
      ⟨hu _ (Nat.le_refl _) (by simp only [widthBytes]; omega),
        hu _ (by omega) (by simp only [widthBytes]; omega)⟩
  · rintro x rfl hx rfl
    rw [fetch_eq whole, BitVec.eq_of_toNat_eq hx]
    rfl

/-! ### The KE11-A -/

section
variable {s : State} (hk : s.cfg.hasKe11a = true)
include hk

theorem accessFails_ke11a {w : Width} {a : Word} (h : 0o177300 ≤ a.toNat) (h' : a.toNat ≤ 0o177317)
    (hw : w = .word → a.toNat % 2 = 0) : accessFails w s.cfg a = false :=
  (accessFails_eq_false_iff w s.cfg a).2 ⟨hw, existsAt_of_place (place_ke11a s.cfg hk h h') nofun⟩

/-- The READ column, for either width. -/
theorem memRead_ke11a_present {w : Width} {a : Word} (h : 0o177300 ≤ a.toNat) (h' : a.toNat ≤ 0o177317)
    (hw : w = .word → a.toNat % 2 = 0) :
    memRead w a s = .ok (narrow w a (keRead s.ke (evenAddress a))) (busStep s) :=
  memRead_ke11a (accessFails_ke11a hk h h' hw) (place_ke11a s.cfg hk h h')

/-- The WRITE column, for either width. -/
theorem memWrite_ke11a_present {w : Width} {a : Word} (v : BitVec w.bits) (h : 0o177300 ≤ a.toNat)
    (h' : a.toNat ≤ 0o177317) (hw : w = .word → a.toNat % 2 = 0) :
    memWrite w a v s = .ok () { busStep s with ke := keWrite w s.ke a v } :=
  memWrite_ke11a (accessFails_ke11a hk h h' hw) (place_ke11a s.cfg hk h h')

end

/-- Settles O11: absent, nothing answers at its addresses; present, each answers the READ column. -/
theorem keReads : Obligations.KeReads := by
  intro s
  refine ⟨fun w a hk h h' => ?_, fun hk => ?_⟩
  · have hf := accessFails_of_not_exists w (existsAt_ke11a_absent hk h h')
    exact ⟨memRead_eq_error hf, fun v => memWrite_eq_error hf⟩
  · have word : ∀ a : Word, 0o177300 ≤ a.toNat → a.toNat ≤ 0o177317 → a.toNat % 2 = 0 →
        memRead .word a s = .ok (keRead s.ke (evenAddress a)) (busStep s) :=
      fun a h h' he => memRead_ke11a_present hk h h' fun _ => he
    have byte : ∀ a : Word, 0o177300 ≤ a.toNat → a.toNat ≤ 0o177317 →
        memRead .byte a s = .ok (narrow .byte a (keRead s.ke (evenAddress a))) (busStep s) :=
      fun a h h' => memRead_ke11a_present hk h h' nofun
    refine ⟨word 0o177300 (by decide) (by decide) rfl, word 0o177302 (by decide) (by decide) rfl,
      word 0o177304 (by decide) (by decide) rfl, word 0o177306 (by decide) (by decide) rfl,
      word 0o177310 (by decide) (by decide) rfl, ?_, ?_,
      ⟨_, word 0o177312 (by decide) (by decide) rfl, lowByte_wordOfBytes s.ke.sc _⟩,
      word 0o177314 (by decide) (by decide) rfl, word 0o177316 (by decide) (by decide) rfl⟩
    · rw [byte 0o177310 (by decide) (by decide)]
      exact congrArg (EStateM.Result.ok · _) (lowByte_wordOfBytes s.ke.sc s.ke.sr)
    · rw [byte 0o177311 (by decide) (by decide)]
      exact congrArg (EStateM.Result.ok · _) (highByte_wordOfBytes s.ke.sc s.ke.sr)

/-- R254: bits 0, 6 and 7 of SR load, and the others stay. -/
theorem keLoadSr_bits (old new : Byte) :
    (keLoadSr old new).getLsbD 0 = new.getLsbD 0 ∧ (keLoadSr old new).getLsbD 6 = new.getLsbD 6 ∧
      (keLoadSr old new).getLsbD 7 = new.getLsbD 7 ∧
      (keLoadSr old new).extractLsb' 1 5 = old.extractLsb' 1 5 := by
  have bit : ∀ i, (keLoadSr old new).getLsbD i =
      ((new.getLsbD i && (0o301 : Byte).getLsbD i) || (old.getLsbD i && (0o076 : Byte).getLsbD i)) :=
    fun i => by rw [keLoadSr, BitVec.getLsbD_or, BitVec.getLsbD_and, BitVec.getLsbD_and]
  refine ⟨by rw [bit]; simp, by rw [bit]; simp, by rw [bit]; simp, ?_⟩
  apply BitVec.eq_of_getLsbD_eq
  intro i hi
  simp only [BitVec.getLsbD_extractLsb', hi, bit]
  interval_cases i <;> simp

/-- Settles O12: each register loads as the WRITE column says, and whatever an operation leaves is in the four
registers. -/
theorem keWrites : Obligations.KeWrites := by
  intro s v hk
  have word : ∀ a v : Word, 0o177300 ≤ a.toNat → a.toNat ≤ 0o177317 → a.toNat % 2 = 0 →
      memWrite .word a v s = .ok () { busStep s with ke := keWriteWord s.ke a v } :=
    fun a v h h' he => memWrite_ke11a_present (w := .word) hk v h h' fun _ => he
  have byte : ∀ (a : Word) (b : Byte), 0o177300 ≤ a.toNat → a.toNat ≤ 0o177317 →
      memWrite .byte a b s = .ok () { busStep s with ke := keWriteByte s.ke a b } :=
    fun a b h h' => memWrite_ke11a_present (w := .byte) hk b h h' nofun
  refine ⟨⟨_, word 0o177302 v (by decide) (by decide) rfl⟩, ?_, fun lo => ?_,
    fun b => ⟨_, byte 0o177310 b (by decide) (by decide)⟩,
    fun b => ⟨_, byte 0o177311 b (by decide) (by decide), keLoadSr_bits s.ke.sr b⟩, fun a ha => ⟨keWriteWord s.ke a v, ?_⟩⟩
  · rw [word 0o177304 v (by decide) (by decide) rfl, ← BitVec.msb_eq_getLsbD_last]
    exact ⟨_, rfl⟩
  · refine ⟨(Config.keStatus { s.ke with sc := lo }).extractLsb' 1 5, fun hi =>
      ⟨keLoadSr (Config.keStatus { s.ke with sc := lo }) hi, ?_, keLoadSr_bits _ hi⟩⟩
    have low : lowByte (hi ++ lo) = lo := lowByte_wordOfBytes lo hi
    have high : highByte (hi ++ lo) = hi := highByte_wordOfBytes lo hi
    have loads : keWriteWord s.ke 0o177310 (hi ++ lo) =
        keWithSr (keLoaded { s.ke with sc := lowByte (hi ++ lo) }) (highByte (hi ++ lo)) := rfl
    rw [word 0o177310 _ (by decide) (by decide) rfl, loads, low, high]
    rfl
  · have range : 0o177300 ≤ a.toNat ∧ a.toNat ≤ 0o177317 ∧ a.toNat % 2 = 0 := by
      simp only [List.mem_cons, List.not_mem_nil, or_false] at ha
      rcases ha with rfl | rfl | rfl | rfl | rfl <;> decide
    exact word a v range.1 range.2.1 range.2.2

end Sys2Proof.Machine
end

section
/-! Operand evaluation mode by mode (40_addressing_modes.md R112 to R123), the order of the two operands (R126,
R127), and what V, C and the branches after a compare say of two numbers (41_double_operand.md R153,
46_branches.md R248). -/

namespace Sys2Proof.Machine

/-! ### Sequences through a word read -/

theorem memRead_bind_apply (a : Word) (f : Word → Exec Loc) (s : State) :
    (memRead .word a >>= f) s = throughWord a s fun b t => f b t := by
  rw [throughWord]
  cases h : memRead .word a s with
  | ok b t => exact Exec.bind_eq h
  | error e t => exact Exec.bind_eq_error h

/-- R120, R121: the address is the word fetched through PC plus the register as the fetch leaves it. -/
theorem indexedAddress_bind_apply (r : Reg) (f : Word → Exec Loc) (s : State) :
    (indexedAddress r >>= f) s =
      throughWord s.regs.r7 s fun x t =>
        let u := t.setReg .r7 (s.regs.r7 + 2)
        f (x + u.regs.get r) u := by
  rw [throughWord]
  cases h : memRead .word s.regs.r7 s with
  | ok x t => exact Exec.bind_eq (indexedAddress_eq (fetch_eq h))
  | error e t =>
    obtain ⟨hf, rfl, rfl⟩ := memRead_error h
    exact Exec.bind_eq_error (Exec.bind_eq_error (fetch_eq_error hf))

/-- R123: a decrement checks the stack limit if the register is SP. -/
theorem decrementState_eq (r : Reg) (d : Word) (s : State) :
    decrementState r d s =
      { s with
        regs := s.regs.set r (s.regs.get r - d)
        stackOverflowPending :=
          s.stackOverflowPending || decide (r = .r6 ∧ (s.regs.get r - d).toNat < 0o400) } := by
  simp only [decrementState]
  have limit : s.regs.get r - d < stackLimit ↔ (s.regs.get r - d).toNat < 0o400 := Iff.rfl
  simp only [limit]
  split
  · rw [decide_eq_true ‹_›, Bool.or_true]; rfl
  · rw [decide_eq_false ‹_›, Bool.or_false]; rfl

/-- R113: the step is 1 for a byte through R0 to R5, and otherwise 2. -/
theorem stepSize_eq (w : Width) (r : Reg) :
    stepSize w r = if w = .byte ∧ r ≠ .r6 ∧ r ≠ .r7 then 1 else 2 := by
  cases w
  · cases r <;> rfl
  · rfl

/-- Settles O4: each mode is its step of the register, if it has one, and its reads of words. -/
theorem operandLocations : Obligations.OperandLocations := by
  intro w r s
  refine ⟨rfl, rfl, ?_, ?_, ?_, ?_, ?_, ?_⟩
  · rw [← stepSize_eq]
    exact Exec.bind_eq (autoIncrement_apply r _ s)
  · exact (Exec.bind_eq (autoIncrement_apply r 2 s)).trans (memRead_bind_apply _ _ _)
  · rw [← stepSize_eq]
    exact (Exec.bind_eq (autoDecrement_apply r _ s)).trans
      (congrArg (EStateM.Result.ok _) (decrementState_eq r _ s))
  · refine (Exec.bind_eq (autoDecrement_apply r 2 s)).trans ((memRead_bind_apply _ _ _).trans ?_)
    exact congrArg (throughWord _ · _) (decrementState_eq r 2 s)
  · exact indexedAddress_bind_apply r _ s
  · refine (indexedAddress_bind_apply r _ s).trans (congrArg (throughWord s.regs.r7 s) ?_)
    exact funext fun x => funext fun t => memRead_bind_apply _ _ _

/-! ### Source and destination -/

section
variable {w : Width} {src dst : Operand} {s : State}

/-- R127: the source register is read last if it can be. -/
theorem sourceIsLate_iff (c : Config) (src dst : Operand) :
    sourceIsLate c src dst = true ↔
      c.srcRegLate = true ∧ src.mode = .register ∧ dst.mode ≠ .register := by
  simp only [sourceIsLate, Bool.and_eq_true, decide_eq_true_eq, and_assoc]

theorem sourceAndDest_of_late (h : sourceIsLate s.cfg src dst = true) :
    sourceAndDest w src dst s =
      (loc w dst >>= fun d => readLoc w (.reg src.reg) >>= fun v => pure (v, d)) s := by
  simp only [sourceAndDest]
  rw [Exec.bind_eq (Exec.get_apply s)]
  simp only [h, if_true]

theorem sourceAndDest_of_early (h : sourceIsLate s.cfg src dst = false) :
    sourceAndDest w src dst s =
      (loc w src >>= fun l => readLoc w l >>= fun v => loc w dst >>= fun d => pure (v, d)) s := by
  simp only [sourceAndDest]
  rw [Exec.bind_eq (Exec.get_apply s)]
  simp only [h, Bool.false_eq_true, if_false]

/-- A source register and a destination whose mode steps the same register, or another: the source is the
register before or after the step. -/
theorem sourceAndDest_register {r : Reg} {l : Loc} {t : State} (hm : dst.mode ≠ .register)
    (h : loc w dst s = .ok l t) :
    sourceAndDest w ⟨.register, r⟩ dst s =
      .ok (regPart w ((if s.cfg.srcRegLate then t else s).regs.get r), l) t := by
  by_cases hl : s.cfg.srcRegLate = true
  · rw [if_pos hl]
    exact sourceAndDest_late ((sourceIsLate_iff _ _ _).2 ⟨hl, rfl, hm⟩) h
  · rw [if_neg hl]
    refine sourceAndDest_early ?_ rfl (readLoc_reg w r s) h
    rw [← Bool.not_eq_true, sourceIsLate_iff]
    exact fun h => hl h.1

/-- MOV to a word of memory puts the source there, and steps what its operands step. -/
theorem exec_mov_memory {v b : Word} {s1 : State} (hwf : Memory.wf s.mem = true)
    (h : sourceAndDest .word src dst s = .ok (v, .mem b) s1) (hb : wordInMemory s b) :
    ∃ t, exec (.mov src dst) s = .next t ∧ readCells t.mem b.toNat = v ∧ t.regs = s1.regs := by
  obtain ⟨k, -⟩ := sourceAndDest_ok h
  have hb : wordInMemory s1 b := ⟨hb.1, k.cfg ▸ hb.2⟩
  have hw := memWrite_memory (v := v) (s := s1.setPsw (flagged v false s1.psw.c s1.psw))
    (accessible_of_wordInMemory hb) ((place_memory_iff _ _).2 hb.2)
  exact ⟨_, exec_mov_of_write h hw, readCells_writeCells_same _ (busStep_wf (k.wf hwf)) _ v, rfl⟩

end

/-- Settles O5: the two orders as R126 and R127 write them, and the three MOVs by them. -/
theorem sourceReadOrder : Obligations.SourceReadOrder := by
  refine ⟨fun w src dst s => ⟨fun late => ?_, fun early => ?_⟩, fun r s hwf => ⟨?_, ?_, ?_⟩⟩
  · rw [← sourceIsLate_iff] at late
    rw [sourceAndDest_of_late late]
    exact ⟨fun e t h => Exec.bind_eq_error h, fun l s1 v t h hv => by
      rw [Exec.bind_eq h, Exec.bind_eq hv]; rfl⟩
  · rw [← sourceIsLate_iff, Bool.not_eq_true] at early
    rw [sourceAndDest_of_early early]
    refine ⟨fun e t h => Exec.bind_eq_error h, fun l s1 h => ?_⟩
    rw [Exec.bind_eq h]
    refine ⟨fun e t h => Exec.bind_eq_error h, fun v s2 hv => ?_⟩
    rw [Exec.bind_eq hv]
    exact ⟨fun e t h => Exec.bind_eq_error h, fun l' t h => by rw [Exec.bind_eq h]; rfl⟩
  · intro ha
    have hd : loc .word ⟨.autoInc, r⟩ s = .ok (.mem (s.regs.get r)) (s.setReg r (s.regs.get r + 2)) :=
      (operandLocations .word r s).2.2.1
    obtain ⟨t, hx, hv, hr⟩ := exec_mov_memory hwf (sourceAndDest_register (dst := ⟨.autoInc, r⟩) nofun hd) ha
    refine ⟨t, hx, hv.trans ?_, hr⟩
    split <;> simp
  · intro ha
    have hd : loc .word ⟨.autoDec, r⟩ s = .ok (.mem (s.regs.get r - 2)) (decrementState r 2 s) :=
      Exec.bind_eq (autoDecrement_apply r 2 s)
    obtain ⟨t, hx, hv, hr⟩ := exec_mov_memory hwf (sourceAndDest_register (dst := ⟨.autoDec, r⟩) nofun hd) ha
    refine ⟨t, hx, hv.trans ?_, hr.trans (decrementState_regs r 2 s)⟩
    split <;> simp
  · intro ha ha2
    have hs : loc .word ⟨.autoInc, r⟩ s = .ok (.mem (s.regs.get r)) (s.setReg r (s.regs.get r + 2)) :=
      Exec.bind_eq (autoIncrement_apply r 2 s)
    have hread : readLoc .word (.mem (s.regs.get r)) (s.setReg r (s.regs.get r + 2)) =
        .ok (readCells (busStep s).mem (s.regs.get r).toNat)
          ((busStep s).setReg r (s.regs.get r + 2)) :=
      memRead_memory (s := s.setReg r _) (accessible_of_wordInMemory ha) ((place_memory_iff _ _).2 ha.2)
    have hd := Exec.bind_eq (f := fun a => pure (Loc.mem a))
      (autoIncrement_apply r 2 ((busStep s).setReg r (s.regs.get r + 2)))
    have next : s.regs.get r + 2 + 2 = s.regs.get r + 4 := BitVec.add_assoc _ _ _
    simp only [State.setReg_regs, Regs.get_set_same] at hd
    have early : sourceIsLate s.cfg ⟨.autoInc, r⟩ ⟨.autoInc, r⟩ = false := by simp [sourceIsLate]
    obtain ⟨t, hx, hv, hr⟩ := exec_mov_memory hwf (sourceAndDest_early early hs hread hd) ha2
    refine ⟨t, hx, hv, hr.trans ?_⟩
    rw [State.setReg_regs, State.setReg_regs, busStep_regs, Regs.set_set, next]

end Sys2Proof.Machine
end

section
/-! What V, C and the branches say of two numbers (41_double_operand.md R153, 46_branches.md R248). V of a sum or a
difference is the signed overflow of `BitVec`'s library, and N differs from V exactly where the signed difference,
taken in the integers, is negative. -/

namespace Sys2Proof.Machine

/-! ### V as signed overflow -/

section
variable {n : Nat} (a b : BitVec n) (p : Psw)

theorem addFlags_v : (addFlags a b p).v = a.saddOverflow b := by
  rw [BitVec.saddOverflow_eq]; rfl

theorem subFlags_v : (subFlags a b p).v = a.ssubOverflow b := by
  show (a.msb != b.msb && (a - b).msb == b.msb) = _
  rw [BitVec.ssubOverflow_eq]
  cases a.msb <;> cases b.msb <;> cases (a - b).msb <;> rfl

end

section
variable (a b : Word) (p : Psw)

theorem saddOverflow_iff :
    a.saddOverflow b = true ↔ ¬ (-32768 ≤ a.toInt + b.toInt ∧ a.toInt + b.toInt < 32768) := by
  simp only [BitVec.saddOverflow, Bool.or_eq_true, decide_eq_true_eq]
  omega

theorem ssubOverflow_iff :
    a.ssubOverflow b = true ↔ ¬ (-32768 ≤ a.toInt - b.toInt ∧ a.toInt - b.toInt < 32768) := by
  simp only [BitVec.ssubOverflow, Bool.or_eq_true, decide_eq_true_eq]
  omega

theorem ofInt_toInt_add_toInt : BitVec.ofInt 16 (a.toInt + b.toInt) = a + b := by
  rw [BitVec.ofInt_add, BitVec.ofInt_toInt, BitVec.ofInt_toInt]

theorem ofInt_toInt_sub_toInt : BitVec.ofInt 16 (a.toInt - b.toInt) = a - b := by
  rw [eq_sub_iff_add_eq]
  calc BitVec.ofInt 16 (a.toInt - b.toInt) + b
      = BitVec.ofInt 16 (a.toInt - b.toInt) + BitVec.ofInt 16 b.toInt := by rw [BitVec.ofInt_toInt]
    _ = a := by rw [← BitVec.ofInt_add, sub_add_cancel, BitVec.ofInt_toInt]

/-! ### Comparing by the flags of a subtraction -/

/-- N is the sign of the difference cut to sixteen bits, which V corrects where it overflowed. -/
theorem subFlags_n_eq_v_iff : (subFlags a b p).n = (subFlags a b p).v ↔ b.toInt ≤ a.toInt := by
  have hn : (subFlags a b p).n = decide ((a - b).toInt < 0) := by
    rw [← BitVec.msb_eq_toInt]; rfl
  have ha := BitVec.toInt_lt (x := a)
  have ha' := BitVec.le_toInt a
  have hb := BitVec.toInt_lt (x := b)
  have hb' := BitVec.le_toInt b
  have hv := ssubOverflow_iff a b
  rw [Bool.eq_iff_iff, hn, subFlags_v, hv, decide_eq_true_eq, BitVec.toInt_sub, Int.bmod]
  simp only [Nat.reduceSub] at ha ha' hb hb'
  split <;> omega

theorem subFlags_z_iff : (subFlags a b p).z = true ↔ a = b := by
  show ((a - b) == 0#16) = true ↔ a = b
  rw [beq_iff_eq]
  exact sub_eq_zero

theorem subFlags_c_iff : (subFlags a b p).c = true ↔ a.toNat < b.toNat := decide_eq_true_iff

end

/-! ### Between registers -/

/-- Two registers as operands are read as they are. -/
theorem sourceAndDest_registers (w : Width) (i j : Reg) (s : State) :
    sourceAndDest w ⟨.register, i⟩ ⟨.register, j⟩ s = .ok (regPart w (s.regs.get i), .reg j) s :=
  sourceAndDest_early (by simp [sourceIsLate]) rfl (readLoc_reg w i s) rfl

theorem combine_registers (i j : Reg) (result : Word → Word → Word) (flags : Word → Word → Psw → Psw)
    (s : State) :
    combine .word ⟨.register, i⟩ ⟨.register, j⟩ result flags s =
      .ok () ((s.setPsw (flags (s.regs.get i) (s.regs.get j) s.psw)).setReg j
        (result (s.regs.get i) (s.regs.get j))) := by
  rw [combine_eq (sourceAndDest_registers .word i j s) (readLoc_reg .word j s), writeLoc_reg]
  rfl

/-- Settles O19: results and flags are those of the sum or difference taken in the integers. -/
theorem overflowAndCarryMeaning : Obligations.OverflowAndCarryMeaning := by
  intro i j s
  refine ⟨⟨_, perform_ok (combine_registers i j _ addFlags s), ?_, ?_, ?_, decide_eq_true_iff⟩,
    ⟨_, perform_ok (combine_registers i j _ (fun a b => subFlags b a) s), ?_, ?_, ?_, decide_eq_true_iff⟩,
    ⟨_, perform_ok (testBoth_eq (sourceAndDest_registers .word i j s) (readLoc_reg .word j s)), rfl, ?_,
      decide_eq_true_iff⟩⟩
  · rw [ofInt_toInt_add_toInt]; rfl
  · rw [ofNat_toNat_add_toNat]; exact Regs.get_set_same _ _ _
  · rw [← saddOverflow_iff, ← addFlags_v _ _ s.psw]; rfl
  · rw [ofInt_toInt_sub_toInt]; rfl
  · rw [ofInt_toNat_sub_toNat]; exact Regs.get_set_same _ _ _
  · rw [← ssubOverflow_iff, ← subFlags_v _ _ s.psw]; rfl
  · rw [← ssubOverflow_iff, ← subFlags_v _ _ s.psw]; rfl

/-! ### Branches after a compare -/

/-- Settles O45: CMP leaves the flags of `a - b`, and each branch's condition of them is its relation. -/
theorem branchesAfterCompare : Obligations.BranchesAfterCompare := by
  intro src dst s s1 s2 a b l off h1 h2
  refine ⟨_, perform_ok (testBoth_eq h1 h2), ?_⟩
  have order := subFlags_n_eq_v_iff a b s2.psw
  have equal := subFlags_z_iff a b s2.psw
  have below := subFlags_c_iff a b s2.psw
  have equalInt := equal.trans (BitVec.toInt_inj (x := a) (y := b)).symm
  have equalNat := equal.trans (BitVec.toNat_inj (x := a) (y := b)).symm
  obtain ⟨-, -, -, -, -, -, -, -, bne, beq, -⟩ := simpleBranches off
  obtain ⟨-, -, -, -, -, -, -, -, -, -, bge, blt, bgt, ble, bhi, blos, bcc, bcs, bhis, blo⟩ :=
    orderBranches off
  have goes : ∀ {i : Instr} {cond : Psw → Bool} {rel : Prop} [Decidable rel],
      branchesWhen i off cond → (cond (subFlags a b s2.psw) = true ↔ rel) →
      exec i (s2.setPsw (subFlags a b s2.psw)) =
        .next (if decide rel then jumpBy (s2.setPsw (subFlags a b s2.psw)) off
          else s2.setPsw (subFlags a b s2.psw)) := by
    intro i cond rel _ hi hc
    rw [hi, State.setPsw_psw, Bool.eq_iff_iff.2 (hc.trans decide_eq_true_iff.symm)]
  refine ⟨goes beq ?_, goes bne ?_, goes bge ?_, goes blt ?_, goes bgt ?_, goes ble ?_, goes bhi ?_,
    goes blos ?_, goes bhis ?_, goes blo ?_, goes bcc ?_, goes bcs ?_⟩ <;>
  simp only [decide_eq_true_eq, ← Bool.not_eq_true, Ne]
  case refine_1 | refine_2 => rw [equal]
  case refine_3 => exact order
  case refine_4 | refine_5 | refine_6 => simp only [order, equalInt]; omega
  case refine_10 | refine_12 => exact below
  all_goals simp only [below, equalNat]; omega

end Sys2Proof.Machine
end

section
/-! Frames and faults of the operand instructions (41_double_operand.md R140, 44_single_operand.md R190,
60_exceptions.md R278): each instruction is one of a few shapes, and what a shape leaves alone, or how it is
abandoned, is said once for the shape. -/

namespace Sys2Proof.Machine

/-! ### The shapes -/

/-- A computation of the condition codes leaves the rest of PS alone. -/
def KeepsPriorityAndTrace (flags : Psw → Psw) : Prop :=
  ∀ p, (flags p).pri = p.pri ∧ (flags p).t = p.t

/-- The single-operand instructions that write: CLR and CLRB do not read, the others are updates. -/
theorem singleWriting_shape {i : Instr} {w : Width} {dst : Operand} (h : singleWriting i = some (w, dst)) :
    ((i = .clr dst ∨ i = .clrb dst) ∧ ∀ s, exec i s = perform (clear w dst) s) ∨
      (¬ (i = .clr dst ∨ i = .clrb dst) ∧ ∃ result flags,
        (∀ s, exec i s = perform (update w dst result flags) s) ∧ ∀ d, KeepsPriorityAndTrace (flags d)) := by
  cases i <;> cases h
  case clr | clrb => exact .inl ⟨by simp, fun _ => rfl⟩
  all_goals exact .inr ⟨by simp, _, _, fun _ => rfl, fun _ _ => ⟨rfl, rfl⟩⟩

theorem singleTesting_shape {i : Instr} {w : Width} {dst : Operand} (h : singleTesting i = some (w, dst)) :
    ¬ (i = .clr dst ∨ i = .clrb dst) ∧ ∃ flags,
      (∀ s, exec i s = perform (testOne w dst flags) s) ∧ ∀ d, KeepsPriorityAndTrace (flags d) := by
  cases i <;> cases h
  all_goals exact ⟨by simp, _, fun _ => rfl, fun _ _ => ⟨rfl, rfl⟩⟩

/-- The double-operand instructions that write: MOV and MOVB do not read the destination, the others combine. -/
theorem doubleWriting_shape {i : Instr} {w : Width} {src dst : Operand}
    (h : doubleWriting i = some (w, src, dst)) :
    (i = .mov src dst ∧ w = .word) ∨ (i = .movb src dst ∧ w = .byte) ∨
      (¬ (i = .mov src dst ∨ i = .movb src dst) ∧ ∃ result flags,
        (∀ s, exec i s = perform (combine w src dst result flags) s) ∧
          ∀ a b, KeepsPriorityAndTrace (flags a b)) := by
  cases i <;> cases h
  case mov => exact .inl ⟨rfl, rfl⟩
  case movb => exact .inr (.inl ⟨rfl, rfl⟩)
  all_goals exact .inr (.inr ⟨by simp, _, _, fun _ => rfl, fun _ _ _ => ⟨rfl, rfl⟩⟩)

theorem doubleTesting_shape {i : Instr} {w : Width} {src dst : Operand}
    (h : doubleTesting i = some (w, src, dst)) :
    ¬ (i = .mov src dst ∨ i = .movb src dst) ∧ ∃ flags,
      (∀ s, exec i s = perform (testBoth w src dst flags) s) ∧
        ∀ a b, KeepsPriorityAndTrace (flags a b) := by
  cases i <;> cases h
  all_goals exact ⟨by simp, _, fun _ => rfl, fun _ _ _ => ⟨rfl, rfl⟩⟩

/-! ### Frames -/

/-- What evaluating the operands `ops` and reading them has left as it was. -/
structure Evaluated (ops : List Operand) (s t : State) : Prop where
  untouched : Untouched s t
  regs : sameRegsBut (ops.flatMap operandRegs) s t
  overflow : (ops.all fun o => !isPush o) = true → t.stackOverflowPending = s.stackOverflowPending

section
variable {w : Width} {s t : State}

theorem evaluated_of_loc {dst : Operand} {l : Loc} (h : loc w dst s = .ok l t) : Evaluated [dst] s t := by
  obtain ⟨k, hr⟩ := loc_ok h
  refine ⟨k, ?_, fun hp => loc_overflow h (by simpa using hp)⟩
  rwa [List.flatMap_singleton]

theorem evaluated_of_sourceAndDest {src dst : Operand} {v : BitVec w.bits} {l : Loc}
    (h : sourceAndDest w src dst s = .ok (v, l) t) : Evaluated [src, dst] s t := by
  obtain ⟨k, hr⟩ := sourceAndDest_ok h
  refine ⟨k, ?_, fun hp => ?_⟩
  · rwa [List.flatMap_cons, List.flatMap_singleton]
  · obtain ⟨hs, hd⟩ : isPush src = false ∧ isPush dst = false := by simpa using hp
    exact sourceAndDest_overflow h hs hd

theorem Evaluated.readLoc {ops : List Operand} {u : State} {l : Loc} {d : BitVec w.bits}
    (k : Evaluated ops s t) (h : readLoc w l t = .ok d u) : Evaluated ops s u := by
  obtain ⟨k2, r2⟩ := readLoc_ok h
  refine ⟨k.untouched.trans k2, fun r hr => ?_, fun hp => (readLoc_overflow h).trans (k.overflow hp)⟩
  rw [r2]; exact k.regs r hr

/-- An instruction that ends by setting the flags. -/
theorem Evaluated.testFrame {ops : List Operand} {flags : Psw → Psw} (k : Evaluated ops s t)
    (hf : KeepsPriorityAndTrace flags) : testFrame ops s (t.setPsw (flags t.psw)) := by
  obtain ⟨hpri, ht⟩ := hf t.psw
  rw [k.untouched.psw] at hpri ht
  exact ⟨k.regs, k.untouched.mem, ⟨k.untouched.psw ▸ hpri, k.untouched.psw ▸ ht⟩, k.untouched.control,
    k.untouched.ke, k.overflow⟩

/-- An instruction that ends by writing a register, the destination. -/
theorem Evaluated.writeFrame_reg {ops : List Operand} {dst : Operand} {flags : Psw → Psw} {i : Reg}
    (k : Evaluated ops s t) (hf : KeepsPriorityAndTrace flags) (hm : dst.mode = .register ∧ dst.reg = i)
    (v : Word) : writeFrame w ops dst (.reg i) s ((t.setPsw (flags t.psw)).setReg i v) := by
  obtain ⟨-, hmem, hpt, hcontrol, hke, hover⟩ := k.testFrame hf
  refine ⟨fun r hr => ?_, hcontrol, hover, hmem, hpt, hke⟩
  obtain ⟨hreg, rfl⟩ := hm
  rw [List.mem_append, not_or] at hr
  have hne : r ≠ dst.reg := by
    have := hr.2
    simpa [destRegs, hreg] using this
  exact (Regs.get_set_ne _ v hne).trans (k.regs r hr.1)

/-- An instruction that ends by writing through MemWrite. -/
theorem Evaluated.writeFrame_mem {ops : List Operand} {dst : Operand} {flags : Psw → Psw} {a : Word}
    {v : BitVec w.bits} {u : State} (k : Evaluated ops s t) (hf : KeepsPriorityAndTrace flags)
    (h : memWrite w a v (t.setPsw (flags t.psw)) = .ok () u) : writeFrame w ops dst (.mem a) s u := by
  obtain ⟨hpri, ht⟩ := hf t.psw
  rw [k.untouched.psw] at hpri ht
  obtain ⟨-, rfl⟩ := memWrite_ok h
  have kb : Untouched s (busStep t) := k.untouched.trans (.busStep t)
  have hplace : ∀ p, place s.cfg a ≠ p → place (busStep (t.setPsw (flags t.psw))).cfg a ≠ p :=
    fun p hp e => hp (by rw [← kb.cfg]; exact e)
  refine ⟨fun r hr => ?_, ⟨?_, ?_, ?_, ?_, ?_⟩, fun hp => ?_, fun hp k' hk hu => ?_, fun hp k' hu => ?_,
    fun hp => ?_, fun hp => ?_⟩
  · rw [State.store_regs]
    exact k.regs r fun hm => hr (List.mem_append_left _ hm)
  · rw [State.store_run]; exact kb.run
  · rw [State.store_tracePending]; exact kb.tracePending
  · rw [State.store_cfg]; exact kb.cfg
  · rw [State.store_busEvents]; exact kb.devices.1
  · rw [State.store_irq]; exact kb.devices.2
  · rw [State.store_stackOverflowPending]; exact k.overflow hp
  · rw [State.store_memory _ w a v (by rw [← hp, ← kb.cfg]; rfl)]
    exact (readCell_memStore_outside w _ a v k' hk).trans (kb.mem k' hu)
  · rw [State.store_mem_of_ne _ w a v (hplace _ hp)]
    exact kb.mem k' hu
  · have hpsw := State.store_psw_of_ne _ w a v (hplace _ hp)
    exact ⟨(congrArg Psw.pri hpsw).trans (k.untouched.psw ▸ hpri),
      (congrArg Psw.t hpsw).trans (k.untouched.psw ▸ ht)⟩
  · rw [State.store_ke_of_ne _ w a v (hplace _ hp)]
    exact kb.ke

/-- An instruction that ends by writing its destination. -/
theorem Evaluated.writeFrame {ops : List Operand} {dst : Operand} {flags : Psw → Psw} {l : Loc}
    {v : BitVec w.bits} {u : State} (k : Evaluated ops s t) (hf : KeepsPriorityAndTrace flags)
    (hl : ∀ i, l = .reg i → dst.mode = .register ∧ dst.reg = i)
    (h : writeLoc w l v (t.setPsw (flags t.psw)) = .ok () u) : writeFrame w ops dst l s u := by
  obtain ⟨i, rfl, rfl⟩ | ⟨a, rfl, h⟩ := writeLoc_ok h
  · exact k.writeFrame_reg hf (hl i rfl) _
  · exact k.writeFrame_mem hf h

end

theorem keepsPriorityAndTrace_flagged {n : Nat} (r : BitVec n) :
    KeepsPriorityAndTrace fun p => flagged r false p.c p :=
  fun _ => ⟨rfl, rfl⟩

section
variable {w : Width} {src dst : Operand} {s s1 : State} {l : Loc}

theorem update_frame {result : BitVec w.bits → Psw → BitVec w.bits} {flags : BitVec w.bits → Psw → Psw}
    (hf : ∀ d, KeepsPriorityAndTrace (flags d)) (h : loc w dst s = .ok l s1) (hl : reachable w s1 l) :
    ∃ t, perform (update w dst result flags) s = .next t ∧ writeFrame w [dst] dst l s t := by
  obtain ⟨d, s2, hd⟩ := readLoc_of_reachable hl
  obtain ⟨t, ht⟩ := writeLoc_of_reachable (result d s2.psw)
    (reachable_setPsw (flags d s2.psw) (reachable_of_readLoc hd))
  exact ⟨t, perform_ok ((update_eq h hd).trans ht),
    ((evaluated_of_loc h).readLoc hd).writeFrame (hf d) (fun i e => loc_reg (e ▸ h)) ht⟩

theorem clear_frame (h : loc w dst s = .ok l s1) (hl : reachable w s1 l) :
    ∃ t, perform (clear w dst) s = .next t ∧ writeFrame w [dst] dst l s t := by
  obtain ⟨t, ht⟩ := writeLoc_of_reachable 0 (reachable_setPsw (clrFlags s1.psw) hl)
  exact ⟨t, perform_ok ((clear_eq h).trans ht),
    (evaluated_of_loc h).writeFrame (flags := clrFlags) (fun _ => ⟨rfl, rfl⟩) (fun i e => loc_reg (e ▸ h)) ht⟩

theorem combine_frame {result : BitVec w.bits → BitVec w.bits → BitVec w.bits}
    {flags : BitVec w.bits → BitVec w.bits → Psw → Psw} {v : BitVec w.bits}
    (hf : ∀ a b, KeepsPriorityAndTrace (flags a b)) (h : sourceAndDest w src dst s = .ok (v, l) s1)
    (hl : reachable w s1 l) :
    ∃ t, perform (combine w src dst result flags) s = .next t ∧ writeFrame w [src, dst] dst l s t := by
  obtain ⟨d, s2, hd⟩ := readLoc_of_reachable hl
  obtain ⟨t, ht⟩ := writeLoc_of_reachable (result v d)
    (reachable_setPsw (flags v d s2.psw) (reachable_of_readLoc hd))
  exact ⟨t, perform_ok ((combine_eq h hd).trans ht),
    ((evaluated_of_sourceAndDest h).readLoc hd).writeFrame (hf v d)
      (fun i e => sourceAndDest_reg (e ▸ h)) ht⟩

theorem mov_frame {v : Word} (h : sourceAndDest .word src dst s = .ok (v, l) s1)
    (hl : reachable .word s1 l) :
    ∃ t, exec (.mov src dst) s = .next t ∧ writeFrame .word [src, dst] dst l s t := by
  obtain ⟨t, ht⟩ := writeLoc_of_reachable v (reachable_setPsw (flagged v false s1.psw.c s1.psw) hl)
  exact ⟨t, exec_mov_of_write h ht, (evaluated_of_sourceAndDest h).writeFrame
    (keepsPriorityAndTrace_flagged v) (fun i e => sourceAndDest_reg (e ▸ h)) ht⟩

theorem movb_frame {v : Byte} (h : sourceAndDest .byte src dst s = .ok (v, l) s1)
    (hl : reachable .byte s1 l) :
    ∃ t, exec (.movb src dst) s = .next t ∧ writeFrame .byte [src, dst] dst l s t := by
  cases l with
  | reg i => exact ⟨_, exec_movb_of_write h (writeLocMovb_reg i v _),
      (evaluated_of_sourceAndDest h).writeFrame_reg (keepsPriorityAndTrace_flagged v)
        (sourceAndDest_reg h) _⟩
  | mem a =>
    obtain ⟨t, ht⟩ := writeLoc_of_reachable v (reachable_setPsw (flagged v false s1.psw.c s1.psw) hl)
    exact ⟨t, exec_movb_of_write h ht, (evaluated_of_sourceAndDest h).writeFrame_mem
      (keepsPriorityAndTrace_flagged v) ht⟩

end

/-- Settles O29: the frame of each writing shape. -/
theorem writingFrame : Obligations.WritingFrame := by
  refine fun s => ⟨fun i w dst hi l s1 h hl => ?_, fun i w src dst hi v l s1 h hl => ?_⟩
  · obtain ⟨-, hx⟩ | ⟨-, result, flags, hx, hf⟩ := singleWriting_shape hi <;> rw [hx]
    · exact clear_frame h hl
    · exact update_frame hf h hl
  · obtain ⟨rfl, rfl⟩ | ⟨rfl, rfl⟩ | ⟨-, result, flags, hx, hf⟩ := doubleWriting_shape hi
    · exact mov_frame h hl
    · exact movb_frame h hl
    · rw [hx]; exact combine_frame hf h hl

/-- Settles O30: the frame of the two testing shapes, which end by setting the flags. -/
theorem testingFrame : Obligations.TestingFrame := by
  refine fun s => ⟨fun i w dst hi l s1 h hl => ?_, fun i w src dst hi v l s1 h hl => ?_⟩
  · obtain ⟨-, flags, hx, hf⟩ := singleTesting_shape hi
    obtain ⟨d, s2, hd⟩ := readLoc_of_reachable hl
    exact ⟨_, (hx s).trans (perform_ok (testOne_eq h hd)),
      ((evaluated_of_loc h).readLoc hd).testFrame (hf d)⟩
  · obtain ⟨-, flags, hx, hf⟩ := doubleTesting_shape hi
    obtain ⟨d, s2, hd⟩ := readLoc_of_reachable hl
    exact ⟨_, (hx s).trans (perform_ok (testBoth_eq h hd)),
      ((evaluated_of_sourceAndDest h).readLoc hd).testFrame (hf v d)⟩

/-! ### Faults -/

/-- Whether a single-operand instruction reads or not, it evaluates its operand first; CLR and CLRB then set the
flags and write, the others read. -/
theorem single_shape {i : Instr} {w : Width} {dst : Operand}
    (h : singleWriting i = some (w, dst) ∨ singleTesting i = some (w, dst)) :
    ((i = .clr dst ∨ i = .clrb dst) ∧ ∀ s, exec i s = perform (clear w dst) s) ∨
      (¬ (i = .clr dst ∨ i = .clrb dst) ∧ ∃ f : Loc → BitVec w.bits → Exec Unit,
        ∀ s, exec i s = perform (loc w dst >>= fun l => readLoc w l >>= f l) s) := by
  rcases h with h | h
  · obtain hclr | ⟨hne, result, flags, hx, -⟩ := singleWriting_shape h
    · exact .inl hclr
    · exact .inr ⟨hne, _, hx⟩
  · obtain ⟨hne, flags, hx, -⟩ := singleTesting_shape h
    exact .inr ⟨hne, _, hx⟩

/-- A double-operand instruction evaluates its operands first; MOV and MOVB then set the flags and write, the others
read. -/
theorem double_shape {i : Instr} {w : Width} {src dst : Operand}
    (h : doubleWriting i = some (w, src, dst) ∨ doubleTesting i = some (w, src, dst)) :
    ((i = .mov src dst ∨ i = .movb src dst) ∧ ∃ write : Loc → BitVec w.bits → Exec Unit,
        (∀ a v, write (.mem a) v = memWrite w a v) ∧
        ∀ s, exec i s = perform (sourceAndDest w src dst >>= fun x =>
          modifyPsw (logicFlags x.1) >>= fun _ => write x.2 x.1) s) ∨
      (¬ (i = .mov src dst ∨ i = .movb src dst) ∧
        ∃ f : BitVec w.bits × Loc → BitVec w.bits → Exec Unit,
        ∀ s, exec i s = perform (sourceAndDest w src dst >>= fun x => readLoc w x.2 >>= f x) s) := by
  rcases h with h | h
  · obtain ⟨rfl, rfl⟩ | ⟨rfl, rfl⟩ | ⟨hne, result, flags, hx, -⟩ := doubleWriting_shape h
    · exact .inl ⟨.inl rfl, writeLoc .word, fun _ _ => rfl, fun _ => rfl⟩
    · exact .inl ⟨.inr rfl, writeLocMovb, fun _ _ => rfl, fun _ => rfl⟩
    · exact .inr ⟨hne, _, hx⟩
  · obtain ⟨hne, flags, hx, -⟩ := doubleTesting_shape h
    exact .inr ⟨hne, _, hx⟩

section
variable {i : Instr} {w : Width} {src dst : Operand} {s s1 : State} {a : Word}

/-- A bus error in evaluating the operand is taken there. -/
theorem single_loc_fault {e : Exception} (h : singleWriting i = some (w, dst) ∨ singleTesting i = some (w, dst))
    (he : loc w dst s = .error e s1) : exec i s = .next (takeException e s1) := by
  obtain ⟨-, hx⟩ | ⟨-, f, hx⟩ := single_shape h <;> exact (hx s).trans (perform_error (Exec.bind_eq_error he))

/-- A bus error in evaluating and reading the operands is taken there. -/
theorem double_operands_fault {e : Exception}
    (h : doubleWriting i = some (w, src, dst) ∨ doubleTesting i = some (w, src, dst))
    (he : sourceAndDest w src dst s = .error e s1) : exec i s = .next (takeException e s1) := by
  obtain ⟨-, _, -, hx⟩ | ⟨-, f, hx⟩ := double_shape h <;>
    exact (hx s).trans (perform_error (Exec.bind_eq_error he))

/-- A bus error at the operand: of CLR and CLRB in the write, the flags set, of the others in the read. -/
theorem single_access_fault (h : singleWriting i = some (w, dst) ∨ singleTesting i = some (w, dst))
    (hl : loc w dst s = .ok (.mem a) s1) (hf : accessFails w s1.cfg a = true) :
    exec i s = .next (takeException (.busError a)
      (if i = .clr dst ∨ i = .clrb dst then (busStep s1).setPsw (clrFlags s1.psw) else busStep s1)) := by
  obtain ⟨hi, hx⟩ | ⟨hi, f, hx⟩ := single_shape h
  · rw [hx, if_pos hi]
    exact perform_error ((clear_eq hl).trans (memWrite_eq_error (s := s1.setPsw _) hf))
  · rw [hx, if_neg hi]
    exact perform_error ((Exec.bind_eq hl).trans (Exec.bind_eq_error (memRead_eq_error hf)))

/-- A bus error at the destination: of MOV and MOVB in the write, the flags set, of the others in the read. -/
theorem double_access_fault {v : BitVec w.bits}
    (h : doubleWriting i = some (w, src, dst) ∨ doubleTesting i = some (w, src, dst))
    (hl : sourceAndDest w src dst s = .ok (v, .mem a) s1) (hf : accessFails w s1.cfg a = true) :
    exec i s = .next (takeException (.busError a)
      (if i = .mov src dst ∨ i = .movb src dst then
        (busStep s1).setPsw (flagged v false s1.psw.c s1.psw) else busStep s1)) := by
  obtain ⟨hi, write, hw, hx⟩ | ⟨hi, f, hx⟩ := double_shape h
  · rw [hx, if_pos hi, ← logicFlags_flagged]
    refine perform_error ((Exec.bind_eq hl).trans ((Exec.bind_eq (modifyPsw_apply _ _)).trans ?_))
    rw [hw]
    exact memWrite_eq_error (s := s1.setPsw _) hf
  · rw [hx, if_neg hi]
    exact perform_error ((Exec.bind_eq hl).trans (Exec.bind_eq_error (memRead_eq_error hf)))

end

/-- Settles O31: each shape is abandoned at its first failing access, with what evaluation had done by then. -/
theorem operandFaults : Obligations.OperandFaults := by
  refine fun s => ⟨fun i w => ⟨fun dst e t hi h => ?_, fun src dst e t hi h => ?_,
    fun dst a s1 hi h hf => ?_, fun src dst v a s1 hi h hf => ?_⟩, fun r dst e t h => ?_⟩
  · obtain ⟨he, k, hr⟩ := loc_error h
    exact ⟨single_loc_fault hi h, he, k.psw, k.mem, hr⟩
  · obtain ⟨he, k, hr⟩ := sourceAndDest_error h
    exact ⟨double_operands_fault hi h, he, k.psw, k.mem, hr⟩
  · rw [single_access_fault hi h hf]
    split <;> rfl
  · rw [double_access_fault hi h hf]
    split <;> rfl
  · obtain ⟨he, k, hr⟩ := loc_error h
    have target : jumpTarget dst s = .error e t := Exec.bind_eq_error h
    exact ⟨perform_error (Exec.bind_eq_error target), perform_error (Exec.bind_eq_error target), he, k.psw,
      k.mem, hr⟩

end Sys2Proof.Machine
end

section
/-! JMP, JSR and a call's return (42_subroutine.md R160 to R162), the operate group (43_operate.md R171 to R177), and
the instructions that raise their exception and do nothing else (R175 to R179, 30_encoding.md R100, R101). -/

namespace Sys2Proof.Machine

/-! ### JMP and JSR -/

/-- Where JMP and JSR go: the address, or in mode 2 with `JMP_AUTOINC_POST` the register as the operand's
evaluation left it (R162). -/
def jumpAddress (c : Config) (dst : Operand) (a : Word) (s : State) : Word :=
  if c.jmpAutoincPost ∧ dst.mode = .autoInc then s.regs.get dst.reg else a

section
variable {dst : Operand} {s s1 : State} {a : Word} (h : loc .word dst s = .ok (.mem a) s1)
include h

theorem jumpTarget_ok : jumpTarget dst s = .ok (jumpAddress s.cfg dst a s1) s1 := by
  obtain ⟨k, -⟩ := loc_ok h
  rw [jumpTarget_eq h, jumpAddress, k.cfg]
  simp only [Bool.and_eq_true, decide_eq_true_eq]

theorem exec_jmp : exec (.jmp dst) s = .next (s1.setReg .r7 (jumpAddress s.cfg dst a s1)) :=
  perform_ok (Exec.bind_eq (jumpTarget_ok h))

/-- JSR, its push made. -/
theorem exec_jsr_of_push {r : Reg} {s3 : State} (hp : push (s1.regs.get r) s1 = .ok () s3) :
    exec (.jsr r dst) s =
      .next ((s3.setReg r s3.regs.r7).setReg .r7 (jumpAddress s.cfg dst a s1)) :=
  perform_ok ((Exec.bind_eq (jumpTarget_ok h)).trans ((Exec.bind_eq (getReg_apply r s1)).trans
    (Exec.bind_eq hp)))

/-- JSR, its push failing. -/
theorem exec_jsr_of_push_error {r : Reg} {e : Exception} {s3 : State}
    (hp : push (s1.regs.get r) s1 = .error e s3) :
    exec (.jsr r dst) s = .next (takeException e s3) :=
  perform_error ((Exec.bind_eq (jumpTarget_ok h)).trans ((Exec.bind_eq (getReg_apply r s1)).trans
    (Exec.bind_eq_error hp)))

end

/-- Settles O32: PC takes the target in the state the evaluation of the destination has left. -/
theorem jmpLoadsPc : Obligations.JmpLoadsPc := by
  refine fun dst => ⟨rfl, fun s a s1 h => ?_⟩
  obtain ⟨k, hr⟩ := loc_ok h
  refine ⟨_, exec_jmp h, rfl, fun r hr' => ?_, k.psw, k.mem, k.ke, k.control⟩
  rw [List.mem_cons, not_or] at hr'
  exact (Regs.get_set_ne _ _ hr'.1).trans (hr r hr'.2)

/-- A completed push leaves every register but SP. -/
theorem push_ok {v : Word} {s t : State} (h : push v s = .ok () t) :
    t.regs = s.regs.set .r6 (s.regs.r6 - 2) ∧ t.cfg = s.cfg := by
  rw [push_apply] at h
  obtain ⟨-, rfl⟩ := memWrite_ok h
  simp

/-- Settles O33: the push of the link register is the only access that can fail once the target is known. -/
theorem jsrLinksAndJumps : Obligations.JsrLinksAndJumps := by
  refine fun r dst => ⟨rfl, fun s a s1 h => ?_⟩
  intro target sp s2
  have hs2 : pushState s1 = s2 := pushState_eq s1
  refine ⟨fun hf => ?_, fun hf => ?_⟩
  · have hw : memWrite .word sp (s1.regs.get r) s2 = .ok () _ := memWrite_eq hf
    have hp := push_apply (s1.regs.get r) s1
    rw [hs2, hw] at hp
    refine ⟨_, hw, (exec_jsr_of_push h hp).trans ?_⟩
    have hpc := congrArg Regs.r7 (push_ok hp).1
    rw [hpc]
    rfl
  · refine exec_jsr_of_push_error h ?_
    rw [push_apply, hs2]
    exact memWrite_eq_error hf

/-- RTS where the stacked word lies in memory and no device stores to it. -/
theorem exec_rts_memory {r : Reg} {s : State} (h : wordInMemory s s.regs.r6)
    (hu : wordUndisturbed s s.regs.r6) :
    exec (.rts r) s =
      .next { busStep s with
        regs := ((s.regs.set .r7 (s.regs.get r)).set .r6 (s.regs.r6 + 2)).set r
          (readCells s.mem s.regs.r6.toNat) } := by
  have hread := memRead_memory (accessible_of_wordInMemory h) ((place_memory_iff _ _).2 h.2)
  have hstill : memDatum .word (busStep s).mem s.regs.r6 = readCells s.mem s.regs.r6.toNat :=
    busStep_readCells hu
  rw [hstill] at hread
  exact (rtsReturns r s).2.1 _ _ hread

/-- Settles O35: the pop finds the word JSR pushed, and RTS undoes what JSR did to SP, PC and the link register. -/
theorem callThenReturn : Obligations.CallThenReturn := by
  intro r dst s s1 h a hr hwf hloc hsp
  have hwf1 := (loc_ok hloc).1.wf hwf
  refine ⟨_, exec_jsr_of_push hloc (push_memory _ s1 hsp), fun hcfg h6 hlink hword hquiet => ?_⟩
  have sp : ∀ x y, (((pushedState (s1.regs.get r) s1).setReg r x).setReg .r7 y).regs.r6 = s1.regs.r6 - 2 :=
    fun x y => (Regs.get_set_ne _ _ (by decide)).trans (Regs.get_set_ne _ _ hr.symm)
  have link : ∀ x y, r ≠ .r7 →
      (((pushedState (s1.regs.get r) s1).setReg r x).setReg .r7 y).regs.get r = x :=
    fun x y h7 => (Regs.get_set_ne _ _ h7).trans (Regs.get_set_same _ _ _)
  have stacked : readCells (pushedState (s1.regs.get r) s1).mem (s1.regs.r6 - 2).toNat = s1.regs.get r :=
    readCells_writeCells_same _ (busStep_wf hwf1) _ _
  rw [sp] at h6 hword hquiet
  have hpop : readCells h.mem h.regs.r6.toNat = s1.regs.get r := by rw [h6]; exact hword.trans stacked
  have hmem : wordInMemory h h.regs.r6 := by
    refine h6 ▸ ⟨hsp.1, ?_⟩
    rw [hcfg]; exact hsp.2
  have up : s1.regs.r6 - 2 + 2 = s1.regs.r6 := BitVec.sub_add_cancel _ _
  refine ⟨_, exec_rts_memory hmem (h6 ▸ hquiet), ?_, ?_, ?_, fun j hj => ?_, fun k hk => busStep_readCell hk, rfl⟩
  · rw [hpop]
    by_cases h7 : r = .r7
    · subst h7; rfl
    · have target : h.regs.get r = s1.regs.r7 := (hlink.resolve_left h7).trans (link _ _ h7)
      refine (Regs.get_set_ne _ _ (Ne.symm h7)).trans ((Regs.get_set_ne _ _ (by decide)).trans ?_)
      rw [Regs.get_set_same, target]
  · refine (Regs.get_set_ne _ _ hr.symm).trans ((Regs.get_set_same _ _ _).trans ?_)
    rw [h6, up]
  · rw [hpop]; exact Regs.get_set_same _ _ _
  · simp only [List.mem_cons, List.not_mem_nil, or_false, not_or] at hj
    exact (Regs.get_set_ne _ _ hj.1).trans
      ((Regs.get_set_ne _ _ hj.2.1).trans (Regs.get_set_ne _ _ hj.2.2))

/-! ### The operate group -/

section
variable {s s1 s2 : State} {pc : Word}

/-- RTI after its first pop, which has loaded PC. -/
theorem returnFromTrap_of_read (h : memRead .word s.regs.r6 s = .ok pc s1) :
    returnFromTrap s =
      (pop >>= fun ps => modifyPsw fun _ => Psw.ofWord ps)
        { s1 with regs := (s.regs.set .r7 pc).set .r6 (s.regs.r6 + 2) } := by
  have swap : (s1.setReg .r6 (s.regs.r6 + 2)).setReg .r7 pc =
      { s1 with regs := (s.regs.set .r7 pc).set .r6 (s.regs.r6 + 2) } := by
    rw [← (memRead_untouched h).2]; rfl
  rw [returnFromTrap, Exec.bind_eq (pop_eq h), Exec.bind_eq (setReg_apply _ _ _), swap]

/-- RTI, its two pops answering. -/
theorem exec_rti_of_reads {ps : Word} (h : memRead .word s.regs.r6 s = .ok pc s1)
    (h' : memRead .word (s.regs.r6 + 2) s1 = .ok ps s2) :
    exec .rti s =
      .next { s2 with
        regs := (s.regs.set .r7 pc).set .r6 (s.regs.r6 + 4), psw := Psw.ofWord ps } := by
  have next : s.regs.r6 + 2 + 2 = s.regs.r6 + 4 := BitVec.add_assoc _ _ _
  have hp := pop_eq (s := { s1 with regs := (s.regs.set .r7 pc).set .r6 (s.regs.r6 + 2) })
    (memRead_withRegs _ h')
  refine perform_ok (u := ()) ?_
  rw [returnFromTrap_of_read h, Exec.bind_eq hp, modifyPsw_apply, Regs.set_r6_r6, next]
  simp only [State.setReg, State.setPsw, Regs.set_set]

end

/-- Settles O39: the second pop reads as it would have with the registers of before, or fails as it would have. -/
theorem rtiRestores : Obligations.RtiRestores := by
  refine fun s => ⟨rfl, fun pc s1 ps s2 h h' => ?_, fun hf => ?_, fun pc s1 h hf => ?_⟩
  · rw [exec_rti_of_reads h h', Psw.ofWord_eq]
  · exact perform_error (Exec.bind_eq_error (pop_eq_error hf))
  · have hcfg := (memRead_untouched h).1.cfg
    rw [← hcfg] at hf
    exact perform_error ((returnFromTrap_of_read h).trans (Exec.bind_eq_error
      (pop_eq_error (s := { s1 with regs := (s.regs.set .r7 pc).set .r6 (s.regs.r6 + 2) }) hf)))

/-- Settles O37: each is one change of the run state. -/
theorem haltAndWait : Obligations.HaltAndWait := fun _ => ⟨rfl, rfl, rfl, rfl⟩

/-- Settles O38: of the state only the requests, and the KE11-A if present, are the devices'. -/
theorem resetInitialisesDevices : Obligations.ResetInitialisesDevices := by
  refine fun s => ⟨rfl, s.resetDevices, rfl, rfl, rfl, rfl, rfl, rfl, rfl, rfl, rfl, rfl, rfl, fun h => ?_⟩
  simp only [State.resetDevices, h, Bool.false_eq_true, if_false]

/-! ### Instructions that trap -/

/-- R271: every vector of an exception is a word of memory of its own, followed by another. -/
theorem Exception.vector_range (e : Exception) :
    isOdd e.vector = false ∧ e.vector.toNat + 4 ≤ 0o020000 := by
  cases e <;> simp only [Exception.vector] <;> decide

/-- Taking an exception with room on the stack. -/
theorem takeException_memory (e : Exception) {s : State} (h : stackReady s) :
    takeException e s = entryState e.vector { s with tracePending := false } :=
  trapEntry_memory (s := { s with tracePending := false }) h e.vector_range.1
    (e.vector_range.2.trans (memTop_pos s.cfg))

/-- An instruction that raises an exception enters its vector and does nothing else. -/
theorem trapsThrough_of_raise {i : Instr} {e : Exception} (hi : ∀ s, exec i s = perform (raise e) s) :
    trapsThrough e.vector i := by
  intro s hwf hs
  refine ⟨_, (hi s).trans (perform_error (raise_apply e s)), ?_⟩
  rw [takeException_memory e hs]
  exact ⟨entryState_entered e.vector (s := { s with tracePending := false }) hwf hs, rfl,
    entryState_overflow e.vector (s := { s with tracePending := false }) hs⟩

/-- Settles O36: the two illegal rows raise the illegal jump's exception. -/
theorem illegalJumpsTrap : Obligations.IllegalJumpsTrap := fun r d =>
  ⟨(decodeOfEncode (.jmpIllegal d) [] rfl).1, (decodeOfEncode (.jsrIllegal r d) [] rfl).1,
    trapsThrough_of_raise (e := .illegalJump) fun _ => rfl,
    trapsThrough_of_raise (e := .illegalJump) fun _ => rfl⟩

/-- Settles O40: each raises its own exception. -/
theorem trapInstructions : Obligations.TrapInstructions :=
  ⟨rfl, rfl,
    fun x => ⟨(decodeOfEncode (.emt x) [] rfl).1, (decodeOfEncode (.trap x) [] rfl).1⟩,
    trapsThrough_of_raise (e := .breakpoint) fun _ => rfl,
    trapsThrough_of_raise (e := .ioTrap) fun _ => rfl,
    fun x => trapsThrough_of_raise (e := .emulatorTrap (encode (.emt x))) fun _ => rfl,
    fun x => trapsThrough_of_raise (e := .trapInstr (encode (.trap x))) fun _ => rfl⟩

/-- R280: an unlisted row raises the reserved instruction's exception. -/
theorem exec_unlisted {i : Instr} (h : isUnlisted i = true) (s : State) :
    exec i s = perform (raise (.reservedInstruction (encode i))) s := by
  cases i
  case unlisted_000006_000007 | unlisted_000010_000017 | unlisted_000020_000037
      | unlisted_000040_000077 | unlisted_000210_000217 | unlisted_000220_000237
      | unlisted_006400_006777 | unlisted_007000_007777 | unlisted_070000_077777
      | unlisted_106400_106777 | unlisted_107000_107777 | unlisted_170000_177777 => rfl
  all_goals cases h

/-- Settles O41: the decoder's unlisted rows are R100's ranges, and each raises the same exception. -/
theorem unlistedCodesTrap : Obligations.UnlistedCodesTrap :=
  ⟨isUnlisted_decodeWord, fun i h =>
    trapsThrough_of_raise (e := .reservedInstruction (encode i)) (exec_unlisted h)⟩

end Sys2Proof.Machine
end

section
/-! PROOFS. Taking an exception and returning from it (60_exceptions.md R276, R282, R288; O46 to O48). -/

namespace Sys2Proof.Machine

/-- Settles O46: with stack and vector in memory the entry ends in `entryState`. -/
theorem trapEntryEnters : Obligations.TrapEntryEnters := by
  intro vec s hwf hs hv ht
  rw [trapEntry_memory hs hv ht]
  exact ⟨entryState_entered vec hwf hs, rfl, entryState_overflow vec hs⟩

/-! ### Back from an entry -/

/-- Reading a word of memory, as the devices' steps just before have left it. -/
theorem memRead_wordInMemory {s : State} {a : Word} (h : wordInMemory s a) :
    memRead .word a s = .ok (readCells (busStep s).mem a.toNat) (busStep s) :=
  memRead_memory (accessible_of_wordInMemory h) ((place_memory_iff _ _).2 h.2)

/-- Reading a word of memory that no device stores to. -/
theorem memRead_word_undisturbed {s : State} {a : Word} (h : wordInMemory s a)
    (hu : wordUndisturbed s a) : memRead .word a s = .ok (readCells s.mem a.toNat) (busStep s) := by
  rw [memRead_wordInMemory h]
  exact congrArg (EStateM.Result.ok · _) (busStep_readCells hu)

/-- Settles O47: the two pops read the words the entry pushed, which nothing has changed since. -/
theorem rtiUndoesEntry : Obligations.RtiUndoesEntry := by
  intro e s h hwf hs hcfg hsp hstack
  obtain ⟨n2, n4⟩ := stackReady_toNat hs
  obtain ⟨in2, in4⟩ := stackReady_words hs
  have room := hs.2.1
  rw [takeException_memory e hs] at hsp hstack
  obtain ⟨sp, link, status, -⟩ :=
    entryState_entered e.vector (s := { s with tracePending := false }) hwf hs
  have up2 : h.regs.r6 + 2 = s.regs.r6 - 2 := by rw [hsp, sp]; bv_omega
  have up4 : h.regs.r6 + 4 = s.regs.r6 := by rw [hsp, sp]; exact BitVec.sub_add_cancel _ _
  have stacked : ∀ a : Word, (s.regs.r6 - 4).toNat ≤ a.toNat → a.toNat + 1 < s.regs.r6.toNat →
      wordUndisturbed s a ∧ wordUndisturbed h a ∧
        readCells h.mem a.toNat = readCells
          (entryState e.vector { s with tracePending := false }).mem a.toNat := by
    intro a lo hi
    obtain ⟨s0, h0, c0⟩ := hstack a.toNat lo (by omega)
    obtain ⟨s1, h1, c1⟩ := hstack (a.toNat + 1) (by omega) hi
    exact ⟨⟨s0, s1⟩, ⟨h0, h1⟩, by simp only [readCells, c0, c1]⟩
  obtain ⟨us4, uh4, c4⟩ := stacked (s.regs.r6 - 4) (Nat.le_refl _) (by omega)
  obtain ⟨us2, uh2, c2⟩ := stacked (s.regs.r6 - 2) (by omega) (by omega)
  have popPc : memRead .word h.regs.r6 h = .ok s.regs.r7 (busStep h) := by
    rw [hsp.trans sp, memRead_word_undisturbed ⟨in4.1, hcfg ▸ in4.2⟩ uh4, c4, link us4]
  have popPs : memRead .word (h.regs.r6 + 2) (busStep h) = .ok s.psw.toWord (busStep (busStep h)) := by
    rw [up2, memRead_word_undisturbed (s := busStep h) ⟨in2.1, hcfg ▸ in2.2⟩
      (wordUndisturbed_of_suffix (List.tail_suffix _) rfl uh2), busStep_readCells uh2, c2, status us2]
  rw [exec_rti_of_reads popPc popPs, up4, Psw.ofWord_toWord]

/-! ### A bus error inside an entry -/

section
variable {vec v : Word} {s t : State} {e : Exception}

theorem push_eq (h : accessFails .word s.cfg (s.regs.r6 - 2) = false) :
    push v s = .ok () ((busStep (pushState s)).store .word (s.regs.r6 - 2) v) := by
  rw [push_apply, memWrite_eq (by rw [pushState_cfg]; exact h)]

theorem push_eq_error (h : accessFails .word s.cfg (s.regs.r6 - 2) = true) :
    push v s = .error (.busError (s.regs.r6 - 2)) (busStep (pushState s)) := by
  rw [push_apply, memWrite_eq_error (by rw [pushState_cfg]; exact h)]

/-- R282: an entry that fails halts in the state its failing access left. -/
theorem trapEntry_error (h : entryAccesses vec s = .error e t) :
    trapEntry vec s = { t with run := .halted } := by
  unfold trapEntry; rw [h]

theorem entryAccesses_error_of_push (h : push s.psw.toWord s = .error e t) :
    entryAccesses vec s = .error e t := by
  unfold entryAccesses; exact Exec.bind_eq_error h

theorem entryAccesses_error_of_second_push {s1 : State} (h : push s.psw.toWord s = .ok () s1)
    (h' : push s.regs.r7 s1 = .error e t) : entryAccesses vec s = .error e t := by
  unfold entryAccesses; rw [Exec.bind_eq h]; exact Exec.bind_eq_error h'

theorem step_halted (h : s.run = .halted) : step s = .fault .halted := by
  unfold step; rw [h]

end

/-- Settles O48: the entry stops at the push that fails, after SP was decreased for it. -/
theorem doubleBusErrorHalts : Obligations.DoubleBusErrorHalts := by
  refine fun vec s => ⟨fun hf => ?_, fun hok hf => ?_⟩
  · rw [trapEntry_error (entryAccesses_error_of_push (push_eq_error hf))]
    refine ⟨rfl, pushState_regs s, fun k hk => ?_, pushState_psw s, step_halted rfl⟩
    have same : undisturbed (pushState s) k :=
      undisturbed_of_suffix (by rw [pushState_busEvents]) (pushState_cfg s) hk
    exact (busStep_readCell same).trans (congrArg (readCell · k) (pushState_mem s))
  · obtain ⟨s1, h1⟩ : ∃ t, t = (busStep (pushState s)).store .word (s.regs.r6 - 2) s.psw.toWord :=
      ⟨_, rfl⟩
    have regs : s1.regs = s.regs.set .r6 (s.regs.r6 - 2) := by
      rw [h1, State.store_regs, busStep_regs, pushState_regs]
    have cfg : s1.cfg = s.cfg := by rw [h1, State.store_cfg, busStep_cfg, pushState_cfg]
    have sp : s1.regs.r6 - 2 = s.regs.r6 - 4 := by
      rw [regs, Regs.set_r6_r6, BitVec.sub_sub]; rfl
    have first : push s.psw.toWord s = .ok () s1 := h1 ▸ push_eq hok
    rw [trapEntry_error (entryAccesses_error_of_second_push first
      (push_eq_error (by rw [cfg, sp]; exact hf)))]
    refine ⟨rfl, ?_, step_halted rfl⟩
    show (pushState s1).regs = _
    rw [pushState_regs, sp, regs, Regs.set_set]

end Sys2Proof.Machine
end

section
/-! PROOFS. The end of an instruction: stack overflow, trace and the interrupt check (60_exceptions.md R283 to R294;
O49 to O54). -/

namespace Sys2Proof.Machine

/-! ### The parts of an instruction's end -/

/-- What follows the trace and the overflow entry at an instruction's end (R287). -/
def interruptCheck (s : State) : State :=
  consumePending (serveOverflow (grantInterrupt (busStep s)))

theorem endOfInstruction_eq (s : State) :
    endOfInstruction s = interruptCheck (serveOverflow (serveTrace s)) := rfl

section
variable {s t : State} {vec : Word}

theorem interruptCheck_idle (h : s.stackOverflowPending = false) (hb : busIdle s) :
    interruptCheck s = { s with tracePending := false } := by
  rw [interruptCheck, busStep_idle hb.1, grantInterrupt_idle hb.2, serveOverflow_off h, consumePending, ← h]

theorem serveTrace_halted (h : s.run = .halted) : serveTrace s = s := by
  unfold serveTrace; rw [h]; simp

/-- The trace entry with room on the stack. -/
theorem serveTrace_memory (h : s.tracePending = true) (hr : s.run ≠ .halted) (hs : stackReady s) :
    serveTrace s = entryState traceVector { s with tracePending := false, run := .running } := by
  rw [serveTrace_on h hr, enter_memory (s := { s with tracePending := false }) hs rfl
    (Nat.le_trans (by decide) (memTop_pos s.cfg))]

/-- The overflow entry with room on the stack. -/
theorem serveOverflow_memory (h : s.stackOverflowPending = true) (hr : s.run ≠ .halted)
    (hs : stackReady s) :
    serveOverflow s =
      { entryState busErrorVector { s with run := .running } with stackOverflowPending := false } := by
  rw [serveOverflow_on h hr, enter_memory hs rfl (Nat.le_trans (by decide) (memTop_pos s.cfg))]

/-- An entry whose pushes stay above the stack limit sets no flag. -/
theorem entryState_no_overflow (hs : stackReady s) (h : s.stackOverflowPending = false)
    (room : 0o404 ≤ s.regs.r6.toNat) : (entryState vec s).stackOverflowPending = false := by
  rw [entryState_overflow vec hs, h, decide_eq_false (by omega), Bool.or_false]

theorem withRunning_eq (h : s.run = .running) : { s with run := .running } = s := by
  rw [← h]

theorem enteredThrough_devicesOnly (h : enteredThrough vec s t) : devicesOnly s t := by
  obtain ⟨-, -, -, -, -, -, -, -, -, -, -, only⟩ := h
  exact only

end

/-! ### The stack limit -/

/-- Settles O49: the check comes before the push's access, and its entry clears the flag it may set again. -/
theorem stackOverflowTaken : Obligations.StackOverflowTaken := by
  refine fun s hwf => ⟨fun v t hp => ⟨?_, ?_, fun hm => ?_⟩, fun ho ht hr hb hs => ?_⟩
  · obtain ⟨-, rfl⟩ := memWrite_ok (push_apply v s ▸ hp)
    rw [State.store_regs, busStep_regs, pushState_regs]
  · obtain ⟨-, rfl⟩ := memWrite_ok (push_apply v s ▸ hp)
    rw [State.store_stackOverflowPending, busStep_stackOverflowPending, pushState_eq]
  · cases (push_memory v s hm).symm.trans hp
    exact readCells_writeCells_same _ (busStep_wf hwf) _ _
  · have entered := entryState_entered busErrorVector hwf hs
    have idle := busIdle_of_devicesOnly hb (enteredThrough_devicesOnly entered)
    rw [endOfInstruction_eq, serveTrace_off ht, serveOverflow_memory ho (by simp [hr]) hs,
      withRunning_eq hr, interruptCheck_idle
        (s := { entryState busErrorVector s with stackOverflowPending := false }) rfl idle]
    exact ⟨entered, rfl⟩

/-! ### The trace trap -/

theorem step_of_fetch {s u v : State} {w : Word} (hr : s.run = .running)
    (hf : fetch { s with tracePending := s.psw.t } = .ok w u) (hx : exec (decodeWord w) u = .next v) :
    step s = .next (endOfInstruction v) := by
  have hf' : fetch (sampleTrace s) = .ok w u := hf
  unfold step runInstruction
  simp only [hr, hf', hx, finish]

/-- A trace that is not pending when an instruction starts is not pending after it. -/
theorem closed_traceClear : Closed (fun s => s.tracePending = false) where
  reg _ _ _ h := h
  psw _ _ h := h
  draw _ _ h := h
  overflow _ _ h := h
  trace _ _ := rfl
  devices _ h := h
  run _ _ h := h
  bus _ h := h
  store s w a v _ h := (State.store_tracePending (s := s) (w := w) (a := a) (v := v)).trans h

/-- Settles O50: T is sampled before the instruction, which can clear the pending trace but not set it. -/
theorem traceTakenAfterInstruction : Obligations.TraceTakenAfterInstruction := by
  intro s u v w hr hf hx hwf ho hb
  have hstep := step_of_fetch hr hf hx
  have clear : s.psw.t = false → v.tracePending = false := fun h =>
    exec_keeps closed_traceClear hx ((keeps_fetch closed_traceClear).ok hf h)
  refine ⟨fun ht hrun hs room => ⟨?_, _, hstep, ?_⟩, fun hrun => ?_, fun h => ?_⟩
  · cases h : s.psw.t with
    | true => rfl
    | false => exact absurd (ht.symm.trans (clear h)) (by decide)
  · have entered := entryState_entered traceVector
      (s := { v with tracePending := false, run := .running }) hwf hs
    have idle := busIdle_of_devicesOnly (s := { v with tracePending := false, run := .running }) hb
      (enteredThrough_devicesOnly entered)
    have flag := entryState_no_overflow (vec := traceVector)
      (s := { v with tracePending := false, run := .running }) hs ho room
    rw [endOfInstruction_eq, serveTrace_memory ht hrun hs, serveOverflow_off flag,
      interruptCheck_idle flag idle]
    exact ⟨entered, rfl⟩
  · rw [hstep, endOfInstruction_eq, serveTrace_halted hrun, serveOverflow_off ho,
      interruptCheck_idle ho hb]
  · rw [hstep, endOfInstruction_quiet (clear h) ho hb]

/-! ### Trace before stack overflow -/

/-- A word that an entry's two pushes do not meet, no device acting. -/
theorem entered_readCells {vec : Word} {s t : State} (h : enteredThrough vec s t)
    (hb : s.busEvents = []) {a : Nat} (ha : a + 2 ≤ (s.regs.r6 - 4).toNat ∨ s.regs.r6.toNat ≤ a) :
    readCells t.mem a = readCells s.mem a := by
  obtain ⟨-, -, -, -, -, -, frame, -⟩ := h
  have lo := frame a (by omega) (undisturbed_of_idle hb _)
  have hi := frame (a + 1) (by omega) (undisturbed_of_idle hb _)
  simp only [readCells, lo, hi]

/-- What an entry loads and pushes, no device acting. -/
theorem entered_idle {vec : Word} {s t : State} (h : enteredThrough vec s t) (hb : s.busEvents = []) :
    t.regs.r6 = s.regs.r6 - 4 ∧ readCells t.mem (s.regs.r6 - 4).toNat = s.regs.r7 ∧
      readCells t.mem (s.regs.r6 - 2).toNat = s.psw.toWord ∧
      t.regs.r7 = readCells t.mem vec.toNat ∧
      t.psw = Psw.ofWord (readCells t.mem (vec + 2).toNat) := by
  obtain ⟨sp, link, status, target, psw, -⟩ := h
  exact ⟨sp, link (wordUndisturbed_of_idle hb _), status (wordUndisturbed_of_idle hb _),
    target (wordUndisturbed_of_idle hb _), psw (wordUndisturbed_of_idle hb _)⟩

/-- Below an entry made with room for two there is room for another. -/
theorem stackReady_of_entered {vec : Word} {s t : State} (h : enteredThrough vec s t) (hs : stackReady s)
    (room : 8 ≤ s.regs.r6.toNat) : stackReady t := by
  obtain ⟨sp, -, -, -, -, -, -, -, -, -, cfg, -⟩ := h
  obtain ⟨-, n4⟩ := stackReady_toNat hs
  have top := hs.2.2
  refine ⟨?_, ?_, ?_⟩ <;> rw [sp]
  · exact (stackReady_words hs).2.1
  · omega
  · rw [cfg]; omega

section
variable {s t u : State}

/-- R287: with both flags pending the trace entry is made, and then, from its state, the overflow entry. -/
theorem endOfInstruction_traceThenOverflow (hwf : Memory.wf s.mem = true) (ht : s.tracePending = true)
    (ho : s.stackOverflowPending = true) (hr : s.run ≠ .halted) (hb : busIdle s) (hs : stackReady s)
    (room : 8 ≤ s.regs.r6.toNat) :
    ∃ t u, enteredThrough traceVector { s with tracePending := false, run := .running } t ∧
      enteredThrough busErrorVector t u ∧ u.run = .running ∧
      endOfInstruction s = { u with stackOverflowPending := false, tracePending := false } := by
  obtain ⟨s0, hs0⟩ : ∃ x : State, x = { s with tracePending := false, run := .running } := ⟨_, rfl⟩
  have ready : stackReady s0 := by rw [hs0]; exact hs
  have room0 : 8 ≤ s0.regs.r6.toNat := by rw [hs0]; exact room
  have idle : busIdle s0 := by rw [hs0]; exact hb
  have wf : Memory.wf s0.mem = true := by rw [hs0]; exact hwf
  obtain ⟨t, h1⟩ : ∃ x, x = entryState traceVector s0 := ⟨_, rfl⟩
  have entered1 : enteredThrough traceVector s0 t := h1 ▸ entryState_entered _ wf ready
  have ready1 := stackReady_of_entered entered1 ready room0
  have idle1 := busIdle_of_devicesOnly idle (enteredThrough_devicesOnly entered1)
  have run1 : t.run = .running := by rw [h1, hs0]; rfl
  have pending : t.stackOverflowPending = true := by
    rw [h1, entryState_overflow _ ready, hs0, ho, Bool.true_or]
  obtain ⟨u, h2⟩ : ∃ x, x = entryState busErrorVector t := ⟨_, rfl⟩
  have entered2 : enteredThrough busErrorVector t u :=
    h2 ▸ entryState_entered _ (h1 ▸ entryState_wf _ wf) ready1
  have idle2 := busIdle_of_devicesOnly idle1 (enteredThrough_devicesOnly entered2)
  refine ⟨t, u, hs0 ▸ entered1, entered2, by rw [h2]; exact run1, ?_⟩
  rw [endOfInstruction_eq, serveTrace_memory ht hr hs, ← hs0, ← h1,
    serveOverflow_memory pending (by simp [run1]) ready1, withRunning_eq run1, ← h2,
    interruptCheck_idle (s := { u with stackOverflowPending := false }) rfl idle2]

/-- What the two entries load and push: the second's words lie below the first's and above both vectors. -/
theorem two_entries_idle (h : enteredThrough traceVector s t) (h' : enteredThrough busErrorVector t u)
    (hb : busIdle s) (hs : stackReady s) (low : 0o30 ≤ s.regs.r6.toNat) :
    u.regs.r7 = readCells s.mem 0o4 ∧ u.psw = Psw.ofWord (readCells s.mem 0o6) ∧
      u.regs.r6 = s.regs.r6 - 8 ∧
      readCells u.mem (s.regs.r6 - 2).toNat = s.psw.toWord ∧
      readCells u.mem (s.regs.r6 - 4).toNat = s.regs.r7 ∧
      readCells u.mem (s.regs.r6 - 6).toNat = (Psw.ofWord (readCells s.mem 0o16)).toWord ∧
      readCells u.mem (s.regs.r6 - 8).toNat = readCells s.mem 0o14 := by
  have idle := busIdle_of_devicesOnly hb (enteredThrough_devicesOnly h)
  obtain ⟨n2, n4⟩ := stackReady_toNat hs
  obtain ⟨-, m4⟩ := stackReady_toNat (stackReady_of_entered h hs (by omega))
  obtain ⟨sp, link, status, target, ps⟩ := entered_idle h hb.1
  obtain ⟨sp', link', status', target', ps'⟩ := entered_idle h' idle.1
  have e6 : s.regs.r6 - 4 - 2 = s.regs.r6 - 6 := by rw [BitVec.sub_sub]; rfl
  have e8 : s.regs.r6 - 4 - 4 = s.regs.r6 - 8 := by rw [BitVec.sub_sub]; rfl
  have first : ∀ a : Nat, a + 2 ≤ 0o20 → readCells t.mem a = readCells s.mem a := fun a ha =>
    entered_readCells h hb.1 (.inl (by omega))
  have second : ∀ a : Nat, a + 2 ≤ 0o20 ∨ (s.regs.r6 - 4).toNat ≤ a →
      readCells u.mem a = readCells t.mem a := fun a ha =>
    entered_readCells h' idle.1 (by rw [m4, sp]; omega)
  rw [sp, e6] at status'
  rw [sp, e8] at sp' link'
  refine ⟨?_, ?_, sp', ?_, ?_, ?_, ?_⟩
  · exact target'.trans ((second 0o4 (by omega)).trans (first 0o4 (by omega)))
  · exact ps'.trans (congrArg Psw.ofWord ((second 0o6 (by omega)).trans (first 0o6 (by omega))))
  · exact (second _ (by omega)).trans status
  · exact (second _ (by omega)).trans link
  · exact status'.trans
      (congrArg Psw.toWord (ps.trans (congrArg Psw.ofWord (first 0o16 (by omega)))))
  · exact link'.trans (target.trans (first 0o14 (by omega)))

end

/-- Settles O51: two entries, the second below the first on the stack. -/
theorem traceThenOverflow : Obligations.TraceThenOverflow := by
  intro s hwf ht ho hr hb hodd hlow htop
  have hs : stackReady s := ⟨hodd, by omega, htop⟩
  obtain ⟨t, u, entered, entered', run, final⟩ :=
    endOfInstruction_traceThenOverflow hwf ht ho hr hb hs (by omega)
  obtain ⟨pc, ps, sp, status, link, status', link'⟩ :=
    two_entries_idle (s := { s with tracePending := false, run := .running }) entered entered' hb hs hlow
  rw [final]
  exact ⟨pc, ps, sp, status, link, status', link', rfl, rfl, run⟩

/-! ### The interrupt check -/

section
variable {s : State} {d : Device} {before after : List Device}

theorem deviceLevel_cases (d : Device) :
    deviceLevel d = 4 ∨ deviceLevel d = 5 ∨ deviceLevel d = 6 := by
  cases d <;> decide

theorem deviceVector_range (d : Device) :
    isOdd (deviceVector d) = false ∧ (deviceVector d).toNat + 4 ≤ 0o020000 := by
  cases d <;> decide

theorem requestAt_eq_none {level : Nat}
    (h : ∀ e ∈ s.irq, e ∈ s.cfg.devices → deviceLevel e ≠ level) : requestAt s level = none := by
  refine List.find?_eq_none.2 fun e he hp => ?_
  simp only [Bool.and_eq_true, List.contains_iff_mem, beq_iff_eq] at hp
  exact h e hp.1 he hp.2

/-- R294: of the requests of one level the first in bus order. -/
theorem requestAt_eq_some (hc : s.cfg.devices = before ++ d :: after) (hd : d ∈ s.irq)
    (hb : ∀ e ∈ s.irq, e ∈ before → deviceLevel e ≠ deviceLevel d) :
    requestAt s (deviceLevel d) = some d := by
  refine List.find?_eq_some_iff_append.2 ⟨by simp [hd], before, after, hc, fun e he => ?_⟩
  by_cases hq : e ∈ s.irq
  · simp [hb e hq he]
  · simp [hq]

/-- R292, R294: of the requests the highest, and of those the first in bus order. -/
theorem topRequest_eq_some (hc : s.cfg.devices = before ++ d :: after) (hd : d ∈ s.irq)
    (hle : ∀ e ∈ s.irq, e ∈ s.cfg.devices → deviceLevel e ≤ deviceLevel d)
    (hb : ∀ e ∈ s.irq, e ∈ before → deviceLevel e < deviceLevel d) : topRequest s = some d := by
  have at_level := requestAt_eq_some hc hd fun e he hm => Nat.ne_of_lt (hb e he hm)
  have above : ∀ level, deviceLevel d < level → requestAt s level = none := fun level hl =>
    requestAt_eq_none fun e he hm => Nat.ne_of_lt (Nat.lt_of_le_of_lt (hle e he hm) hl)
  unfold topRequest
  rcases deviceLevel_cases d with hd | hd | hd <;> rw [hd] at at_level above
  · simp [List.findSome?, above, at_level]
  · simp [List.findSome?, above, at_level]
  · simp [List.findSome?, above, at_level]

/-- Only a configured device that requests is granted. -/
theorem mem_of_topRequest (h : topRequest s = some d) : d ∈ s.irq ∧ d ∈ s.cfg.devices := by
  obtain ⟨level, -, hl⟩ := List.exists_of_findSome?_eq_some h
  have hp := List.find?_some hl
  simp only [Bool.and_eq_true, List.contains_iff_mem] at hp
  exact ⟨hp.1, List.mem_of_find?_eq_some hl⟩

/-- An instruction's end that grants a request, with room on the stack. -/
theorem endOfInstruction_grants (hwf : Memory.wf s.mem = true) (hs : stackReady s)
    (room : 0o404 ≤ s.regs.r6.toNat) (hr : s.run ≠ .halted) (ht : s.tracePending = false)
    (ho : s.stackOverflowPending = false) (top : topRequest (busStep s) = some d)
    (above : s.psw.pri.toNat < deviceLevel d) :
    enteredThrough (deviceVector d)
      { busStep s with irq := removeDevice d (busStep s).irq, run := .running }
      (endOfInstruction s) := by
  obtain ⟨s0, hs0⟩ : ∃ x : State,
      x = { busStep s with irq := removeDevice d (busStep s).irq, run := .running } := ⟨_, rfl⟩
  have ready : stackReady s0 := by rw [hs0]; exact hs
  have flag : (entryState (deviceVector d) s0).stackOverflowPending = false := by
    refine entryState_no_overflow ready ?_ ?_ <;> rw [hs0]
    · exact ho
    · exact room
  have trace : (entryState (deviceVector d) s0).tracePending = false := by rw [hs0]; exact ht
  have granted : grantInterrupt (busStep s) = entryState (deviceVector d) s0 := by
    rw [grantInterrupt, top]
    simp only
    obtain ⟨even, low⟩ := deviceVector_range d
    rw [if_pos ⟨above, hr⟩, enter_memory (s := { busStep s with irq := removeDevice d (busStep s).irq })
      hs even (low.trans (memTop_pos s.cfg)), hs0]
  have wf : Memory.wf s0.mem = true := by rw [hs0]; exact busStep_wf hwf
  rw [endOfInstruction_eq, serveTrace_off ht, serveOverflow_off ho, interruptCheck, granted,
    serveOverflow_off flag, consumePending_off trace flag, ← hs0]
  exact entryState_entered _ wf ready

end

/-- Settles O52: the request described is the one the interrupt check takes. -/
theorem interruptGranted : Obligations.InterruptGranted := by
  intro s before after d hwf hs room hr ht ho u hc hd _ hle hb above
  exact endOfInstruction_grants hwf hs room hr ht ho
    (topRequest_eq_some (s := busStep s) hc hd hle hb) above

/-- Settles O53: no request is above the priority, 7 being above the level of every device. -/
theorem interruptWithheld : Obligations.InterruptWithheld := by
  intro s ht ho u h
  have low : ∀ d ∈ u.irq, d ∈ s.cfg.devices → deviceLevel d ≤ s.psw.pri.toNat := by
    obtain h | h := h
    · exact h
    · intro d _ _
      rw [h]
      show deviceLevel d ≤ 7
      rcases deviceLevel_cases d with hd | hd | hd <;> omega
  have withheld : grantInterrupt u = u := by
    unfold grantInterrupt
    split
    · next d top =>
      obtain ⟨hi, hm⟩ := mem_of_topRequest top
      exact if_neg fun hp => Nat.not_lt.2 (low d hi hm) hp.1
    · rfl
  have unchanged : endOfInstruction s = u := by
    rw [endOfInstruction_eq, serveTrace_off ht, serveOverflow_off ho, interruptCheck, withheld,
      serveOverflow_off (s := u) ho, consumePending_off (s := u) ht ho]
  refine ⟨unchanged, fun hw => ?_⟩
  rw [step, hw, unchanged]

/-- Settles O54: the one request is the highest and the first in bus order. -/
theorem waitEndsByInterrupt : Obligations.WaitEndsByInterrupt := by
  intro s d hwf hs room hr ht ho hq hm above
  obtain ⟨before, after, hc, first⟩ := List.eq_append_cons_of_mem hm
  have only : ∀ e ∈ (busStep s).irq, e = d := fun e he => List.mem_singleton.1 (hq ▸ he)
  have top := topRequest_eq_some (s := busStep s) hc (by simp [hq])
    (fun e he _ => (only e he) ▸ Nat.le_refl _) (fun e he hb => absurd (only e he ▸ hb) first)
  have entered := endOfInstruction_grants hwf hs room (by simp [hr]) ht ho top above
  have withdrawn : removeDevice d (busStep s).irq = [] := by simp [hq, removeDevice]
  rw [withdrawn] at entered
  have run : (endOfInstruction s).run = .running := by
    obtain ⟨-, -, -, -, -, -, -, run, -⟩ := entered
    exact run
  exact ⟨_, by rw [step, hr], run, entered⟩

end Sys2Proof.Machine
end

section
/-! PROOFS. The devices' own steps and the step function (20_memory.md R67, R68, 60_exceptions.md R285, R287; O55 to
O57). -/

namespace Sys2Proof.Machine

/-! ### The devices' requests -/

theorem mem_requestsAfter {c : Config} {q : List Device} {e : BusEvent} {d : Device}
    (h : d ∈ requestsAfter c q e) : d ∈ q ∨ d ∈ c.devices := by
  cases e with
  | request x =>
    by_cases hx : c.devices.contains x = true
    · have added : d ∈ addDevice x q := (if_pos hx : requestsAfter c q (.request x) = _) ▸ h
      have hd := (List.mem_filter.1 added).2
      simp only [Bool.or_eq_true, decide_eq_true_eq, List.contains_iff_mem] at hd
      obtain rfl | hq := hd
      · exact .inr (List.contains_iff_mem.1 hx)
      · exact .inl hq
    · exact .inl ((if_neg hx : requestsAfter c q (.request x) = q) ▸ h)
  | withdraw x => exact .inl (List.mem_of_mem_filter h)
  | storeByte _ _ _ | storeWord _ _ _ => exact .inl h

/-- A new request is one of a configured device. -/
theorem mem_busStep_irq {s : State} {d : Device} (h : d ∈ (busStep s).irq) :
    d ∈ s.irq ∨ d ∈ s.cfg.devices := by
  have kept := busStep_keeps (s := s)
    (P := fun u => u.cfg = s.cfg ∧ ∀ d ∈ u.irq, d ∈ s.irq ∨ d ∈ s.cfg.devices)
    (fun _ p => p)
    (fun u e p => ⟨p.1, fun d hd =>
      (mem_requestsAfter hd).elim (p.2 d) fun hc => .inr (p.1 ▸ hc)⟩)
    (fun _ _ _ _ _ _ p => p) ⟨rfl, fun _ hd => .inl hd⟩
  exact kept.2 d h

/-! ### Between an instruction's accesses -/

section
variable {r : Reg} {s : State}

theorem loc_deferred (w : Width) (r : Reg) (s : State) :
    loc w ⟨.deferred, r⟩ s = .ok (.mem (s.regs.get r)) s := rfl

theorem incFlags_word (x : Word) (p : Psw) :
    incFlags x p = flagged (x + 1) (decide (x.toNat = 0o077777)) p.c p := by
  rw [incFlags_flagged, ofNat_toNat_add]
  rfl

/-- INC of a word of memory: the devices step before the read, and again before the write. -/
theorem exec_inc_deferred (h : wordInMemory s (s.regs.get r)) :
    exec (.inc ⟨.deferred, r⟩) s =
      .next { busStep (busStep s) with
        mem := writeCells (busStep (busStep s)).mem (s.regs.get r).toNat
          (readCells (busStep s).mem (s.regs.get r).toNat + 1)
        psw := incFlags (readCells (busStep s).mem (s.regs.get r).toNat) s.psw } := by
  obtain ⟨x, hx⟩ : ∃ x, x = readCells (busStep s).mem (s.regs.get r).toNat := ⟨_, rfl⟩
  have written := memWrite_eq (v := x + 1) (s := (busStep s).setPsw (incFlags x s.psw))
    (accessible_of_wordInMemory (s := s) h)
  have stored := State.store_memory (busStep ((busStep s).setPsw (incFlags x s.psw))) .word
    (s.regs.get r) (x + 1) ((place_memory_iff s.cfg _).2 h.2)
  rw [stored, hx] at written
  exact perform_ok ((update_eq (loc_deferred .word r s) (memRead_wordInMemory h)).trans written)

/-- CMP of a word of memory with itself: the devices step before each of its two reads. -/
theorem exec_cmp_deferred (h : wordInMemory s (s.regs.get r)) :
    exec (.cmp ⟨.deferred, r⟩ ⟨.deferred, r⟩) s =
      .next ((busStep (busStep s)).setPsw (subFlags (readCells (busStep s).mem (s.regs.get r).toNat)
        (readCells (busStep (busStep s)).mem (s.regs.get r).toNat) s.psw)) := by
  have operands : sourceAndDest .word ⟨.deferred, r⟩ ⟨.deferred, r⟩ s =
      .ok (readCells (busStep s).mem (s.regs.get r).toNat, .mem (s.regs.get r)) (busStep s) := by
    rw [sourceAndDest_of_early (by simp [sourceIsLate]), Exec.bind_eq (loc_deferred .word r s),
      Exec.bind_eq ((readLoc_mem _ _ _).trans (memRead_wordInMemory h)), Exec.bind_eq (loc_deferred .word r (busStep s))]
    rfl
  exact perform_ok (testBoth_eq operands (memRead_wordInMemory (s := busStep s) h))

end

/-- Settles O55: the devices' steps change memory and requests alone, and come before each access. -/
theorem deviceSteps : Obligations.DeviceSteps := by
  refine fun s => ⟨rfl, rfl, rfl, rfl, rfl, rfl, rfl, rfl, rfl, busStep_idle, busStep_mem_of_noDma,
    fun _ hk => busStep_readCell hk, fun _ => mem_busStep_irq, fun r h => ⟨?_, _, exec_cmp_deferred h,
      rfl, subFlags_z_iff _ _ _⟩⟩
  refine (exec_inc_deferred h).trans ?_
  simp only [incFlags_word]

/-! ### One step -/

section
variable {s u v : State}

/-- A bus error of the fetch is taken as one of the instruction (R279). -/
theorem step_of_fetch_error {e : Exception} (hr : s.run = .running)
    (hf : fetch { s with tracePending := s.psw.t } = .error e u) :
    step s = .next (endOfInstruction (takeException e u)) := by
  have hf' : fetch (sampleTrace s) = .error e u := hf
  unfold step runInstruction
  simp only [hr, hf', finish]

theorem exec_next (i : Instr) (s : State) : ∃ t, exec i s = .next t := by
  cases i
  case jmp | jsr | rts | rti | mov | movb | cmp | cmpb | bit | bitb | bic | bicb | bis | bisb | add
      | sub | clr | clrb | tst | tstb | com | comb | inc | incb | dec | decb | neg | negb | adc | adcb
      | sbc | sbcb | ror | rorb | rol | rolb | asr | asrb | asl | aslb | swab =>
    exact perform_next _ s
  case br | bne | beq | bge | blt | bgt | ble | bpl | bmi | bhi | blos | bvc | bvs | bcc | bcs | bhis
      | blo =>
    simp only [exec, execBr, execBne, execBeq, execBge, execBlt, execBgt, execBle, execBpl, execBmi,
      execBhi, execBlos, execBvc, execBvs, execBcc, execBcs, execBhis, execBlo]
    exact perform_next _ s
  all_goals exact ⟨_, rfl⟩

theorem step_next (h : s.run ≠ .halted) : ∃ t, step s = .next t := by
  cases hr : s.run with
  | running =>
    cases hf : fetch { s with tracePending := s.psw.t } with
    | ok w u =>
      obtain ⟨v, hv⟩ := exec_next (decodeWord w) u
      exact ⟨_, step_of_fetch hr hf hv⟩
    | error e u => exact ⟨_, step_of_fetch_error hr hf⟩
  | waiting => exact ⟨_, by rw [step, hr]⟩
  | halted => exact absurd hr h

end

/-- Settles O56: the two bytes decoded are those of the word the fetch reads. -/
theorem stepRunsDecoded : Obligations.StepRunsDecoded := by
  refine fun s hr => ⟨fun i hm hd => ?_, fun hf => ?_⟩
  · have word : decodeWord (readCells (busStep s).mem s.regs.r7.toNat) = i := by
      cases hd
      rfl
    refine ⟨word ▸ (encodeOfDecode _).1, fun t ht => ?_⟩
    exact step_of_fetch hr (fetch_memory (s := { s with tracePending := s.psw.t }) hm)
      ((congrArg (exec · _) word).trans ht)
  · exact step_of_fetch_error hr (fetch_eq_error (s := { s with tracePending := s.psw.t }) hf)

/-- Settles O57: every meaning performs accesses, which end in a state or raise what is then taken. -/
theorem onlyHaltedStops : Obligations.OnlyHaltedStops :=
  fun s => ⟨fun i => exec_next i s, step_halted, step_next⟩

end Sys2Proof.Machine
end
